-- ==== Sys2Proof/Word.lean ====
section
/-! DEFINITION. The word types of the block: what the spec treats as bits, at the widths of 00_scope.md R4. -/

namespace Sys2Proof

/-- A command word, a status-read response (`CMD_W`, `RSP_W`; 00_scope.md R4). -/
abbrev Word := BitVec 32

/-- A byte of the encoder's input or the decoder's output, and a pixel value (`BYTE_W`, `PIX_W`; R4). -/
abbrev Byte := BitVec 8

/-- A row or column count or position (`DIM_W`; R4). -/
abbrev Dim := BitVec 12

/-- A pixel count within one raster (`POS_W`; R4). -/
abbrev PixCount := BitVec 24

end Sys2Proof
end

