-- ==== Sys2Proof/Config.lean ====
section
/-! DEFINITION. The parameters of 00_scope.md R4. The spec leaves none open ("a model may treat each as a
constant"), so there is no free value here: every one is a constant. The widths are the types of Word.lean. -/

namespace Sys2Proof.Config

/-- `PIX0`: the pixel value of bit 0, black (R4, R6). -/
abbrev pix0 : Byte := 0x00#8

/-- `PIX1`: the pixel value of bit 1, white (R4, R6). -/
abbrev pix1 : Byte := 0xFF#8

/-- `DEF_ROWS`: the row count after reset (R4; 70_reset_and_hazards.md R191). -/
abbrev defRows : Dim := 104#12

/-- `DEF_COLS`: the column count after reset (R4; R191). -/
abbrev defCols : Dim := 104#12

/-- The largest value of the held-zero counter, 2^32 - 1 (`ZRUN_W` = 32; 42_decoder_commands.md R122). -/
abbrev zrunMax : BitVec 32 := 0xFFFFFFFF#32

/-- How many status registers there are: x[0] to x[8] (10_state.md R30). -/
abbrev statusRegs : Nat := 9

end Sys2Proof.Config
end

