-- ==== Sys2Proof/Syntax.lean ====
section
/-! DEFINITION. The 14 commands of 30_encoding.md R67, one constructor for each row of spec/opcode_table.json.
Operands are the unsigned fields of the word exactly as they stand (R71). -/

namespace Sys2Proof

/-- Which zero-valued bytes the decoder removes: `DEC.MODE` (10_state.md R19) and the operand of `DEC_CFG`
(30_encoding.md R66). -/
inductive StripMode where
  /-- 0 `TRAILING`: the run of zero bytes at the very end of the transaction. -/
  | trailing
  /-- 1 `ALL`: every zero byte, wherever it stands. -/
  | all
deriving DecidableEq, Repr

/-- A command. -/
inductive Instr where
  /-- `NOP` (40_system_commands.md R81). -/
  | nop
  /-- `SYS_RESET` (R82). -/
  | sysReset
  /-- `RDSR idx` (R83). -/
  | rdsr (idx : BitVec 4)
  /-- `ENC_CFG rows, cols` (41_encoder_commands.md R91). -/
  | encCfg (rows cols : Dim)
  /-- `ENC_START` (R92). -/
  | encStart
  /-- `ENC_BYTE imm8` (R94). -/
  | encByte (imm8 : Byte)
  /-- `ENC_END` (R95). -/
  | encEnd
  /-- `ENC_ABORT` (R96). -/
  | encAbort
  /-- `DEC_CFG mode` (42_decoder_commands.md R111). -/
  | decCfg (mode : StripMode)
  /-- `DEC_START` (R112). -/
  | decStart
  /-- `DEC_RASTER rows, cols` (R113). -/
  | decRaster (rows cols : Dim)
  /-- `DEC_PIX imm8` (R114). -/
  | decPix (imm8 : Byte)
  /-- `DEC_END` (R116). -/
  | decEnd
  /-- `DEC_ABORT` (R117). -/
  | decAbort
deriving DecidableEq, Repr

end Sys2Proof
end

