-- ==== Sys2Proof/WellFormed.lean ====
section
/-! DEFINITION. What a command term must meet to stand for a word. The operand types already carry the field
widths of 30_encoding.md R61; the one constraint left is that of the `RDSR` row of R67. -/

namespace Sys2Proof

/-- `RDSR` names one of the nine status registers, `idx <= 8` (30_encoding.md R65, R67); every other operand value
is legal (R63, R64, R66). -/
def Instr.wellFormed : Instr → Bool
  | .rdsr idx => decide (idx.toNat < Config.statusRegs)
  | .nop | .sysReset => true
  | .encCfg _ _ | .encStart | .encByte _ | .encEnd | .encAbort => true
  | .decCfg _ | .decStart | .decRaster _ _ | .decPix _ | .decEnd | .decAbort => true

end Sys2Proof
end

