-- ==== Sys2Proof/Decode.lean ====
section
/-! DEFINITION. From command words to commands and back: 30_encoding.md R60 to R71. Decoding is total and reads no
state (R68); a word that is no command is rejected under the name of what makes it illegal (R69). -/

namespace Sys2Proof

/-- Why a word decodes to no command: the cases of 30_encoding.md R69. All have the same effect, that of
60_exceptions.md R162. -/
inductive Illegal where
  /-- R69 (a): one of the 242 unassigned values of `op`. -/
  | unassignedOp (op : BitVec 8)
  /-- R69 (b) to (e): a bit that the format of `op` calls zero is 1. -/
  | mustBeZero (op : BitVec 8)
  /-- R69 (d): `RDSR` with `idx` 9 to 15. -/
  | reservedIndex (idx : BitVec 4)
deriving DecidableEq, Repr

/-! ## Fields of a word (R61) -/

/-- `op`, bits 31:24. -/
def opField (w : Word) : BitVec 8 := w.extractLsb' 24 8

/-- `rows`, bits 23:12 (format G). -/
def rowsField (w : Word) : Dim := w.extractLsb' 12 12

/-- `cols`, bits 11:0 (format G). -/
def colsField (w : Word) : Dim := w.extractLsb' 0 12

/-- `imm8`, bits 7:0 (format B). -/
def imm8Field (w : Word) : Byte := w.extractLsb' 0 8

/-- `idx`, bits 3:0 (format I). -/
def idxField (w : Word) : BitVec 4 := w.extractLsb' 0 4

/-- `mode`, bit 0 (format M). -/
def modeField (w : Word) : BitVec 1 := w.extractLsb' 0 1

/-- The strip mode that an operand bit names: 0 `TRAILING`, 1 `ALL` (R71). -/
def StripMode.ofBit (b : BitVec 1) : StripMode := if b = 0#1 then .trailing else .all

/-- The operand bit of a strip mode, also bit 2 of `x[6]` (R66; 10_state.md R37). -/
def StripMode.toBit : StripMode → BitVec 1
  | .trailing => 0#1
  | .all => 1#1

/-! ## Decoding (R68) -/

/-- Formats Z, B, I and M: the bits the format gives to no field must be 0 (R61 `zero`, R62, R64 to R66). -/
def ifZero {n : Nat} (zero : BitVec n) (w : Word) (i : Except Illegal Instr) : Except Illegal Instr :=
  if zero = 0#n then i else .error (.mustBeZero (opField w))

/-- Format Z: bits 23:0 are zero (R62). -/
def formatZ (w : Word) (i : Instr) : Except Illegal Instr := ifZero (w.extractLsb' 0 24) w (.ok i)

/-- Format G: every operand value is legal (R63). -/
def formatG (w : Word) (i : Dim → Dim → Instr) : Except Illegal Instr := .ok (i (rowsField w) (colsField w))

/-- Format B: bits 23:8 are zero (R64). -/
def formatB (w : Word) (i : Byte → Instr) : Except Illegal Instr :=
  ifZero (w.extractLsb' 8 16) w (.ok (i (imm8Field w)))

/-- Format I: bits 23:4 are zero and `idx` is at most 8 (R65). -/
def formatI (w : Word) (i : BitVec 4 → Instr) : Except Illegal Instr :=
  ifZero (w.extractLsb' 4 20) w
    (if (idxField w).toNat < Config.statusRegs then .ok (i (idxField w)) else .error (.reservedIndex (idxField w)))

/-- Format M: bits 23:1 are zero (R66). -/
def formatM (w : Word) (i : StripMode → Instr) : Except Illegal Instr :=
  ifZero (w.extractLsb' 1 23) w (.ok (i (StripMode.ofBit (modeField w))))

/-- The decoder of 30_encoding.md R68 over the opcode map of R67. -/
def decode (w : Word) : Except Illegal Instr :=
  match opField w with
  | 0x00#8 => formatZ w .nop
  | 0x01#8 => formatZ w .sysReset
  | 0x02#8 => formatI w .rdsr
  | 0x10#8 => formatG w .encCfg
  | 0x11#8 => formatZ w .encStart
  | 0x12#8 => formatB w .encByte
  | 0x13#8 => formatZ w .encEnd
  | 0x14#8 => formatZ w .encAbort
  | 0x20#8 => formatM w .decCfg
  | 0x21#8 => formatZ w .decStart
  | 0x22#8 => formatG w .decRaster
  | 0x23#8 => formatB w .decPix
  | 0x24#8 => formatZ w .decEnd
  | 0x25#8 => formatZ w .decAbort
  | op => .error (.unassignedOp op)

/-- The instruction the decoder reads from the table's bits `w`. A command is one 32-bit word taken whole from the
`CMD` port (R60; 20_memory.md R41), so there is no byte order to lay out. -/
def decodeTableWord (nbits w : Nat) : Option Instr := (decode (BitVec.ofNat 32 (w % 2 ^ nbits))).toOption

/-! ## Encoding (R62 to R67) -/

/-- The word of a command: `op` above the operand fields of its format, every other bit 0. -/
def encode : Instr → Word
  | .nop => 0x00#8 ++ 0#24
  | .sysReset => 0x01#8 ++ 0#24
  | .rdsr idx => 0x02#8 ++ 0#20 ++ idx
  | .encCfg rows cols => 0x10#8 ++ rows ++ cols
  | .encStart => 0x11#8 ++ 0#24
  | .encByte imm8 => 0x12#8 ++ 0#16 ++ imm8
  | .encEnd => 0x13#8 ++ 0#24
  | .encAbort => 0x14#8 ++ 0#24
  | .decCfg mode => 0x20#8 ++ 0#23 ++ mode.toBit
  | .decStart => 0x21#8 ++ 0#24
  | .decRaster rows cols => 0x22#8 ++ rows ++ cols
  | .decPix imm8 => 0x23#8 ++ 0#16 ++ imm8
  | .decEnd => 0x24#8 ++ 0#24
  | .decAbort => 0x25#8 ++ 0#24

/-! ## The opcode map as a table (R67) -/

/-- One row of the table of R67: the word is the command exactly when `w &&& mask = pattern` and, for `RDSR`,
`idx <= 8`. -/
structure OpcodeRow where
  mnemonic : String
  pattern : Word
  mask : Word
deriving DecidableEq, Repr

/-- The row of a command. -/
def Instr.row : Instr → OpcodeRow
  | .nop => ⟨"NOP", 0x00000000#32, 0xFFFFFFFF#32⟩
  | .sysReset => ⟨"SYS_RESET", 0x01000000#32, 0xFFFFFFFF#32⟩
  | .rdsr _ => ⟨"RDSR", 0x02000000#32, 0xFFFFFFF0#32⟩
  | .encCfg _ _ => ⟨"ENC_CFG", 0x10000000#32, 0xFF000000#32⟩
  | .encStart => ⟨"ENC_START", 0x11000000#32, 0xFFFFFFFF#32⟩
  | .encByte _ => ⟨"ENC_BYTE", 0x12000000#32, 0xFFFFFF00#32⟩
  | .encEnd => ⟨"ENC_END", 0x13000000#32, 0xFFFFFFFF#32⟩
  | .encAbort => ⟨"ENC_ABORT", 0x14000000#32, 0xFFFFFFFF#32⟩
  | .decCfg _ => ⟨"DEC_CFG", 0x20000000#32, 0xFFFFFFFE#32⟩
  | .decStart => ⟨"DEC_START", 0x21000000#32, 0xFFFFFFFF#32⟩
  | .decRaster _ _ => ⟨"DEC_RASTER", 0x22000000#32, 0xFF000000#32⟩
  | .decPix _ => ⟨"DEC_PIX", 0x23000000#32, 0xFFFFFF00#32⟩
  | .decEnd => ⟨"DEC_END", 0x24000000#32, 0xFFFFFFFF#32⟩
  | .decAbort => ⟨"DEC_ABORT", 0x25000000#32, 0xFFFFFFFF#32⟩

/-- The 14 rows of R67, in its order. -/
def opcodeTable : List OpcodeRow :=
  [Instr.row .nop, Instr.row .sysReset, Instr.row (.rdsr 0), Instr.row (.encCfg 0 0), Instr.row .encStart,
   Instr.row (.encByte 0), Instr.row .encEnd, Instr.row .encAbort, Instr.row (.decCfg .trailing), Instr.row .decStart,
   Instr.row (.decRaster 0 0), Instr.row (.decPix 0), Instr.row .decEnd, Instr.row .decAbort]

end Sys2Proof
end

