-- ==== Sys2Proof/Machine/State.lean ====
section
/-! DEFINITION. The state of the block: the 18 fields and the one transient of 10_state.md R10 in their three groups,
and beside them the model's own record of the ports (what was emitted, what is still to be presented), which R10 says
is not state of the block (notes/assumptions/1.md, 2.md). -/

namespace Sys2Proof.Machine

/-- The three values of `ENC.STATE` and `DEC.STATE` (10_state.md R14, R20). The value 3 of the two bits never occurs
and is not a value of this type (93_implementation_defined.md U8; notes/assumptions/5.md). -/
inductive UnitState where
  /-- 0: no transaction open. -/
  | idle
  /-- 1: between an accepted start and the end. -/
  | active
  /-- 2: an error was raised and not yet cleared. -/
  | fault
deriving DecidableEq, Repr

/-- The fault codes of 60_exceptions.md R161; codes 6 to 15 are never written and are not values of this type
(93_implementation_defined.md U8; notes/assumptions/5.md). -/
inductive ErrCode where
  /-- 0 `ERR_NONE`. -/
  | none
  /-- 1 `ERR_CONFIG`, the source's `ConfigurationError`. -/
  | config
  /-- 2 `ERR_SHAPE`, the source's `ShapeMismatchError`. -/
  | shape
  /-- 3 `ERR_PIXEL`. -/
  | pixel
  /-- 4 `ERR_SEQ`. -/
  | seq
  /-- 5 `ERR_OVERFLOW`. -/
  | overflow
deriving DecidableEq, Repr

/-- The two control registers that fault entry writes, the same in both units (R163, R171). -/
structure Ctl where
  /-- `ENC.STATE`, `DEC.STATE`: 2 bits. -/
  state : UnitState
  /-- `ENC.ERR`, `DEC.ERR`: 4 bits. -/
  err : ErrCode
deriving DecidableEq, Repr

/-- The system group. -/
structure Sys where
  /-- `SYS.ILL` (10_state.md R12). -/
  ill : Bool
deriving DecidableEq, Repr

/-- The encoder group. -/
structure Enc where
  /-- `ENC.ROWS` (10_state.md R13). -/
  rows : Dim
  /-- `ENC.COLS` (R13). -/
  cols : Dim
  /-- `ENC.STATE` (R14) and `ENC.ERR` (R15). -/
  ctl : Ctl
  /-- `ENC.ROW` (R16). -/
  row : Dim
  /-- `ENC.COL` (R16). -/
  col : Dim
  /-- `ENC.RAS` (R17). -/
  ras : BitVec 32
  /-- `ENC.SR`, 0 at every command boundary (R18). -/
  sr : Byte
deriving DecidableEq, Repr

/-- The decoder group. -/
structure Dec where
  /-- `DEC.MODE` (10_state.md R19). -/
  mode : StripMode
  /-- `DEC.STATE` (R20) and `DEC.ERR` (R21). -/
  ctl : Ctl
  /-- `DEC.ROWS` (R22). -/
  rows : Dim
  /-- `DEC.COLS` (R22). -/
  cols : Dim
  /-- `DEC.HAVE` (R22). -/
  haveShape : Bool
  /-- `DEC.REM` (R23). -/
  rem : PixCount
  /-- `DEC.SR` (R24). -/
  sr : Byte
  /-- `DEC.BC` (R24). -/
  bc : BitVec 3
  /-- `DEC.ZRUN` (R25). -/
  zrun : BitVec 32
deriving DecidableEq, Repr

/-- An event on `PIX_OUT`: the pixel value and its sidebands (20_memory.md R42). -/
structure Pix where
  val : Byte
  ras : BitVec 32
  row : Dim
  col : Dim
  /-- 1 exactly on the last pixel of a raster. -/
  eor : Bool
deriving DecidableEq, Repr

/-- One thing the host does to the block's two inputs (20_memory.md R40 (a) and (f)). -/
inductive PortItem where
  /-- A command word presented on `CMD` and accepted (R41). -/
  | word (w : Word)
  /-- The hardware reset `rst` between two commands (70_reset_and_hazards.md R190). -/
  | rst
  /-- The hardware reset `rst` while the command word `w` runs, after `emitted` of its events (R190). -/
  | rstDuring (w : Word) (emitted : Nat)
deriving DecidableEq, Repr

/-- The machine: the block's three groups of registers, the three output traces and the input still to be presented. -/
structure State where
  /-- The system group. -/
  sys : Sys
  /-- The encoder group. -/
  enc : Enc
  /-- The decoder group. -/
  dec : Dec
  /-- Every event emitted on `PIX_OUT` so far, oldest first (20_memory.md R43, R53; the model's own field). -/
  pixOut : List Pix
  /-- Every event emitted on `BYTE_OUT` so far, oldest first (R46; the model's own field). -/
  byteOut : List Byte
  /-- Every response sent on `RSP` so far, oldest first (R47; the model's own field). -/
  rspOut : List Word
  /-- What the host has still to present, first first (R41; the model's own field). -/
  input : List PortItem
deriving DecidableEq, Repr

/-- Why the machine can stop with a fault. The faults of the spec are states of a unit, not stops
(60_exceptions.md R163, R172; 70_reset_and_hazards.md R196), so only a state that no run reaches has one. -/
inductive Fault where
  /-- Raised by the meaning of `ENC_END` when its padding loop does not come back to position (0, 0) within one
  raster. Only a state that 10_state.md R26 excludes does so, and no rule gives such a state a next state
  (93_implementation_defined.md U8, "stuck"). Safe: the model stops where the spec defines nothing. -/
  | paddingNeverEnds
deriving DecidableEq, Repr

/-- Why the machine can refuse a step. -/
inductive Refusal where
  /-- Raised by an arm of exec whose instruction has no meaning yet. No arm raises it. Safe. -/
  | notModelled (mnemonic : String)
  /-- Raised by `step` from a state that the invariants of 10_state.md R26 exclude (93_implementation_defined.md U8:
  "a step from such a state is stuck"). Safe: no run from reset reaches such a state. -/
  | excludedState
deriving DecidableEq, Repr

/-- The outcome of a step or of an instruction's meaning. -/
abbrev Result := Host.Outcome State Fault Refusal

/-- Reset values of the control registers: `IDLE`, `ERR_NONE` (70_reset_and_hazards.md R191). -/
def Ctl.reset : Ctl := { state := .idle, err := .none }

/-- Reset value of the system group (R191). -/
def Sys.reset : Sys := { ill := false }

/-- Reset values of the encoder group (R191). -/
def Enc.reset : Enc :=
  { rows := Config.defRows, cols := Config.defCols, ctl := .reset, row := 0#12, col := 0#12, ras := 0#32, sr := 0#8 }

/-- Reset values of the decoder group (R191). -/
def Dec.reset : Dec :=
  { mode := .trailing, ctl := .reset, rows := 0#12, cols := 0#12, haveShape := false, rem := 0#24, sr := 0#8,
    bc := 0#3, zrun := 0#32 }

/-- The machine right after reset: every field at the value of R191, the traces empty as at the start of a run (R192),
nothing presented yet. -/
def State.reset : State :=
  { sys := .reset, enc := .reset, dec := .reset, pixOut := [], byteOut := [], rspOut := [], input := [] }

end Sys2Proof.Machine
end

