-- ==== Sys2Proof/Machine/Ops.lean ====
section
/-! DEFINITION. The named operations every meaning is written over: emitting on a port, fault entry and the return
from it, and the dispatch of a unit's commands (40_system_commands.md R80, steps 4 to 7). -/

namespace Sys2Proof.Machine

/-! ## Fields of the machine -/

/-- Replace the system group. -/
def State.setSys (y : Sys) (s : State) : State := { s with sys := y }

/-- Replace the encoder group. -/
def State.setEnc (u : Enc) (s : State) : State := { s with enc := u }

/-- Replace the decoder group. -/
def State.setDec (u : Dec) (s : State) : State := { s with dec := u }

/-- Replace what is still to be presented. -/
def State.setInput (items : List PortItem) (s : State) : State := { s with input := items }

/-! ## Emitting (20_memory.md R43, R46, R47; events keep the order they are emitted in, R53) -/

/-- Append pixel events to `PIX_OUT`. -/
def State.emitPix (evs : List Pix) (s : State) : State := { s with pixOut := s.pixOut ++ evs }

/-- Append bytes to `BYTE_OUT`. -/
def State.emitBytes (evs : List Byte) (s : State) : State := { s with byteOut := s.byteOut ++ evs }

/-- Append one response to `RSP`. -/
def State.emitRsp (v : Word) (s : State) : State := { s with rspOut := s.rspOut ++ [v] }

/-! ## Fault entry and return -/

/-- Fault entry, `raise E on U`, on the unit's control registers (60_exceptions.md R163): the first code is kept, the
unit goes to `FAULT`. It saves nothing and transfers control nowhere (R171). -/
def Ctl.raise (e : ErrCode) (c : Ctl) : Ctl :=
  { state := .fault, err := if c.err = .none then e else c.err }

/-- The return from `FAULT`, part of the unit's abort: the code is cleared and the unit is `IDLE` (R173). -/
def Ctl.clear (_ : Ctl) : Ctl := { state := .idle, err := .none }

/-- `raise E on ENC`. -/
def State.raiseEnc (e : ErrCode) (s : State) : State := s.setEnc { s.enc with ctl := s.enc.ctl.raise e }

/-- `raise E on DEC`. -/
def State.raiseDec (e : ErrCode) (s : State) : State := s.setDec { s.dec with ctl := s.dec.ctl.raise e }

/-! ## Dispatch of a unit's command -/

/-- What a unit's command does once its precondition holds (steps 6 and 7 of R80). Every `raise` stands before the
first assignment and the first event (R163), so a command either raises or changes its unit and emits. -/
inductive Act (σ ε : Type) where
  /-- The command is performed: the unit's registers after it, and its events in order. -/
  | does (unit : σ) (events : List ε)
  /-- One of the command's own checks fails. -/
  | raises (e : ErrCode)
  /-- No rule says what happens (93_implementation_defined.md U8). -/
  | stuck (f : Fault)

/-- Steps 4 to 7 of R80 for an encoder command other than the abort: ignored in `FAULT` (60_exceptions.md R172),
`ERR_SEQ` where the precondition fails (R167), else the command's checks and effects. Its events go to `PIX_OUT`
(41_encoder_commands.md R90). -/
def onEnc (accepts : Bool) (act : Act Enc Pix) (s : State) : Result :=
  if s.enc.ctl.state = .fault then .next s
  else if accepts then
    match act with
    | .does u evs => .next ((s.setEnc u).emitPix evs)
    | .raises e => .next (s.raiseEnc e)
    | .stuck f => .fault f
  else .next (s.raiseEnc .seq)

/-- The same for a decoder command other than the abort; its events go to `BYTE_OUT` (42_decoder_commands.md R110). -/
def onDec (accepts : Bool) (act : Act Dec Byte) (s : State) : Result :=
  if s.dec.ctl.state = .fault then .next s
  else if accepts then
    match act with
    | .does u evs => .next ((s.setDec u).emitBytes evs)
    | .raises e => .next (s.raiseDec e)
    | .stuck f => .fault f
  else .next (s.raiseDec .seq)

/-! ## Preconditions (60_exceptions.md R167) -/

/-- The unit is `IDLE`. -/
def Ctl.isIdle (c : Ctl) : Bool := c.state == .idle

/-- The unit is `ACTIVE`. -/
def Ctl.isActive (c : Ctl) : Bool := c.state == .active

/-- A decode transaction is open and no pixel is owed: what `DEC_RASTER` and `DEC_END` ask. -/
def Dec.betweenRasters (u : Dec) : Bool := u.ctl.isActive && u.rem == 0#24

/-- A decode transaction is open and the current raster owes a pixel: what `DEC_PIX` asks. -/
def Dec.owesPixel (u : Dec) : Bool := u.ctl.isActive && u.rem != 0#24

/-- An illegal word's one effect: `SYS.ILL <- 1` (R162; 10_state.md R12). -/
def State.markIllegal (s : State) : State := s.setSys { s.sys with ill := true }

/-- Every register to its reset value; the traces and what is still to be presented stay (40_system_commands.md R82;
70_reset_and_hazards.md R190 to R193). -/
def State.resetRegisters (s : State) : State := ((s.setSys .reset).setEnc .reset).setDec .reset

end Sys2Proof.Machine
end

