-- ==== Sys2Proof/Machine/Operands.lean ====
section
/-! DEFINITION. What the operands and fields mean as values: geometry (00_scope.md R5, R7), the pixel mapping (R6), and
the status registers that `RDSR` reads (10_state.md R30 to R39). -/

namespace Sys2Proof.Machine

/-! ## Geometry -/

/-- `rows * cols` in 24 bits (R7 (a)). -/
def area (rows cols : Dim) : PixCount := rows.setWidth 24 * cols.setWidth 24

/-- `geom_ok(rows, cols)`: both at least 1 and the product a multiple of 8 (R5). -/
def geomOk (rows cols : Nat) : Bool := decide (1 ≤ rows ∧ 1 ≤ cols ∧ rows * cols % 8 = 0)

/-- The capacity `C` of the encoder's geometry (R5; 10_state.md R13). -/
def Enc.capacity (u : Enc) : Nat := u.rows.toNat * u.cols.toNat

/-- `POS = ENC.ROW * ENC.COLS + ENC.COL`, the index of the next pixel in its raster (10_state.md R16). -/
def Enc.pos (u : Enc) : Nat := u.row.toNat * u.cols.toNat + u.col.toNat

/-! ## The pixel mapping (R6) -/

/-- `pix(b)`. -/
def pix (b : Bool) : Byte := if b then Config.pix1 else Config.pix0

/-- `bit(v)`, undefined for the 254 other values. -/
def bit? (v : Byte) : Option Bool :=
  if v = Config.pix1 then some true else if v = Config.pix0 then some false else none

/-! ## The status registers -/

/-- The two bits of `ENC.STATE`, `DEC.STATE` (10_state.md R14, R20). -/
def UnitState.code : UnitState → BitVec 2
  | .idle => 0#2
  | .active => 1#2
  | .fault => 2#2

/-- The four bits of `ENC.ERR`, `DEC.ERR` (60_exceptions.md R161). -/
def ErrCode.code : ErrCode → BitVec 4
  | .none => 0#4
  | .config => 1#4
  | .shape => 2#4
  | .pixel => 3#4
  | .seq => 4#4
  | .overflow => 5#4

/-- One bit from a flag. -/
def flagBit (b : Bool) : BitVec 1 := BitVec.ofBool b

/-- `x[0]`, `SYS_STATUS` (10_state.md R31). -/
def sysStatus (s : State) : Word := 0#31 ++ flagBit s.sys.ill

/-- `x[1]`, `ENC_GEOM` (R32). -/
def encGeom (s : State) : Word := 0#8 ++ s.enc.rows ++ s.enc.cols

/-- `x[2]`, `ENC_STATUS` (R33). -/
def encStatus (s : State) : Word := 0#24 ++ s.enc.ctl.err.code ++ 0#2 ++ s.enc.ctl.state.code

/-- `x[3]`, `ENC_POS` (R34). -/
def encPos (s : State) : Word := 0#8 ++ s.enc.row ++ s.enc.col

/-- `x[4]`, `ENC_RAS` (R35). -/
def encRas (s : State) : Word := s.enc.ras

/-- `x[5]`, `DEC_GEOM` (R36). -/
def decGeom (s : State) : Word := 0#7 ++ flagBit s.dec.haveShape ++ s.dec.rows ++ s.dec.cols

/-- `x[6]`, `DEC_STATUS` (R37). -/
def decStatus (s : State) : Word :=
  0#13 ++ s.dec.bc ++ s.dec.sr ++ s.dec.ctl.err.code ++ 0#1 ++ s.dec.mode.toBit ++ s.dec.ctl.state.code

/-- `x[7]`, `DEC_REM` (R38). -/
def decRem (s : State) : Word := 0#8 ++ s.dec.rem

/-- `x[8]`, `DEC_ZRUN` (R39). -/
def decZrun (s : State) : Word := s.dec.zrun

/-- `x[idx]`: a view of the fields, assembled when it is read; indices 9 to 15 name no register (R30). -/
def statusReg (idx : BitVec 4) (s : State) : Option Word :=
  match idx with
  | 0#4 => some (sysStatus s)
  | 1#4 => some (encGeom s)
  | 2#4 => some (encStatus s)
  | 3#4 => some (encPos s)
  | 4#4 => some (encRas s)
  | 5#4 => some (decGeom s)
  | 6#4 => some (decStatus s)
  | 7#4 => some (decRem s)
  | 8#4 => some (decZrun s)
  | _ => none

end Sys2Proof.Machine
end

