-- ==== Sys2Proof/Machine/Flags.lean ====
section
/-! DEFINITION. The flags. The block has no arithmetic flags (10_state.md section 8); its flags are the sticky error
state and the three level outputs that show it (20_memory.md R48), and the conditions the command rules test. -/

namespace Sys2Proof.Machine

/-! ## Level outputs (R48): functions of state, no memory of their own -/

/-- `enc_fault`. -/
def State.encFault (s : State) : Bool := s.enc.ctl.state == .fault

/-- `dec_fault`. -/
def State.decFault (s : State) : Bool := s.dec.ctl.state == .fault

/-- `sys_ill`. -/
def State.sysIll (s : State) : Bool := s.sys.ill

/-! ## Conditions the command rules test -/

/-- The position is the last pixel of the raster: the `last` of `enc_shift` and the `eor` of `EmitPix`
(41_encoder_commands.md R93; 20_memory.md R43). -/
def Enc.atLast (u : Enc) : Bool := u.row == u.rows - 1#12 && u.col == u.cols - 1#12

/-- The position is (0, 0): what ends the padding loop of `ENC_END` (R95). -/
def Enc.atOrigin (u : Enc) : Bool := u.row == 0#12 && u.col == 0#12

/-- The shape announced differs from the first raster's (42_decoder_commands.md R113, R123): rows are compared with
rows and cols with cols. -/
def Dec.shapeDiffers (rows cols : Dim) (u : Dec) : Bool :=
  u.haveShape && (rows != u.rows || cols != u.cols)

/-- The next bit completes a group (R114). -/
def Dec.groupFull (u : Dec) : Bool := u.bc == 7#3

/-- Completing a group with value `nsr` would hold a 2^32-th zero byte (R114, R122). -/
def Dec.zeroOverflows (nsr : Byte) (u : Dec) : Bool :=
  u.groupFull && nsr == 0x00#8 && u.mode == .trailing && u.zrun == Config.zrunMax

end Sys2Proof.Machine
end

