-- ==== Sys2Proof/Machine/Decoder.lean ====
section
/-! DEFINITION. The decoder's commands (spec/42_decoder_commands.md). What a command does to the unit is a function of
the decoder group alone (R110; 10_state.md R28). -/

namespace Sys2Proof.Machine

/-! ## The deliver step (R115) -/

/-- `deliver(byte)`: a non-zero byte releases the held zero bytes and goes out after them; a zero byte is held back in
mode `TRAILING` and dropped in mode `ALL`. -/
def Dec.deliver (byte : Byte) (u : Dec) : Dec × List Byte :=
  if byte ≠ 0x00#8 then
    ({ u with zrun := 0#32 }, List.replicate u.zrun.toNat 0x00#8 ++ [byte])
  else
    match u.mode with
    | .trailing => ({ u with zrun := u.zrun + 1#32 }, [])
    | .all => (u, [])

/-- `((DEC.SR << 1) | b)[7:0]`: the group with one more bit (R114; 00_scope.md R7 (g)). -/
def Dec.shiftIn (b : Bool) (u : Dec) : Byte := u.sr <<< 1 ||| (BitVec.ofBool b).setWidth 8

/-- What `DEC_PIX` does with the bit of an accepted pixel, after its checks: the raster owes one pixel fewer, and a
complete group is delivered (R114). -/
def Dec.takeBit (b : Bool) (u : Dec) : Dec × List Byte :=
  let nsr := u.shiftIn b
  if u.groupFull then
    { u with rem := u.rem - 1#24, sr := 0#8, bc := 0#3 }.deliver nsr
  else ({ u with rem := u.rem - 1#24, sr := nsr, bc := u.bc + 1#3 }, [])

/-- The transaction registers as `DEC_START` and `DEC_ABORT` leave them (R112, R117). -/
def Dec.clearTransaction (u : Dec) : Dec :=
  { u with rows := 0#12, cols := 0#12, haveShape := false, rem := 0#24, sr := 0#8, bc := 0#3, zrun := 0#32 }

/-! ## What each command does to the unit once accepted -/

/-- `DEC_CFG mode` (R111). -/
def decCfgAct (mode : StripMode) (u : Dec) : Act Dec Byte := .does { u with mode := mode } []

/-- `DEC_START` (R112); there is no geometry check anywhere in the decoder (R125). -/
def decStartAct (u : Dec) : Act Dec Byte :=
  .does { u.clearTransaction with ctl := { u.ctl with state := .active } } []

/-- `DEC_RASTER rows, cols` (R113): the shape check, the latch on the first raster, and the pixel count. An open group
and the held zeros are not touched (R118). -/
def decRasterAct (rows cols : Dim) (u : Dec) : Act Dec Byte :=
  if u.shapeDiffers rows cols then .raises .shape
  else if u.haveShape then .does { u with rem := area rows cols } []
  else .does { u with rows := rows, cols := cols, haveShape := true, rem := area rows cols } []

/-- `DEC_PIX imm8` (R114): the pixel-value check (R121), then the overflow check (R122), then the bit. -/
def decPixAct (imm8 : Byte) (u : Dec) : Act Dec Byte :=
  match bit? imm8 with
  | none => .raises .pixel
  | some b =>
    if u.zeroOverflows (u.shiftIn b) then .raises .overflow
    else .does (u.takeBit b).1 (u.takeBit b).2

/-- `DEC_END` (R116): the partial group is truncated (R119), the held zero bytes are stripped (R120). -/
def decEndAct (u : Dec) : Act Dec Byte :=
  .does { u with sr := 0#8, bc := 0#3, zrun := 0#32, ctl := { u.ctl with state := .idle } } []

/-- `DEC_ABORT` (R117): the error and the transaction registers are cleared, the mode is kept. -/
def Dec.abort (u : Dec) : Dec := { u.clearTransaction with ctl := u.ctl.clear }

/-! ## The meanings -/

/-- `DEC_CFG mode` (R111), accepted in `IDLE`. -/
def execDecCfg (mode : StripMode) (s : State) : Result := onDec s.dec.ctl.isIdle (decCfgAct mode s.dec) s

/-- `DEC_START` (R112), accepted in `IDLE`. -/
def execDecStart (s : State) : Result := onDec s.dec.ctl.isIdle (decStartAct s.dec) s

/-- `DEC_RASTER rows, cols` (R113), accepted in `ACTIVE` between rasters. -/
def execDecRaster (rows cols : Dim) (s : State) : Result :=
  onDec s.dec.betweenRasters (decRasterAct rows cols s.dec) s

/-- `DEC_PIX imm8` (R114), accepted in `ACTIVE` while the raster owes a pixel. -/
def execDecPix (imm8 : Byte) (s : State) : Result := onDec s.dec.owesPixel (decPixAct imm8 s.dec) s

/-- `DEC_END` (R116), accepted in `ACTIVE` between rasters. -/
def execDecEnd (s : State) : Result := onDec s.dec.betweenRasters (decEndAct s.dec) s

/-- `DEC_ABORT` (R117), accepted in every state, `FAULT` too. -/
def execDecAbort (s : State) : Result := .next (s.setDec s.dec.abort)

end Sys2Proof.Machine
end

