-- ==== Sys2Proof/Machine/Encoder.lean ====
section
/-! DEFINITION. The encoder's commands (spec/41_encoder_commands.md). What a command does to the unit is a function
of the encoder group alone (R90; 10_state.md R28). -/

namespace Sys2Proof.Machine

/-! ## The shift step (R93) -/

/-- The event `EmitPix(v)` appends, read before the counters advance (20_memory.md R43). -/
def Enc.pixEvent (v : Byte) (u : Enc) : Pix :=
  { val := v, ras := u.ras, row := u.row, col := u.col, eor := u.atLast }

/-- The position and raster counters one pixel on, in row-major order (R93). -/
def Enc.advance (u : Enc) : Enc :=
  if u.atLast then { u with row := 0#12, col := 0#12, ras := u.ras + 1#32 }
  else if u.col == u.cols - 1#12 then { u with col := 0#12, row := u.row + 1#12 }
  else { u with col := u.col + 1#12 }

/-- `enc_shift()`: bit 7 of `ENC.SR` goes out as a pixel, a 0 comes in at bit 0, the position advances (R93). -/
def encShift (u : Enc) : Enc × Pix :=
  ({ u with sr := u.sr <<< 1 }.advance, u.pixEvent (pix u.sr.msb))

/-- `repeat n: enc_shift()`, with the events in order. -/
def encShifts : Nat → Enc → Enc × List Pix
  | 0, u => (u, [])
  | n + 1, u =>
    let one := encShift u
    let rest := encShifts n one.1
    (rest.1, one.2 :: rest.2)

/-- `while not (ENC.ROW == 0 and ENC.COL == 0): enc_shift()`, with a bound on the rounds fixed before it starts
(R95; 70_reset_and_hazards.md R207); `none` when the bound is spent and the position is not (0, 0). -/
def encPad : Nat → Enc → Option (Enc × List Pix)
  | 0, u => if u.atOrigin then some (u, []) else none
  | n + 1, u =>
    if u.atOrigin then some (u, [])
    else
      let one := encShift u
      (encPad n one.1).map fun rest => (rest.1, one.2 :: rest.2)

/-! ## What each command does to the unit once accepted -/

/-- `ENC_CFG rows, cols` (R91): the geometry is stored as given, legal or not. -/
def encCfgAct (rows cols : Dim) (u : Enc) : Act Enc Pix := .does { u with rows := rows, cols := cols } []

/-- `ENC_START` (R92): the geometry check, before every assignment; then a fresh transaction. -/
def encStartAct (u : Enc) : Act Enc Pix :=
  if geomOk u.rows.toNat u.cols.toNat then
    .does { u with row := 0#12, col := 0#12, ras := 0#32, sr := 0#8, ctl := { u.ctl with state := .active } } []
  else .raises .config

/-- `ENC_BYTE imm8` (R94): load the shift register, eight shift steps. -/
def encByteAct (imm8 : Byte) (u : Enc) : Act Enc Pix :=
  let r := encShifts 8 { u with sr := imm8 }
  .does r.1 r.2

/-- `ENC_END` (R95): pad to the end of the open raster, then close the transaction. One raster's capacity bounds the
loop (at most `C - 8` rounds from a state that 10_state.md R26 allows; R207). -/
def encEndAct (u : Enc) : Act Enc Pix :=
  match encPad u.capacity u with
  | some r => .does { r.1 with ctl := { r.1.ctl with state := .idle } } r.2
  | none => .stuck .paddingNeverEnds

/-- `ENC_ABORT` (R96): the error and the transaction registers are cleared, the geometry is kept. -/
def Enc.abort (u : Enc) : Enc :=
  { u with ctl := u.ctl.clear, row := 0#12, col := 0#12, ras := 0#32, sr := 0#8 }

/-! ## The meanings -/

/-- `ENC_CFG rows, cols` (R91), accepted in `IDLE`. -/
def execEncCfg (rows cols : Dim) (s : State) : Result := onEnc s.enc.ctl.isIdle (encCfgAct rows cols s.enc) s

/-- `ENC_START` (R92), accepted in `IDLE`. -/
def execEncStart (s : State) : Result := onEnc s.enc.ctl.isIdle (encStartAct s.enc) s

/-- `ENC_BYTE imm8` (R94), accepted in `ACTIVE`. -/
def execEncByte (imm8 : Byte) (s : State) : Result := onEnc s.enc.ctl.isActive (encByteAct imm8 s.enc) s

/-- `ENC_END` (R95), accepted in `ACTIVE`. -/
def execEncEnd (s : State) : Result := onEnc s.enc.ctl.isActive (encEndAct s.enc) s

/-- `ENC_ABORT` (R96), accepted in every state, `FAULT` too. -/
def execEncAbort (s : State) : Result := .next (s.setEnc s.enc.abort)

end Sys2Proof.Machine
end

