-- ==== Sys2Proof/Machine/System.lean ====
section
/-! DEFINITION. The system commands (spec/40_system_commands.md). They are accepted in every state (R80 step 2). -/

namespace Sys2Proof.Machine

/-- `NOP` (R81). -/
def execNop (s : State) : Result := .next s

/-- `SYS_RESET` (R82): every field to its reset value; no event, and what was emitted stays emitted. -/
def execSysReset (s : State) : Result := .next s.resetRegisters

/-- `RDSR idx` (R83): exactly one response, `x[idx]`, and no other effect. The word of an index 9 to 15 is illegal
(30_encoding.md R69), so a term with one has the illegal word's effect (notes/assumptions/8.md). -/
def execRdsr (idx : BitVec 4) (s : State) : Result :=
  match statusReg idx s with
  | some v => .next (s.emitRsp v)
  | none => .next s.markIllegal

end Sys2Proof.Machine
end

