-- ==== Sys2Proof/Machine/Dispatch.lean ====
section
/-! DEFINITION. One arm for each command of 30_encoding.md R67 (dispatch: 40_system_commands.md R80). -/

namespace Sys2Proof.Machine

def exec (i : Instr) (s : State) : Host.Outcome State Fault Refusal :=
  match i with
  | .nop => Sys2Proof.Machine.execNop s
  | .sysReset => Sys2Proof.Machine.execSysReset s
  | .rdsr idx => Sys2Proof.Machine.execRdsr idx s
  | .encCfg rows cols => Sys2Proof.Machine.execEncCfg rows cols s
  | .encStart => Sys2Proof.Machine.execEncStart s
  | .encByte imm8 => Sys2Proof.Machine.execEncByte imm8 s
  | .encEnd => Sys2Proof.Machine.execEncEnd s
  | .encAbort => Sys2Proof.Machine.execEncAbort s
  | .decCfg mode => Sys2Proof.Machine.execDecCfg mode s
  | .decStart => Sys2Proof.Machine.execDecStart s
  | .decRaster rows cols => Sys2Proof.Machine.execDecRaster rows cols s
  | .decPix imm8 => Sys2Proof.Machine.execDecPix imm8 s
  | .decEnd => Sys2Proof.Machine.execDecEnd s
  | .decAbort => Sys2Proof.Machine.execDecAbort s

end Sys2Proof.Machine
end

