-- ==== Sys2Proof/Machine/Legal.lean ====
section
/-! DEFINITION. The states the spec allows at a command boundary: the invariants I-1 to I-11 of 10_state.md R26, with
the codes each unit can hold (R15, R21). I-2 holds by the type of the field. A state outside them has no next state
(93_implementation_defined.md U8; notes/assumptions/6.md). -/

namespace Sys2Proof.Machine

/-- I-3: `STATE == FAULT` if and only if `ERR != 0`. -/
def Ctl.legal (c : Ctl) : Bool := (c.state == .fault) == (c.err != .none)

/-- The codes the encoder can hold: `ERR_NONE`, `ERR_CONFIG`, `ERR_SEQ` (R15). -/
def ErrCode.isEncCode : ErrCode → Bool
  | .none | .config | .seq => true
  | .shape | .pixel | .overflow => false

/-- The codes the decoder can hold: `ERR_NONE`, `ERR_SHAPE`, `ERR_PIXEL`, `ERR_SEQ`, `ERR_OVERFLOW` (R21). -/
def ErrCode.isDecCode : ErrCode → Bool
  | .none | .shape | .pixel | .seq | .overflow => true
  | .config => false

/-- I-4 and I-5, asked in `ACTIVE`: a legal geometry, a position inside the raster, on a byte boundary. -/
def Enc.inRaster (u : Enc) : Bool :=
  geomOk u.rows.toNat u.cols.toNat && decide (u.row.toNat < u.rows.toNat) && decide (u.col.toNat < u.cols.toNat) &&
    decide (u.pos % 8 = 0)

/-- The encoder's invariants: I-1, I-3, R15, I-4 and I-5 in `ACTIVE`, I-6 in `IDLE`. -/
def Enc.legal (u : Enc) : Bool :=
  u.sr == 0#8 && u.ctl.legal && u.ctl.err.isEncCode &&
    (match u.ctl.state with
      | .idle => u.atOrigin
      | .active => u.inRaster
      | .fault => true)

/-- I-7, asked in `IDLE`. -/
def Dec.atRest (u : Dec) : Bool := u.rem == 0#24 && u.sr == 0#8 && u.bc == 0#3 && u.zrun == 0#32

/-- I-10 and I-11: a latched shape bounds the pixels owed; without one there is neither shape nor pixel. -/
def Dec.shapeLegal (u : Dec) : Bool :=
  if u.haveShape then decide (u.rem.toNat ≤ u.rows.toNat * u.cols.toNat)
  else u.rows == 0#12 && u.cols == 0#12 && u.rem == 0#24

/-- The decoder's invariants: I-3, R21, I-7 in `IDLE`, I-8, I-9 (which holds without its proviso,
notes/assumptions/9.md), I-10, I-11. -/
def Dec.legal (u : Dec) : Bool :=
  u.ctl.legal && u.ctl.err.isDecCode && (u.ctl.state != .idle || u.atRest) && decide (u.sr.toNat < 2 ^ u.bc.toNat) &&
    (u.mode != .all || u.zrun == 0#32) && u.shapeLegal

/-- The state is one the spec allows at a command boundary (10_state.md R26). The traces, the input and `SYS.ILL` are
unconstrained. -/
def State.legal (s : State) : Bool := s.enc.legal && s.dec.legal

end Sys2Proof.Machine
end

