-- ==== Sys2Proof/Machine/Port.lean ====
section
/-! DEFINITION. The block's two inputs: command words (40_system_commands.md R80 step 1; 20_memory.md R41) and the
hardware reset (70_reset_and_hazards.md R190). -/

namespace Sys2Proof.Machine

/-- One accepted command word: a command is executed, an illegal word sets `SYS.ILL` and does nothing else
(R80 step 1; 60_exceptions.md R162). -/
def acceptWord (w : Word) (s : State) : Result :=
  match decode w with
  | .ok i => exec i s
  | .error _ => .next s.markIllegal

/-- The hardware reset between two commands: the registers to their reset values, nothing emitted, what was emitted
kept (R190 to R192). -/
def hardReset (s : State) : Result := .next s.resetRegisters

/-- `s` after a command cut short by the hardware reset, where `t` is `s` after the whole command: the first `n` events
of the command stay emitted, the registers are at their reset values (R190). A command emits on one port only
(R53), so `n` counts its events on that port. -/
def cutShort (n : Nat) (s t : State) : State :=
  { s with
    pixOut := s.pixOut ++ (t.pixOut.drop s.pixOut.length).take n
    byteOut := s.byteOut ++ (t.byteOut.drop s.byteOut.length).take n
    rspOut := s.rspOut ++ (t.rspOut.drop s.rspOut.length).take n }.resetRegisters

/-- The hardware reset while the word `w` runs, after `n` of its events (R190). -/
def resetDuring (w : Word) (n : Nat) (s : State) : Result :=
  match acceptWord w s with
  | .next t => .next (cutShort n s t)
  | .fault f => .fault f
  | .refused r => .refused r

/-- What the block does with one thing the host presents. -/
def present : PortItem → State → Result
  | .word w, s => acceptWord w s
  | .rst, s => hardReset s
  | .rstDuring w n, s => resetDuring w n s

/-- The first thing still to be presented is taken and acted on; each is consumed once (R41). With nothing presented
the block waits and changes nothing (70_reset_and_hazards.md R196; notes/assumptions/3.md). -/
def takeInput (s : State) : Result :=
  match s.input with
  | [] => .next s
  | item :: rest => present item (s.setInput rest)

end Sys2Proof.Machine
end

