-- ==== Sys2Proof/Machine/Step.lean ====
section
/-! DEFINITION. The step function. -/

namespace Sys2Proof.Machine

/-- One step: the next thing the host presents is acted on to its end (20_memory.md R52). A state that 10_state.md R26
excludes has no next state (93_implementation_defined.md U8). -/
def step (s : State) : Host.Outcome State Fault Refusal :=
  if s.legal then takeInput s else .refused .excludedState

/-- `s` with the table's bits `w` as the very next command word presented; what was to be presented follows it. -/
def State.withFetchWord (s : State) (nbits w : Nat) : State :=
  s.setInput (.word (BitVec.ofNat 32 (w % 2 ^ nbits)) :: s.input)

end Sys2Proof.Machine
end

