-- ==== Sys2Proof/Machine/Reference.lean ====
section
/-! DEFINITION. The reference functions of spec/43_transactions.md (R140 to R143): what whole transactions compute.
They are functions of bytes and rasters and use no state of the block. -/

namespace Sys2Proof.Machine

/-! ## Bits and bytes (R140) -/

/-- The eight bits of a byte, most significant first (20_memory.md R49). -/
def byteBits (b : Byte) : List Bool := (List.range 8).map fun j => b.getLsbD (7 - j)

/-- `bits_of(Bs)`: the bit stream of a byte sequence. -/
def bitsOf (bs : List Byte) : List Bool := bs.flatMap byteBits

/-- The byte of a group of eight bits, the first in bit 7 (20_memory.md R49). -/
def byteOfBits (g : List Bool) : Byte := g.foldl (fun v b => v <<< 1 ||| (BitVec.ofBool b).setWidth 8) 0#8

/-- `bytes_of(bs)`: the bytes of the whole groups of eight; a final shorter group is ignored. -/
def bytesOf : List Bool → List Byte
  | b0 :: b1 :: b2 :: b3 :: b4 :: b5 :: b6 :: b7 :: rest => byteOfBits [b0, b1, b2, b3, b4, b5, b6, b7] :: bytesOf rest
  | _ => []

/-! ## The strip (R143) -/

/-- `B` without its longest suffix of zero bytes. -/
def stripTrailing : List Byte → List Byte
  | [] => []
  | b :: bs =>
    match stripTrailing bs with
    | [] => if b = 0x00#8 then [] else [b]
    | kept => b :: kept

/-- `strip(B, mode)`. -/
def strip (mode : StripMode) (bs : List Byte) : List Byte :=
  match mode with
  | .trailing => stripTrailing bs
  | .all => bs.filter fun b => b != 0x00#8

/-- The longest run of consecutive zero bytes, the run before the list having length `n`: what 43_transactions.md R145
bounds. -/
def longestZeroRun : Nat → List Byte → Nat
  | n, [] => n
  | n, b :: bs => if b = 0x00#8 then longestZeroRun (n + 1) bs else max n (longestZeroRun 0 bs)

/-! ## Rasters -/

/-- A raster: `rows` lists of `cols` cells (00_scope.md section 7, BitRaster). -/
structure Raster where
  rows : Nat
  cols : Nat
  grid : List (List Byte)
deriving DecidableEq, Repr

/-- `flat(Q)`: the cells in row-major order (R142). -/
def Raster.flat (q : Raster) : List Byte := q.grid.flatten

/-- The grid has the shape it is said to have and every cell is 0x00 or 0xFF (R142, R147). -/
def Raster.wellShaped (q : Raster) : Bool :=
  q.grid.length == q.rows && q.grid.all (fun line => line.length == q.cols) && q.flat.all (fun v => (bit? v).isSome)

/-- The errors of the two reference functions. -/
inductive CodecError where
  /-- `ConfigurationError` (R141). -/
  | configuration
  /-- `ShapeMismatchError` (R142). -/
  | shapeMismatch
  /-- A cell on which `bit` is undefined (00_scope.md R6): outside the domain of R142 (notes/assumptions/11.md). -/
  | undefinedCell
deriving DecidableEq, Repr

/-! ## The encoder's function (R141) -/

/-- `ceil(L / C)`, 0 when `L` is 0 (00_scope.md R7). -/
def rasterCount (l c : Nat) : Nat := (l + c - 1) / c

/-- The pixel sequence `P`: the bits of the bytes, then zeros to a whole number of rasters, as pixel values. -/
def encodePixels (bs : List Byte) (c : Nat) : List Byte :=
  (bitsOf bs ++ List.replicate (rasterCount (8 * bs.length) c * c - 8 * bs.length) false).map pix

/-- Raster `n` of a pixel sequence: `Q[r][c] = P[n * C + r * cols + c]`. -/
def cutRaster (rows cols n : Nat) (p : List Byte) : Raster :=
  { rows := rows, cols := cols,
    grid := (List.range rows).map fun r => (List.range cols).map fun c => p.getD (n * (rows * cols) + r * cols + c) 0 }

/-- `encode(Bs, rows, cols)`. -/
def encodeRef (bs : List Byte) (rows cols : Nat) : Except CodecError (List Raster) :=
  if geomOk rows cols then
    .ok ((List.range (rasterCount (8 * bs.length) (rows * cols))).map fun n =>
      cutRaster rows cols n (encodePixels bs (rows * cols)))
  else .error .configuration

/-! ## The decoder's function (R142) -/

/-- Every raster has the shape of the first. -/
def sameShapes : List Raster → Bool
  | [] => true
  | q :: qs => qs.all fun q' => q'.rows == q.rows && q'.cols == q.cols

/-- The bits of a pixel sequence, where `bit` is defined on every pixel. -/
def bitsOfPixels : List Byte → Option (List Bool)
  | [] => some []
  | v :: vs =>
    match bit? v, bitsOfPixels vs with
    | some b, some bs => some (b :: bs)
    | _, _ => none

/-- `decode(Qs, mode)`. -/
def decodeRef (qs : List Raster) (mode : StripMode) : Except CodecError (List Byte) :=
  if sameShapes qs then
    match bitsOfPixels (qs.flatMap Raster.flat) with
    | some bits => .ok (strip mode (bytesOf bits))
    | none => .error .undefinedCell
  else .error .shapeMismatch

end Sys2Proof.Machine
end

