-- ==== Sys2Proof/Machine/Transactions.lean ====
section
/-! DEFINITION. Runs and transactions: applying a list of commands or words (70_reset_and_hazards.md R196), the
pseudo-instructions (30_encoding.md R73 to R76), which transactions have a result (60_exceptions.md R175), and the
output raster space (20_memory.md R44). -/

namespace Sys2Proof.Machine

/-! ## Runs (R196) -/

/-- The commands of a list applied in order. -/
def execAll : List Instr → State → Result
  | [], s => .next s
  | i :: is, s =>
    match exec i s with
    | .next t => execAll is t
    | .fault f => .fault f
    | .refused r => .refused r

/-- `s` with the words of a list presented, in order, after what is presented already. -/
def State.presentWords (ws : List Word) (s : State) : State := s.setInput (s.input ++ ws.map .word)

/-! ## Pseudo-instructions -/

/-- `ENC_BYTES b0, ..., bn-1` (R73). -/
def encBytes (bs : List Byte) : List Instr := bs.map .encByte

/-- `ENCODE rows, cols, b0, ..., bn-1` (R74). -/
def encodeCmds (rows cols : Dim) (bs : List Byte) : List Instr :=
  .encCfg rows cols :: .encStart :: (encBytes bs ++ [.encEnd])

/-- `DEC_PIXELS p0, ..., pn-1` (R75). -/
def decPixels (ps : List Byte) : List Instr := ps.map .decPix

/-- `DEC_RASTER_DATA rows, cols, p0, ..., pn-1` (R75), refused when the count is not `rows * cols`. -/
def decRasterData (rows cols : Dim) (ps : List Byte) : Option (List Instr) :=
  if ps.length = rows.toNat * cols.toNat then some (.decRaster rows cols :: decPixels ps) else none

/-- A dimension as an operand: none above 4095 (00_scope.md R4; 70_reset_and_hazards.md R205). -/
def dimOfNat (n : Nat) : Option Dim := if n < 4096 then some (BitVec.ofNat 12 n) else none

/-- The commands of one raster of `DECODE`: its shape, then its cells in row-major order (R76, R198). -/
def rasterCmds (q : Raster) : Option (List Instr) :=
  match dimOfNat q.rows, dimOfNat q.cols with
  | some rows, some cols => decRasterData rows cols q.flat
  | _, _ => none

/-- The commands of the rasters of `DECODE`, in order. -/
def rastersCmds : List Raster → Option (List Instr)
  | [] => some []
  | q :: qs =>
    match rasterCmds q, rastersCmds qs with
    | some is, some rest => some (is ++ rest)
    | _, _ => none

/-- `DECODE Q0, ..., Qm-1` (R76). -/
def decodeCmds (qs : List Raster) : Option (List Instr) :=
  (rastersCmds qs).map fun is => .decStart :: (is ++ [.decEnd])

/-! ## Accepted transactions (R175; 20_memory.md R46)

The host takes the events between an accepted start and the accepted end as the transaction's result; the events of
a transaction that faults, is aborted or is reset are void. The mark is the length of the trace at the start. -/

/-- The mark after one command: kept while the transaction stays open, set where it opens, dropped where it closes. -/
def nextMark (wasOpen isOpen : Bool) (len : Nat) (mark : Option Nat) : Option Nat :=
  if isOpen then (if wasOpen then mark else some len) else none

/-- The results of the decode transactions that a command list completes: the bytes emitted between each accepted
`DEC_START` and its accepted `DEC_END`. -/
def decodeResults : List Instr → Option Nat → State → List (List Byte)
  | [], _, _ => []
  | i :: is, mark, s =>
    match exec i s with
    | .next t =>
      let here := match mark with
        | some m => if i = .decEnd && s.dec.ctl.isActive && t.dec.ctl.isIdle then [t.byteOut.drop m] else []
        | none => []
      here ++ decodeResults is (nextMark s.dec.ctl.isActive t.dec.ctl.isActive t.byteOut.length mark) t
    | .fault _ => []
    | .refused _ => []

/-- The results of the encode transactions that a command list completes: the pixels emitted between each accepted
`ENC_START` and its accepted `ENC_END`. -/
def encodeResults : List Instr → Option Nat → State → List (List Pix)
  | [], _, _ => []
  | i :: is, mark, s =>
    match exec i s with
    | .next t =>
      let here := match mark with
        | some m => if i = .encEnd && s.enc.ctl.isActive && t.enc.ctl.isIdle then [t.pixOut.drop m] else []
        | none => []
      here ++ encodeResults is (nextMark s.enc.ctl.isActive t.enc.ctl.isActive t.pixOut.length mark) t
    | .fault _ => []
    | .refused _ => []

/-! ## The output raster space (20_memory.md R44) -/

/-- The address an event stores to: raster, row, column. -/
def Pix.address (e : Pix) : BitVec 32 × Dim × Dim := (e.ras, e.row, e.col)

/-- What the events of a transaction have stored at an address; none where nothing was written. -/
def rasterSpace (evs : List Pix) (a : BitVec 32 × Dim × Dim) : Option Byte :=
  (evs.reverse.find? fun e => e.address == a).map Pix.val

/-- The `k`-th pixel event of a transaction by the row-major map of R44, with `ras` modulo 2^32
(41_encoder_commands.md R97). -/
def mappedPix (rows cols : Dim) (k : Nat) (v : Byte) : Pix :=
  let c := rows.toNat * cols.toNat
  { val := v, ras := BitVec.ofNat 32 (k / c), row := BitVec.ofNat 12 (k % c / cols.toNat),
    col := BitVec.ofNat 12 (k % c % cols.toNat), eor := k % c + 1 == c }

/-- The events that carry a pixel sequence, the first being event number `k`. -/
def mappedPixels (rows cols : Dim) : Nat → List Byte → List Pix
  | _, [] => []
  | k, v :: vs => mappedPix rows cols k v :: mappedPixels rows cols (k + 1) vs

end Sys2Proof.Machine
end

