-- ==== Sys2Proof/Machine/Assembler.lean ====
section
/-! DEFINITION. The assembler notation of 30_encoding.md R72 and the pseudo-instructions that have a text form (R73 to
R75), one line at a time. Where R72 does not say how spaces are treated, see notes/assumptions/12.md. -/

namespace Sys2Proof.Machine

/-- A line up to its comment; a `#` inside a quoted string starts none. -/
def dropComment : Bool → List Char → List Char
  | _, [] => []
  | quoted, c :: cs =>
    if c = '#' && !quoted then [] else c :: dropComment (if c = '"' then !quoted else quoted) cs

/-- Without the spaces at both ends. -/
def trim (cs : List Char) : List Char :=
  ((cs.dropWhile (· = ' ')).reverse.dropWhile (· = ' ')).reverse

/-- The pieces between commas, each trimmed; no piece at all for an empty text. -/
def operands (cs : List Char) : List (List Char) :=
  if trim cs = [] then []
  else
    let r := cs.foldr (fun c acc => if c = ',' then ([], acc.1 :: acc.2) else (c :: acc.1, acc.2)) ([], [])
    (r.1 :: r.2).map trim

/-- The value of a digit. -/
def digit? (base : Nat) (c : Char) : Option Nat :=
  let n := c.toNat
  let v := if 48 ≤ n ∧ n ≤ 57 then n - 48 else if 97 ≤ n ∧ n ≤ 102 then n - 87
    else if 65 ≤ n ∧ n ≤ 70 then n - 55 else base
  if v < base then some v else none

/-- The digits of a number, at least one. -/
def digits? (base : Nat) : List Char → Option Nat
  | [] => none
  | c :: cs => cs.foldl (fun acc d => match acc, digit? base d with
      | some n, some v => some (n * base + v)
      | _, _ => none) (digit? base c)

/-- A number: hexadecimal after `0x`, else decimal. -/
def number? : List Char → Option Nat
  | '0' :: 'x' :: cs => digits? 16 cs
  | cs => digits? 10 cs

/-- A number below `2 ^ n`. -/
def operand? (n : Nat) (cs : List Char) : Option (BitVec n) :=
  match number? cs with
  | some v => if v < 2 ^ n then some (BitVec.ofNat n v) else none
  | none => none

/-- A list of numbers, each below `2 ^ n`. -/
def operandList? (n : Nat) : List (List Char) → Option (List (BitVec n))
  | [] => some []
  | o :: os =>
    match operand? n o, operandList? n os with
    | some v, some vs => some (v :: vs)
    | _, _ => none

/-- The operand of `DEC_CFG`: a name or its number. -/
def modeOperand? (cs : List Char) : Option StripMode :=
  if cs = "TRAILING".toList then some .trailing
  else if cs = "ALL".toList then some .all
  else (operand? 1 cs).map StripMode.ofBit

/-- The names of the status registers, in the order of their indices (10_state.md R31 to R39). -/
def statusNames : List String :=
  ["SYS_STATUS", "ENC_GEOM", "ENC_STATUS", "ENC_POS", "ENC_RAS", "DEC_GEOM", "DEC_STATUS", "DEC_REM", "DEC_ZRUN"]

/-- The operand of `RDSR`: a register name or its index. -/
def indexOperand? (cs : List Char) : Option (BitVec 4) :=
  match statusNames.findIdx? fun n => n.toList = cs with
  | some k => some (BitVec.ofNat 4 k)
  | none => operand? 4 cs

/-- The codes of a quoted string of single-byte characters (R73). DESIGN CHOICE, safe: R73 names no character set; a
single-byte character is here one below 128, a single byte in UTF-8 with that code, and any other is refused, as is the
quotation mark (notes/assumptions/12.md). -/
def quoted? (cs : List Char) : Option (List Byte) :=
  match cs with
  | '"' :: rest =>
    match rest.reverse with
    | '"' :: body => if body.all (fun c => c.toNat < 128 && c != '"') then some (body.reverse.map fun c => BitVec.ofNat 8 c.toNat) else none
    | _ => none
  | _ => none

/-- A well-formed command as the only one of a line. -/
def oneCmd (i : Instr) : Option (List Instr) := if i.wellFormed then some [i] else none

/-- A command of format Z takes no operand. -/
def noOperand (ops : List (List Char)) (i : Instr) : Option (List Instr) := if ops = [] then oneCmd i else none

/-- A command with one operand. -/
def oneOperand {α : Type} (parse : List Char → Option α) (ops : List (List Char)) (i : α → Instr) : Option (List Instr) :=
  match ops with
  | [o] => (parse o).bind fun v => oneCmd (i v)
  | _ => none

/-- The first two operands as dimensions, and the rest. -/
def geometry? (ops : List (List Char)) : Option (Dim × Dim × List (List Char)) :=
  match ops with
  | r :: c :: rest =>
    match operand? 12 r, operand? 12 c with
    | some rows, some cols => some (rows, cols, rest)
    | _, _ => none
  | _ => none

/-- A command of format G. -/
def twoDims (ops : List (List Char)) (i : Dim → Dim → Instr) : Option (List Instr) :=
  match geometry? ops with
  | some (rows, cols, []) => oneCmd (i rows cols)
  | _ => none

/-- The operand bytes of `ENC_BYTES`: numbers, or one quoted string (R73). -/
def bytesOperand? (text : List Char) : Option (List Byte) :=
  match quoted? (trim text) with
  | some bs => some bs
  | none => operandList? 8 (operands text)

/-- The commands of a mnemonic and the text of its operands. -/
def assembleCmd (mnemonic text : List Char) : Option (List Instr) :=
  let ops := operands text
  if mnemonic = "NOP".toList then noOperand ops .nop
  else if mnemonic = "SYS_RESET".toList then noOperand ops .sysReset
  else if mnemonic = "RDSR".toList then oneOperand indexOperand? ops .rdsr
  else if mnemonic = "ENC_CFG".toList then twoDims ops .encCfg
  else if mnemonic = "ENC_START".toList then noOperand ops .encStart
  else if mnemonic = "ENC_BYTE".toList then oneOperand (operand? 8) ops .encByte
  else if mnemonic = "ENC_END".toList then noOperand ops .encEnd
  else if mnemonic = "ENC_ABORT".toList then noOperand ops .encAbort
  else if mnemonic = "DEC_CFG".toList then oneOperand modeOperand? ops .decCfg
  else if mnemonic = "DEC_START".toList then noOperand ops .decStart
  else if mnemonic = "DEC_RASTER".toList then twoDims ops .decRaster
  else if mnemonic = "DEC_PIX".toList then oneOperand (operand? 8) ops .decPix
  else if mnemonic = "DEC_END".toList then noOperand ops .decEnd
  else if mnemonic = "DEC_ABORT".toList then noOperand ops .decAbort
  else if mnemonic = "ENC_BYTES".toList then (bytesOperand? text).map encBytes
  else if mnemonic = "DEC_PIXELS".toList then (operandList? 8 ops).map decPixels
  else if mnemonic = "ENCODE".toList then
    match geometry? ops with
    | some (rows, cols, rest) => (operandList? 8 rest).map (encodeCmds rows cols)
    | none => none
  else if mnemonic = "DEC_RASTER_DATA".toList then
    match geometry? ops with
    | some (rows, cols, rest) => (operandList? 8 rest).bind (decRasterData rows cols)
    | none => none
  else none

/-- The commands of one line: none of a blank or comment line, `none` for a text that is no line of R72 to R75. -/
def assembleLine (line : String) : Option (List Instr) :=
  let cs := trim (dropComment false line.toList)
  if cs = [] then some []
  else assembleCmd (cs.takeWhile (· ≠ ' ')) (cs.dropWhile (· ≠ ' '))

end Sys2Proof.Machine
end

