-- ==== Sys2Proof/Safety.lean ====
section
/-! DEFINITION. What counts as a safe run, in the terms claims use. The block never stops of its own accord and has no
halted state (70_reset_and_hazards.md R196), so a safe run is one that always has a next step and stays inside the
states of 10_state.md R26. -/

namespace Sys2Proof.Machine

/-- The outcome is a next state that the spec allows at a command boundary. -/
def Goes (r : Result) : Prop := ∃ t, r = .next t ∧ t.legal = true

/-- Every number of steps from `s` is safe. -/
def SafeFrom (s : State) : Prop := ∀ k, Goes (Sys2Proof.core.run k s)

/-- No unit is in `FAULT` and no illegal word has been seen: the three level outputs are low (20_memory.md R48). -/
def State.quiet (s : State) : Prop := s.encFault = false ∧ s.decFault = false ∧ s.sysIll = false

/-- The registers of the three groups are those of reset (R191). -/
def State.atReset (s : State) : Prop := s.sys = .reset ∧ s.enc = .reset ∧ s.dec = .reset

/-! ## The unit state machines (60_exceptions.md R180)

The tables as the rule writes them, each row not listed leaving the state unchanged. -/

/-- The encoder's table. -/
def encTransition (i : Instr) (u : Enc) : UnitState :=
  match i, u.ctl.state with
  | .encCfg _ _, .idle => .idle
  | .encStart, .idle => if geomOk u.rows.toNat u.cols.toNat then .active else .fault
  | .encByte _, .idle => .fault
  | .encEnd, .idle => .fault
  | .encByte _, .active => .active
  | .encEnd, .active => .idle
  | .encCfg _ _, .active => .fault
  | .encStart, .active => .fault
  | .encAbort, _ => .idle
  | .sysReset, _ => .idle
  | _, st => st

/-- The decoder's table. -/
def decTransition (i : Instr) (u : Dec) : UnitState :=
  match i, u.ctl.state with
  | .decCfg _, .idle => .idle
  | .decStart, .idle => .active
  | .decRaster _ _, .idle => .fault
  | .decPix _, .idle => .fault
  | .decEnd, .idle => .fault
  | .decRaster rows cols, .active =>
    if u.rem = 0#24 then
      if u.haveShape = true ∧ (rows ≠ u.rows ∨ cols ≠ u.cols) then .fault else .active
    else .fault
  | .decPix v, .active =>
    if u.rem = 0#24 then .fault
    else if v ≠ 0x00#8 ∧ v ≠ 0xFF#8 then .fault
    else if v = 0x00#8 ∧ u.bc = 7#3 ∧ u.sr <<< 1 = 0x00#8 ∧ u.mode = .trailing ∧ u.zrun = Config.zrunMax then .fault
    else .active
  | .decEnd, .active => if u.rem = 0#24 then .idle else .fault
  | .decCfg _, .active => .fault
  | .decStart, .active => .fault
  | .decAbort, _ => .idle
  | .sysReset, _ => .idle
  | _, st => st

/-! ## The two families of unit commands -/

/-- The commands of the encoder (opcode group 1; 30_encoding.md R61). -/
def forEnc (i : Instr) : Bool :=
  match i with
  | .encCfg _ _ | .encStart | .encByte _ | .encEnd | .encAbort => true
  | .nop | .sysReset | .rdsr _ => false
  | .decCfg _ | .decStart | .decRaster _ _ | .decPix _ | .decEnd | .decAbort => false

/-- The commands of the decoder (opcode group 2). -/
def forDec (i : Instr) : Bool :=
  match i with
  | .decCfg _ | .decStart | .decRaster _ _ | .decPix _ | .decEnd | .decAbort => true
  | .nop | .sysReset | .rdsr _ => false
  | .encCfg _ _ | .encStart | .encByte _ | .encEnd | .encAbort => false

end Sys2Proof.Machine
end

