-- ==== Sys2Proof/Certificates/Slice0/Obligations.lean ====
section
/-! DEFINITION. The statements for the provers, family by family. Where a statement speaks of fault entry it writes
`s.raiseEnc e` or `s.raiseDec e`; what these are is itself a statement (`FaultEntryWritesErrAndStateOnly`). -/

open Sys2Proof Sys2Proof.Machine

/-! ## Encoding (spec/30_encoding.md) -/

/-- R67, R68, R71: decoding the word of a well-formed command gives the command back, at every operand value. -/
def Obligations.DecodeOfEncode : Prop :=
  ∀ i : Instr, i.wellFormed = true → decode (encode i) = .ok i

/-- R68, R70: a word that decodes is the word of exactly the command it decodes to, and that command is well formed. -/
def Obligations.EncodeOfDecode : Prop :=
  ∀ (w : Word) (i : Instr), decode w = .ok i → i.wellFormed = true ∧ encode i = w

/-- R67: a word is a command of a row exactly when it matches the row under its mask and, for `RDSR`, `idx <= 8`; no
word matches two rows. -/
def Obligations.DecodeAgreesWithOpcodeTable : Prop :=
  (∀ (w : Word) (row : OpcodeRow),
    (∃ i, decode w = .ok i ∧ i.row = row) ↔
      (row ∈ opcodeTable ∧ w &&& row.mask = row.pattern ∧ (row.mnemonic = "RDSR" → (w.extractLsb' 0 4).toNat ≤ 8))) ∧
  (∀ (w : Word) (r q : OpcodeRow), r ∈ opcodeTable → q ∈ opcodeTable → w &&& r.mask = r.pattern →
    w &&& q.mask = q.pattern → r = q)

/-- R69: the illegal words are those of its cases (a) to (e), and an illegal word sets `SYS.ILL` and nothing else. -/
def Obligations.IllegalWordsSetIllOnly : Prop :=
  (∀ w : Word, (∃ e, decode w = .error e) ↔
    (-- (a) an unassigned op
     ((0x03 ≤ (w.extractLsb' 24 8).toNat ∧ (w.extractLsb' 24 8).toNat ≤ 0x0F) ∨
      (0x15 ≤ (w.extractLsb' 24 8).toNat ∧ (w.extractLsb' 24 8).toNat ≤ 0x1F) ∨
      (0x26 ≤ (w.extractLsb' 24 8).toNat ∧ (w.extractLsb' 24 8).toNat ≤ 0x2F) ∨
      (0x30 ≤ (w.extractLsb' 24 8).toNat)) ∨
     -- (b) format Z with any of bits 23:0 set
     (w.extractLsb' 24 8 ∈ [0x00#8, 0x01#8, 0x11#8, 0x13#8, 0x14#8, 0x21#8, 0x24#8, 0x25#8] ∧
       w.extractLsb' 0 24 ≠ 0#24) ∨
     -- (c) format B with any of bits 23:8 set
     (w.extractLsb' 24 8 ∈ [0x12#8, 0x23#8] ∧ w.extractLsb' 8 16 ≠ 0#16) ∨
     -- (d) RDSR with any of bits 23:4 set or idx 9 to 15
     (w.extractLsb' 24 8 = 0x02#8 ∧ (w.extractLsb' 4 20 ≠ 0#20 ∨ 9 ≤ (w.extractLsb' 0 4).toNat)) ∨
     -- (e) DEC_CFG with any of bits 23:1 set
     (w.extractLsb' 24 8 = 0x20#8 ∧ w.extractLsb' 1 23 ≠ 0#23))) ∧
  (∀ (s : State) (w : Word) (e : Illegal) (rest : List PortItem), s.legal = true → s.input = .word w :: rest →
    decode w = .error e → step s = .next { s with input := rest, sys := { ill := true } })

/-- R67, R72 and 95_test_vectors.md section 3.1: words written out from the encoding decode to their commands. -/
def Obligations.WrittenWordsDecode : Prop :=
  decode 0x00000000#32 = .ok .nop ∧ decode 0x01000000#32 = .ok .sysReset ∧ decode 0x02000008#32 = .ok (.rdsr 8) ∧
  decode 0x10004004#32 = .ok (.encCfg 4 4) ∧ decode 0x1000200C#32 = .ok (.encCfg 2 12) ∧
  decode 0x12000048#32 = .ok (.encByte 0x48) ∧ decode 0x20000001#32 = .ok (.decCfg .all) ∧
  decode 0x22000005#32 = .ok (.decRaster 0 5) ∧ decode 0x230000FF#32 = .ok (.decPix 0xFF) ∧
  decode 0x25000000#32 = .ok .decAbort ∧ decode 0x02000009#32 = .error (.reservedIndex 9) ∧
  decode 0x12000100#32 = .error (.mustBeZero 0x12) ∧ decode 0x26000000#32 = .error (.unassignedOp 0x26)

/-! ## Geometry and the pixel mapping (spec/00_scope.md) -/

/-- R7 (a), (b): the 24-bit product is exact, and whether it is a multiple of 8 shows in the low three bits. -/
def Obligations.GeometryProductIsExact : Prop :=
  ∀ rows cols : Dim,
    (area rows cols).toNat = rows.toNat * cols.toNat ∧
    rows.toNat * cols.toNat % 8 = (rows.extractLsb' 0 3).toNat * (cols.extractLsb' 0 3).toNat % 8

/-- R6: `pix` and `bit` are inverse to each other, and `bit` is defined on 0x00 and 0xFF only. -/
def Obligations.PixelMappingInverse : Prop :=
  pix false = 0x00#8 ∧ pix true = 0xFF#8 ∧ (∀ b, bit? (pix b) = some b) ∧
  ∀ v, (bit? v = none ↔ v ≠ 0x00#8 ∧ v ≠ 0xFF#8)

/-! ## The system commands (spec/40_system_commands.md) -/

/-- R81: `NOP` is accepted in every state and does nothing. -/
def Obligations.NopDoesNothing : Prop :=
  decode 0x00000000#32 = .ok .nop ∧ ∀ s : State, exec .nop s = .next s

/-- R82: `SYS_RESET` is accepted in every state, puts every field to its reset value, and leaves the traces. -/
def Obligations.SysResetResetsEveryField : Prop :=
  decode 0x01000000#32 = .ok .sysReset ∧
  ∀ s : State, exec .sysReset s = .next
    { s with
      sys := { ill := false }
      enc := { rows := 104#12, cols := 104#12, ctl := { state := .idle, err := .none }, row := 0#12, col := 0#12,
               ras := 0#32, sr := 0#8 }
      dec := { mode := .trailing, ctl := { state := .idle, err := .none }, rows := 0#12, cols := 0#12,
               haveShape := false, rem := 0#24, sr := 0#8, bc := 0#3, zrun := 0#32 } }

/-- R83: `RDSR idx` with `idx` 0 to 8 is accepted in every state and emits exactly one response, the status
register of that index, with no other effect; so a second read of the index gives the same value. An index 9 to 15, or
any of bits 23:4 set, is illegal at decode. -/
def Obligations.RdsrEmitsStatusRegister : Prop :=
  (∀ (idx : BitVec 4) (s : State), idx.toNat ≤ 8 →
    decode (0x02#8 ++ 0#20 ++ idx) = .ok (.rdsr idx) ∧
    ∃ v, statusReg idx s = some v ∧ exec (.rdsr idx) s = .next { s with rspOut := s.rspOut ++ [v] } ∧
      statusReg idx { s with rspOut := s.rspOut ++ [v] } = some v) ∧
  (∀ idx : BitVec 4, 9 ≤ idx.toNat → decode (0x02#8 ++ 0#20 ++ idx) = .error (.reservedIndex idx)) ∧
  (∀ (mid : BitVec 20) (idx : BitVec 4), mid ≠ 0#20 → decode (0x02#8 ++ mid ++ idx) = .error (.mustBeZero 0x02))

/-- R31 to R35: the layout of `x[0]` to `x[4]`, bit field by bit field, and their reset values. -/
def Obligations.EncoderStatusRegisterLayout : Prop :=
  (∀ s : State, ∃ x0 x1 x2 x3 x4,
    exec (.rdsr 0) s = .next { s with rspOut := s.rspOut ++ [x0] } ∧
    exec (.rdsr 1) s = .next { s with rspOut := s.rspOut ++ [x1] } ∧
    exec (.rdsr 2) s = .next { s with rspOut := s.rspOut ++ [x2] } ∧
    exec (.rdsr 3) s = .next { s with rspOut := s.rspOut ++ [x3] } ∧
    exec (.rdsr 4) s = .next { s with rspOut := s.rspOut ++ [x4] } ∧
    (x0.extractLsb' 0 1 = 1#1 ↔ s.sys.ill = true) ∧ x0.extractLsb' 1 31 = 0#31 ∧
    x1.extractLsb' 12 12 = s.enc.rows ∧ x1.extractLsb' 0 12 = s.enc.cols ∧ x1.extractLsb' 24 8 = 0#8 ∧
    x2.extractLsb' 0 2 = s.enc.ctl.state.code ∧ x2.extractLsb' 2 2 = 0#2 ∧ x2.extractLsb' 4 4 = s.enc.ctl.err.code ∧
    x2.extractLsb' 8 24 = 0#24 ∧
    x3.extractLsb' 12 12 = s.enc.row ∧ x3.extractLsb' 0 12 = s.enc.col ∧ x3.extractLsb' 24 8 = 0#8 ∧
    x4 = s.enc.ras) ∧
  [UnitState.idle.code, UnitState.active.code, UnitState.fault.code] = [0#2, 1#2, 2#2] ∧
  [ErrCode.none.code, ErrCode.config.code, ErrCode.shape.code, ErrCode.pixel.code, ErrCode.seq.code,
    ErrCode.overflow.code] = [0#4, 1#4, 2#4, 3#4, 4#4, 5#4] ∧
  statusReg 0 .reset = some 0x00000000#32 ∧ statusReg 1 .reset = some 0x00068068#32 ∧
  statusReg 2 .reset = some 0x00000000#32 ∧ statusReg 3 .reset = some 0x00000000#32 ∧
  statusReg 4 .reset = some 0x00000000#32

/-- R36 to R39: the layout of `x[5]` to `x[8]`, bit field by bit field, and their reset values. -/
def Obligations.DecoderStatusRegisterLayout : Prop :=
  (∀ s : State, ∃ x5 x6 x7 x8,
    exec (.rdsr 5) s = .next { s with rspOut := s.rspOut ++ [x5] } ∧
    exec (.rdsr 6) s = .next { s with rspOut := s.rspOut ++ [x6] } ∧
    exec (.rdsr 7) s = .next { s with rspOut := s.rspOut ++ [x7] } ∧
    exec (.rdsr 8) s = .next { s with rspOut := s.rspOut ++ [x8] } ∧
    (x5.extractLsb' 24 1 = 1#1 ↔ s.dec.haveShape = true) ∧ x5.extractLsb' 12 12 = s.dec.rows ∧
    x5.extractLsb' 0 12 = s.dec.cols ∧ x5.extractLsb' 25 7 = 0#7 ∧
    x6.extractLsb' 0 2 = s.dec.ctl.state.code ∧ (x6.extractLsb' 2 1 = 1#1 ↔ s.dec.mode = .all) ∧
    x6.extractLsb' 3 1 = 0#1 ∧ x6.extractLsb' 4 4 = s.dec.ctl.err.code ∧ x6.extractLsb' 8 8 = s.dec.sr ∧
    x6.extractLsb' 16 3 = s.dec.bc ∧ x6.extractLsb' 19 13 = 0#13 ∧
    x7.extractLsb' 0 24 = s.dec.rem ∧ x7.extractLsb' 24 8 = 0#8 ∧
    x8 = s.dec.zrun) ∧
  statusReg 5 .reset = some 0x00000000#32 ∧ statusReg 6 .reset = some 0x00000000#32 ∧
  statusReg 7 .reset = some 0x00000000#32 ∧ statusReg 8 .reset = some 0x00000000#32

/-! ## The encoder's commands (spec/41_encoder_commands.md) -/

/-- R91: `ENC_CFG rows, cols` in `IDLE` stores the geometry as given and does nothing else; in `ACTIVE` it raises
`ERR_SEQ`; in `FAULT` it is ignored. -/
def Obligations.EncCfgStoresGeometry : Prop :=
  ∀ (rows cols : Dim) (s : State),
    decode (0x10#8 ++ rows ++ cols) = .ok (.encCfg rows cols) ∧
    (s.enc.ctl.state = .idle →
      exec (.encCfg rows cols) s = .next { s with enc := { s.enc with rows := rows, cols := cols } }) ∧
    (s.enc.ctl.state = .active → exec (.encCfg rows cols) s = .next (s.raiseEnc .seq)) ∧
    (s.enc.ctl.state = .fault → exec (.encCfg rows cols) s = .next s)

/-- R92: `ENC_START` in `IDLE` opens a transaction when the geometry is legal and raises `ERR_CONFIG` when it is not;
in `ACTIVE` it raises `ERR_SEQ`; in `FAULT` it is ignored. -/
def Obligations.EncStartOpensOrRefuses : Prop :=
  decode 0x11000000#32 = .ok .encStart ∧
  ∀ s : State,
    (s.enc.ctl.state = .idle → s.enc.rows ≠ 0#12 → s.enc.cols ≠ 0#12 →
      s.enc.rows.toNat * s.enc.cols.toNat % 8 = 0 →
      exec .encStart s = .next
        { s with enc := { s.enc with row := 0#12, col := 0#12, ras := 0#32, sr := 0#8,
                                     ctl := { s.enc.ctl with state := .active } } }) ∧
    (s.enc.ctl.state = .idle →
      (s.enc.rows = 0#12 ∨ s.enc.cols = 0#12 ∨ s.enc.rows.toNat * s.enc.cols.toNat % 8 ≠ 0) →
      exec .encStart s = .next (s.raiseEnc .config)) ∧
    (s.enc.ctl.state = .active → exec .encStart s = .next (s.raiseEnc .seq)) ∧
    (s.enc.ctl.state = .fault → exec .encStart s = .next s)

/-- R94, R93, R43: `ENC_BYTE imm8` in `ACTIVE` emits exactly eight pixels, bit 7 first, at eight consecutive row-major
positions of one raster, moves the position by eight, and completes the raster when the eighth pixel is its last; in
`IDLE` it raises `ERR_SEQ`; in `FAULT` it is ignored. `legal` is the invariant of R26. -/
def Obligations.EncByteEmitsEightPixels : Prop :=
  ∀ (imm8 : Byte) (s : State),
    decode (0x12#8 ++ 0#16 ++ imm8) = .ok (.encByte imm8) ∧
    (s.legal = true → s.enc.ctl.state = .active →
      s.enc.pos + 8 ≤ s.enc.capacity ∧
      exec (.encByte imm8) s = .next
        { s with
          enc := { s.enc with
            row := BitVec.ofNat 12 ((s.enc.pos + 8) % s.enc.capacity / s.enc.cols.toNat)
            col := BitVec.ofNat 12 ((s.enc.pos + 8) % s.enc.capacity % s.enc.cols.toNat)
            ras := if s.enc.pos + 8 = s.enc.capacity then s.enc.ras + 1#32 else s.enc.ras
            sr := 0#8 }
          pixOut := s.pixOut ++ (List.range 8).map fun j =>
            { val := if imm8.getLsbD (7 - j) then 0xFF#8 else 0x00#8
              ras := s.enc.ras
              row := BitVec.ofNat 12 ((s.enc.pos + j) / s.enc.cols.toNat)
              col := BitVec.ofNat 12 ((s.enc.pos + j) % s.enc.cols.toNat)
              eor := s.enc.pos + j + 1 == s.enc.capacity } }) ∧
    (s.enc.ctl.state = .idle → exec (.encByte imm8) s = .next (s.raiseEnc .seq)) ∧
    (s.enc.ctl.state = .fault → exec (.encByte imm8) s = .next s)

/-- R95: `ENC_END` in `ACTIVE` emits `C - POS` pixels of value 0x00 (none where the position is (0, 0)), the last with
`eor` 1, a whole number of bytes' worth, and closes the transaction; in `IDLE` it raises `ERR_SEQ`; in `FAULT` it is
ignored. `legal` is the invariant of R26. -/
def Obligations.EncEndPadsTheRaster : Prop :=
  decode 0x13000000#32 = .ok .encEnd ∧
  ∀ s : State,
    (s.legal = true → s.enc.ctl.state = .active → s.enc.pos = 0 →
      exec .encEnd s = .next { s with enc := { s.enc with ctl := { s.enc.ctl with state := .idle } } }) ∧
    (s.legal = true → s.enc.ctl.state = .active → s.enc.pos ≠ 0 →
      8 ≤ s.enc.capacity - s.enc.pos ∧ s.enc.capacity - s.enc.pos ≤ s.enc.capacity - 8 ∧
      (s.enc.capacity - s.enc.pos) % 8 = 0 ∧
      exec .encEnd s = .next
        { s with
          enc := { s.enc with row := 0#12, col := 0#12, ras := s.enc.ras + 1#32,
                              ctl := { s.enc.ctl with state := .idle } }
          pixOut := s.pixOut ++ (List.range (s.enc.capacity - s.enc.pos)).map fun j =>
            { val := 0x00#8
              ras := s.enc.ras
              row := BitVec.ofNat 12 ((s.enc.pos + j) / s.enc.cols.toNat)
              col := BitVec.ofNat 12 ((s.enc.pos + j) % s.enc.cols.toNat)
              eor := s.enc.pos + j + 1 == s.enc.capacity } }) ∧
    (s.enc.ctl.state = .idle → exec .encEnd s = .next (s.raiseEnc .seq)) ∧
    (s.enc.ctl.state = .fault → exec .encEnd s = .next s)

/-- R96: `ENC_ABORT` is accepted in every state, clears the error and the transaction registers, keeps the geometry,
and touches nothing else. -/
def Obligations.EncAbortClearsTransaction : Prop :=
  decode 0x14000000#32 = .ok .encAbort ∧
  ∀ s : State, exec .encAbort s = .next
    { s with enc := { s.enc with ctl := { state := .idle, err := .none }, row := 0#12, col := 0#12, ras := 0#32,
                                 sr := 0#8 } }

/-! ## The decoder's commands (spec/42_decoder_commands.md) -/

/-- R111: `DEC_CFG mode` in `IDLE` sets the mode and does nothing else; in `ACTIVE` it raises `ERR_SEQ`; in `FAULT` it
is ignored. The operand bit is 0 for `TRAILING`, 1 for `ALL`. -/
def Obligations.DecCfgSetsMode : Prop :=
  decode 0x20000000#32 = .ok (.decCfg .trailing) ∧ decode 0x20000001#32 = .ok (.decCfg .all) ∧
  ∀ (mode : StripMode) (s : State),
    (s.dec.ctl.state = .idle → exec (.decCfg mode) s = .next { s with dec := { s.dec with mode := mode } }) ∧
    (s.dec.ctl.state = .active → exec (.decCfg mode) s = .next (s.raiseDec .seq)) ∧
    (s.dec.ctl.state = .fault → exec (.decCfg mode) s = .next s)

/-- R112: `DEC_START` in `IDLE` clears every transaction register and opens a transaction, with no geometry check; in
`ACTIVE` it raises `ERR_SEQ`; in `FAULT` it is ignored. -/
def Obligations.DecStartOpens : Prop :=
  decode 0x21000000#32 = .ok .decStart ∧
  ∀ s : State,
    (s.dec.ctl.state = .idle →
      exec .decStart s = .next
        { s with dec := { s.dec with rows := 0#12, cols := 0#12, haveShape := false, rem := 0#24, sr := 0#8,
                                     bc := 0#3, zrun := 0#32, ctl := { s.dec.ctl with state := .active } } }) ∧
    (s.dec.ctl.state = .active → exec .decStart s = .next (s.raiseDec .seq)) ∧
    (s.dec.ctl.state = .fault → exec .decStart s = .next s)

/-- R113: `DEC_RASTER rows, cols` in `ACTIVE` with no pixel owed: the first of a transaction latches its shape, a later
one must have that shape (else `ERR_SHAPE`, rows compared with rows and cols with cols), and the pixel count is loaded;
any shape is accepted, the open group and the held zeros are not touched. Elsewhere it raises `ERR_SEQ`, and in
`FAULT` it is ignored. -/
def Obligations.DecRasterLatchesShape : Prop :=
  ∀ (rows cols : Dim) (s : State),
    decode (0x22#8 ++ rows ++ cols) = .ok (.decRaster rows cols) ∧
    (∃ c : PixCount, c.toNat = rows.toNat * cols.toNat ∧
      (s.dec.ctl.state = .active → s.dec.rem = 0#24 → s.dec.haveShape = false →
        exec (.decRaster rows cols) s = .next
          { s with dec := { s.dec with rows := rows, cols := cols, haveShape := true, rem := c } }) ∧
      (s.dec.ctl.state = .active → s.dec.rem = 0#24 → s.dec.haveShape = true → rows = s.dec.rows → cols = s.dec.cols →
        exec (.decRaster rows cols) s = .next { s with dec := { s.dec with rem := c } })) ∧
    (s.dec.ctl.state = .active → s.dec.rem = 0#24 → s.dec.haveShape = true → (rows ≠ s.dec.rows ∨ cols ≠ s.dec.cols) →
      exec (.decRaster rows cols) s = .next (s.raiseDec .shape)) ∧
    (s.dec.ctl.state = .active → s.dec.rem ≠ 0#24 → exec (.decRaster rows cols) s = .next (s.raiseDec .seq)) ∧
    (s.dec.ctl.state = .idle → exec (.decRaster rows cols) s = .next (s.raiseDec .seq)) ∧
    (s.dec.ctl.state = .fault → exec (.decRaster rows cols) s = .next s)

/-- R114, R115, R121, R122: `DEC_PIX imm8` in `ACTIVE` with a pixel owed. A value other than 0x00 and 0xFF raises
`ERR_PIXEL`. Else its bit `b` joins the group as `nsr`; while the group is incomplete nothing is emitted; a complete
group is delivered: a non-zero byte after the held zeros, a zero byte held in `TRAILING` (or `ERR_OVERFLOW` at the
counter's limit, with nothing else changed) and dropped in `ALL`. -/
def Obligations.DecPixTakesOnePixel : Prop :=
  ∀ (imm8 : Byte) (s : State),
    decode (0x23#8 ++ 0#16 ++ imm8) = .ok (.decPix imm8) ∧
    (s.dec.ctl.state = .active → s.dec.rem ≠ 0#24 → imm8 ≠ 0x00#8 → imm8 ≠ 0xFF#8 →
      exec (.decPix imm8) s = .next (s.raiseDec .pixel)) ∧
    (∀ nsr : Byte,
      ((imm8 = 0x00#8 ∧ nsr = s.dec.sr <<< 1) ∨ (imm8 = 0xFF#8 ∧ nsr = s.dec.sr <<< 1 ||| 1#8)) →
      s.dec.ctl.state = .active → s.dec.rem ≠ 0#24 →
      (s.dec.bc ≠ 7#3 →
        exec (.decPix imm8) s = .next
          { s with dec := { s.dec with rem := s.dec.rem - 1#24, sr := nsr, bc := s.dec.bc + 1#3 } }) ∧
      (s.dec.bc = 7#3 → nsr ≠ 0x00#8 →
        exec (.decPix imm8) s = .next
          { s with
            dec := { s.dec with rem := s.dec.rem - 1#24, sr := 0#8, bc := 0#3, zrun := 0#32 }
            byteOut := s.byteOut ++ (List.replicate s.dec.zrun.toNat 0x00#8 ++ [nsr]) }) ∧
      (s.dec.bc = 7#3 → nsr = 0x00#8 → s.dec.mode = .trailing → s.dec.zrun ≠ 0xFFFFFFFF#32 →
        exec (.decPix imm8) s = .next
          { s with dec := { s.dec with rem := s.dec.rem - 1#24, sr := 0#8, bc := 0#3, zrun := s.dec.zrun + 1#32 } }) ∧
      (s.dec.bc = 7#3 → nsr = 0x00#8 → s.dec.mode = .trailing → s.dec.zrun = 0xFFFFFFFF#32 →
        exec (.decPix imm8) s = .next (s.raiseDec .overflow)) ∧
      (s.dec.bc = 7#3 → nsr = 0x00#8 → s.dec.mode = .all →
        exec (.decPix imm8) s = .next
          { s with dec := { s.dec with rem := s.dec.rem - 1#24, sr := 0#8, bc := 0#3 } })) ∧
    (s.dec.ctl.state = .active → s.dec.rem = 0#24 → exec (.decPix imm8) s = .next (s.raiseDec .seq)) ∧
    (s.dec.ctl.state = .idle → exec (.decPix imm8) s = .next (s.raiseDec .seq)) ∧
    (s.dec.ctl.state = .fault → exec (.decPix imm8) s = .next s)

/-- R116: `DEC_END` in `ACTIVE` with no pixel owed drops the partial group and the held zeros, emits nothing, keeps the
latched shape and closes the transaction; elsewhere it raises `ERR_SEQ`, and in `FAULT` it is ignored. -/
def Obligations.DecEndDropsAndCloses : Prop :=
  decode 0x24000000#32 = .ok .decEnd ∧
  ∀ s : State,
    (s.dec.ctl.state = .active → s.dec.rem = 0#24 →
      exec .decEnd s = .next
        { s with dec := { s.dec with sr := 0#8, bc := 0#3, zrun := 0#32, ctl := { s.dec.ctl with state := .idle } } }) ∧
    (s.dec.ctl.state = .active → s.dec.rem ≠ 0#24 → exec .decEnd s = .next (s.raiseDec .seq)) ∧
    (s.dec.ctl.state = .idle → exec .decEnd s = .next (s.raiseDec .seq)) ∧
    (s.dec.ctl.state = .fault → exec .decEnd s = .next s)

/-- R117: `DEC_ABORT` is accepted in every state, clears the error and the transaction registers, keeps the mode, emits
nothing and touches nothing else. -/
def Obligations.DecAbortClearsTransaction : Prop :=
  decode 0x25000000#32 = .ok .decAbort ∧
  ∀ s : State, exec .decAbort s = .next
    { s with dec := { s.dec with ctl := { state := .idle, err := .none }, rows := 0#12, cols := 0#12,
                                 haveShape := false, rem := 0#24, sr := 0#8, bc := 0#3, zrun := 0#32 } }

/-! ## Faults (spec/60_exceptions.md) -/

/-- R163: fault entry keeps a code already held, sets `FAULT`, and writes nothing else; a unit command that takes its
unit into `FAULT` leaves every field but that unit's `ERR` and `STATE` as it was and emits nothing; and in a state that
R26 allows (`legal`) the unit held no code before. -/
def Obligations.FaultEntryWritesErrAndStateOnly : Prop :=
  (∀ (e : ErrCode) (s : State),
    s.raiseEnc e = { s with enc := { s.enc with ctl :=
      { state := .fault, err := if s.enc.ctl.err = .none then e else s.enc.ctl.err } } } ∧
    s.raiseDec e = { s with dec := { s.dec with ctl :=
      { state := .fault, err := if s.dec.ctl.err = .none then e else s.dec.ctl.err } } }) ∧
  (∀ (i : Instr) (s t : State), exec i s = .next t →
    (s.enc.ctl.state ≠ .fault → t.enc.ctl.state = .fault → ∃ e, e ≠ .none ∧ t = s.raiseEnc e) ∧
    (s.dec.ctl.state ≠ .fault → t.dec.ctl.state = .fault → ∃ e, e ≠ .none ∧ t = s.raiseDec e)) ∧
  (∀ (i : Instr) (s t : State), s.legal = true → exec i s = .next t →
    (s.enc.ctl.state ≠ .fault → t.enc.ctl.state = .fault → s.enc.ctl.err = .none) ∧
    (s.dec.ctl.state ≠ .fault → t.dec.ctl.state = .fault → s.dec.ctl.err = .none))

/-- R164 to R166, R168: each of these errors is raised by its one command under its one condition and by nothing
else. -/
def Obligations.EachErrorHasItsOneCause : Prop :=
  ∀ (i : Instr) (s t : State), exec i s = .next t →
    (s.enc.ctl.err ≠ .config → t.enc.ctl.err = .config →
      i = .encStart ∧
        (s.enc.rows = 0#12 ∨ s.enc.cols = 0#12 ∨ s.enc.rows.toNat * s.enc.cols.toNat % 8 ≠ 0)) ∧
    (s.dec.ctl.err ≠ .config → t.dec.ctl.err ≠ .config) ∧
    (s.dec.ctl.err ≠ .shape → t.dec.ctl.err = .shape →
      ∃ rows cols, i = .decRaster rows cols ∧ s.dec.haveShape = true ∧ (rows ≠ s.dec.rows ∨ cols ≠ s.dec.cols)) ∧
    (s.dec.ctl.err ≠ .pixel → t.dec.ctl.err = .pixel → ∃ v, i = .decPix v ∧ v ≠ 0x00#8 ∧ v ≠ 0xFF#8) ∧
    (s.dec.ctl.err ≠ .overflow → t.dec.ctl.err = .overflow →
      i = .decPix 0x00#8 ∧ s.dec.bc = 7#3 ∧ s.dec.sr <<< 1 = 0x00#8 ∧ s.dec.mode = .trailing ∧
        s.dec.zrun = 0xFFFFFFFF#32)

/-- R167: a unit command on a unit not in `FAULT` raises `ERR_SEQ` exactly where the table says `SEQ`. `legal` is the
invariant of R26. -/
def Obligations.SequenceErrorTable : Prop :=
  ∀ (i : Instr) (s t : State), s.legal = true → exec i s = .next t →
    (s.enc.ctl.state ≠ .fault →
      (t.enc.ctl.err = .seq ↔
        (s.enc.ctl.state = .idle ∧ ((∃ b, i = .encByte b) ∨ i = .encEnd)) ∨
        (s.enc.ctl.state = .active ∧ ((∃ r c, i = .encCfg r c) ∨ i = .encStart)))) ∧
    (s.dec.ctl.state ≠ .fault →
      (t.dec.ctl.err = .seq ↔
        (s.dec.ctl.state = .idle ∧ ((∃ r c, i = .decRaster r c) ∨ (∃ v, i = .decPix v) ∨ i = .decEnd)) ∨
        (s.dec.ctl.state = .active ∧
          ((∃ m, i = .decCfg m) ∨ i = .decStart ∨ ((∃ r c, i = .decRaster r c) ∧ s.dec.rem ≠ 0#24) ∨
            ((∃ v, i = .decPix v) ∧ s.dec.rem = 0#24) ∨ (i = .decEnd ∧ s.dec.rem ≠ 0#24)))))

/-- R172: in `FAULT` a unit ignores every command addressed to it but its abort; of the commands, only the unit's abort
and `SYS_RESET` take it out. -/
def Obligations.FaultedUnitIgnoresCommands : Prop :=
  (∀ (i : Instr) (s : State), s.enc.ctl.state = .fault → forEnc i = true → i ≠ .encAbort → exec i s = .next s) ∧
  (∀ (i : Instr) (s : State), s.dec.ctl.state = .fault → forDec i = true → i ≠ .decAbort → exec i s = .next s) ∧
  (∀ (i : Instr) (s t : State), exec i s = .next t → s.enc.ctl.state = .fault → t.enc.ctl.state ≠ .fault →
    i = .encAbort ∨ i = .sysReset) ∧
  (∀ (i : Instr) (s t : State), exec i s = .next t → s.dec.ctl.state = .fault → t.dec.ctl.state ≠ .fault →
    i = .decAbort ∨ i = .sysReset)

/-- R180: the two state machines make exactly the transitions of the rule's two tables. -/
def Obligations.UnitStateMachines : Prop :=
  ∀ (i : Instr) (s t : State), exec i s = .next t →
    t.enc.ctl.state = encTransition i s.enc ∧ t.dec.ctl.state = decTransition i s.dec

/-- R48: the level outputs are functions of the state, high exactly for the units' `FAULT` and for `SYS.ILL`. -/
def Obligations.LevelOutputsShowState : Prop :=
  ∀ s : State, (s.encFault = true ↔ s.enc.ctl.state = .fault) ∧ (s.decFault = true ↔ s.dec.ctl.state = .fault) ∧
    (s.sysIll = true ↔ s.sys.ill = true)

/-! ## The machine as a whole -/

/-- R26: the invariant `legal` says exactly I-1 to I-11, with the codes of R15 and R21; I-9 stands without its proviso
(notes/assumptions/9.md). -/
def Obligations.LegalSaysTheInvariants : Prop :=
  ∀ s : State, s.legal = true ↔
    (s.enc.sr = 0#8 ∧
     (s.enc.ctl.state = .fault ↔ s.enc.ctl.err ≠ .none) ∧ (s.dec.ctl.state = .fault ↔ s.dec.ctl.err ≠ .none) ∧
     (s.enc.ctl.err = .none ∨ s.enc.ctl.err = .config ∨ s.enc.ctl.err = .seq) ∧ s.dec.ctl.err ≠ .config ∧
     (s.enc.ctl.state = .active →
       1 ≤ s.enc.rows.toNat ∧ 1 ≤ s.enc.cols.toNat ∧ s.enc.rows.toNat * s.enc.cols.toNat % 8 = 0 ∧
       s.enc.row.toNat < s.enc.rows.toNat ∧ s.enc.col.toNat < s.enc.cols.toNat ∧
       (s.enc.row.toNat * s.enc.cols.toNat + s.enc.col.toNat) % 8 = 0) ∧
     (s.enc.ctl.state = .idle → s.enc.row = 0#12 ∧ s.enc.col = 0#12) ∧
     (s.dec.ctl.state = .idle → s.dec.rem = 0#24 ∧ s.dec.sr = 0#8 ∧ s.dec.bc = 0#3 ∧ s.dec.zrun = 0#32) ∧
     s.dec.sr.toNat < 2 ^ s.dec.bc.toNat ∧
     (s.dec.mode = .all → s.dec.zrun = 0#32) ∧
     (s.dec.haveShape = true → s.dec.rem.toNat ≤ s.dec.rows.toNat * s.dec.cols.toNat) ∧
     (s.dec.haveShape = false → s.dec.rows = 0#12 ∧ s.dec.cols = 0#12 ∧ s.dec.rem = 0#24))

/-- R191: the value of every field right after reset, the status registers that show them, and the level outputs, all
low. -/
def Obligations.ResetLeavesTheseValues : Prop :=
  State.reset.sys.ill = false ∧
  (State.reset.enc.rows = 104#12 ∧ State.reset.enc.cols = 104#12 ∧ State.reset.enc.ctl.state = .idle ∧
    State.reset.enc.ctl.err = .none ∧ State.reset.enc.row = 0#12 ∧ State.reset.enc.col = 0#12 ∧
    State.reset.enc.ras = 0#32 ∧ State.reset.enc.sr = 0#8) ∧
  (State.reset.dec.mode = .trailing ∧ State.reset.dec.ctl.state = .idle ∧ State.reset.dec.ctl.err = .none ∧
    State.reset.dec.rows = 0#12 ∧ State.reset.dec.cols = 0#12 ∧ State.reset.dec.haveShape = false ∧
    State.reset.dec.rem = 0#24 ∧ State.reset.dec.sr = 0#8 ∧ State.reset.dec.bc = 0#3 ∧ State.reset.dec.zrun = 0#32) ∧
  [0#4, 1#4, 2#4, 3#4, 4#4, 5#4, 6#4, 7#4, 8#4].map (fun idx => statusReg idx .reset) =
    [some 0#32, some 0x00068068#32, some 0#32, some 0#32, some 0#32, some 0#32, some 0#32, some 0#32, some 0#32] ∧
  State.reset.encFault = false ∧ State.reset.decFault = false ∧ State.reset.sysIll = false

/-- The invariant holds at reset (R26, R191). -/
def Obligations.ResetIsLegal : Prop := State.reset.legal = true

/-- R26: every step keeps the invariant, from every state that has it. -/
def Obligations.StepKeepsLegal : Prop :=
  ∀ s t : State, s.legal = true → Sys2Proof.Machine.step s = .next t → t.legal = true

/-- R196, R179, R26: from every state the invariant allows, whatever is presented, the block has a next step, and it
keeps having one for ever: no fault and no refusal stops the machine. R196 says the block never stops of its own accord;
that a step with nothing presented, so every step past the end of the finite input, answers a next state is the model's
choice (notes/assumptions/3.md), and that no command waits for its consumer rests on the host's duty to drain the ports
(R203; notes/assumptions/10.md). -/
def Obligations.BlockNeverStops : Prop :=
  ∀ s : State, s.legal = true → SafeFrom s

/-- R80 step 1: the next word presented is taken, decoded, and the command it stands for is executed. -/
def Obligations.StepRunsDecodedCommand : Prop :=
  ∀ (s : State) (w : Word) (rest : List PortItem) (i : Instr), s.legal = true → s.input = .word w :: rest →
    decode w = .ok i → step s = exec i { s with input := rest }

/-- R190 to R193: the hardware reset between two commands does what `SYS_RESET` does: every register to its reset
value, nothing emitted, what was emitted kept. -/
def Obligations.HardwareResetEqualsSysReset : Prop :=
  ∀ (s : State) (rest : List PortItem), s.legal = true → s.input = .rst :: rest →
    step s = .next { s with input := rest, sys := .reset, enc := .reset, dec := .reset } ∧
    step s = exec .sysReset { s with input := rest }

/-- R190: the hardware reset during a command leaves the registers at their reset values and the events the command had
already emitted. The model reads these as the first `n` of those it emits when it is not cut, `n` any number
(notes/assumptions/4.md, DEDUCED). -/
def Obligations.ResetDuringCommandKeepsEmitted : Prop :=
  ∀ (s : State) (w : Word) (n : Nat) (rest : List PortItem), s.legal = true → s.input = .rstDuring w n :: rest →
    ∃ t whole ps bs rs, step s = .next t ∧ acceptWord w { s with input := rest } = .next whole ∧
      t.atReset ∧ t.input = rest ∧
      whole.pixOut = s.pixOut ++ ps ∧ t.pixOut = s.pixOut ++ ps.take n ∧
      whole.byteOut = s.byteOut ++ bs ∧ t.byteOut = s.byteOut ++ bs.take n ∧
      whole.rspOut = s.rspOut ++ rs ∧ t.rspOut = s.rspOut ++ rs.take n

/-- THE MODEL'S CHOICE, not a rule (notes/assumptions/3.md): with nothing presented a step changes nothing. It rests on
R196 ("it waits for the next word for ever"). -/
def Obligations.IdlePortWaits : Prop :=
  ∀ s : State, s.legal = true → s.input = [] → step s = .next s

/-- THE MODEL'S CHOICE of outcome (notes/assumptions/6.md), after 93_implementation_defined.md U8: a step from a state
that R26 excludes is refused under its own name. -/
def Obligations.ExcludedStateIsStuck : Prop :=
  ∀ s : State, s.legal = false → step s = .refused .excludedState

/-- R12: `SYS.ILL` is set by illegal words and by nothing else, cleared by reset and by nothing else, and changes nothing
about the execution of commands. -/
def Obligations.IllIsStickyRecord : Prop :=
  (∀ s t : State, step s = .next t → s.sys.ill = false → t.sys.ill = true →
    ∃ w rest e, s.input = .word w :: rest ∧ decode w = .error e) ∧
  (∀ s t : State, step s = .next t → s.sys.ill = true → t.sys.ill = false →
    ∃ item rest, s.input = item :: rest ∧
      (item = .rst ∨ (∃ w n, item = .rstDuring w n) ∨ ∃ w, item = .word w ∧ decode w = .ok .sysReset)) ∧
  (∀ (i : Instr) (s t : State), i.wellFormed = true → exec i s = .next t → ∀ y : Sys,
    ∃ u, exec i { s with sys := y } = .next u ∧ u.enc = t.enc ∧ u.dec = t.dec ∧ u.pixOut = t.pixOut ∧
      u.byteOut = t.byteOut ∧ u.input = t.input)

/-- R90, R28: an encoder command changes the encoder group and `PIX_OUT` only, emits only if it is `ENC_BYTE` or
`ENC_END`, and what it does depends on the encoder group only. -/
def Obligations.EncoderCommandsStayInEncoder : Prop :=
  ∀ (i : Instr), forEnc i = true → ∀ s t : State, exec i s = .next t →
    (t.sys = s.sys ∧ t.dec = s.dec ∧ t.byteOut = s.byteOut ∧ t.rspOut = s.rspOut ∧ t.input = s.input) ∧
    ((∀ b, i ≠ .encByte b) → i ≠ .encEnd → t.pixOut = s.pixOut) ∧
    ∃ evs, t.pixOut = s.pixOut ++ evs ∧
      ∀ s' : State, s'.enc = s.enc → exec i s' = .next { s' with enc := t.enc, pixOut := s'.pixOut ++ evs }

/-- R110, R28: a decoder command changes the decoder group and `BYTE_OUT` only, emits only if it is `DEC_PIX`, and what
it does depends on the decoder group only. -/
def Obligations.DecoderCommandsStayInDecoder : Prop :=
  ∀ (i : Instr), forDec i = true → ∀ s t : State, exec i s = .next t →
    (t.sys = s.sys ∧ t.enc = s.enc ∧ t.pixOut = s.pixOut ∧ t.rspOut = s.rspOut ∧ t.input = s.input) ∧
    ((∀ v, i ≠ .decPix v) → t.byteOut = s.byteOut) ∧
    ∃ evs, t.byteOut = s.byteOut ++ evs ∧
      ∀ s' : State, s'.dec = s.dec → exec i s' = .next { s' with dec := t.dec, byteOut := s'.byteOut ++ evs }

/-- R208, R151: however encoder and decoder commands are interleaved, the outcome is that of all the encoder's commands
and then all the decoder's, and that of the other order; the encoder group and `PIX_OUT` end as under the encoder's
commands alone, the decoder group and `BYTE_OUT` as under the decoder's alone. Every interleaving of an encoder list and
a decoder list is such a list `is`, and its two filters are the two lists. -/
def Obligations.UnitsCommute : Prop :=
  ∀ (is : List Instr) (s : State), (∀ i ∈ is, forEnc i = true ∨ forDec i = true) → s.legal = true →
    ∃ t te td, execAll is s = .next t ∧
      execAll (is.filter forEnc ++ is.filter forDec) s = .next t ∧
      execAll (is.filter forDec ++ is.filter forEnc) s = .next t ∧
      execAll (is.filter forEnc) s = .next te ∧ execAll (is.filter forDec) s = .next td ∧
      t = { s with enc := te.enc, pixOut := te.pixOut, dec := td.dec, byteOut := td.byteOut }

/-- R27: a field changes only under a command that has a mark in the field's row. `legal` is the invariant of R26 (it
makes `ENC_END` leave `ENC.SR` as it is). -/
def Obligations.FieldWriteTable : Prop :=
  ∀ (i : Instr) (s t : State), i.wellFormed = true → s.legal = true → exec i s = .next t →
    (t.sys ≠ s.sys → i = .sysReset) ∧
    (t.enc.rows ≠ s.enc.rows ∨ t.enc.cols ≠ s.enc.cols → i = .sysReset ∨ ∃ r c, i = .encCfg r c) ∧
    (t.enc.ctl ≠ s.enc.ctl → i = .sysReset ∨ forEnc i = true) ∧
    (t.enc.row ≠ s.enc.row ∨ t.enc.col ≠ s.enc.col ∨ t.enc.ras ≠ s.enc.ras →
      i = .sysReset ∨ i = .encStart ∨ (∃ b, i = .encByte b) ∨ i = .encEnd ∨ i = .encAbort) ∧
    t.enc.sr = s.enc.sr ∧
    (t.dec.mode ≠ s.dec.mode → i = .sysReset ∨ ∃ m, i = .decCfg m) ∧
    (t.dec.ctl ≠ s.dec.ctl → i = .sysReset ∨ forDec i = true) ∧
    (t.dec.rows ≠ s.dec.rows ∨ t.dec.cols ≠ s.dec.cols ∨ t.dec.haveShape ≠ s.dec.haveShape →
      i = .sysReset ∨ i = .decStart ∨ (∃ r c, i = .decRaster r c) ∨ i = .decAbort) ∧
    (t.dec.rem ≠ s.dec.rem →
      i = .sysReset ∨ i = .decStart ∨ (∃ r c, i = .decRaster r c) ∨ (∃ v, i = .decPix v) ∨ i = .decAbort) ∧
    (t.dec.sr ≠ s.dec.sr ∨ t.dec.bc ≠ s.dec.bc ∨ t.dec.zrun ≠ s.dec.zrun →
      i = .sysReset ∨ i = .decStart ∨ (∃ v, i = .decPix v) ∨ i = .decEnd ∨ i = .decAbort)

/-- R53, R192: events are only ever appended, by a step too, and one step appends on one port at most. -/
def Obligations.TracesOnlyGrow : Prop :=
  ∀ s t : State, step s = .next t →
    ∃ ps bs rs, t.pixOut = s.pixOut ++ ps ∧ t.byteOut = s.byteOut ++ bs ∧ t.rspOut = s.rspOut ++ rs ∧
      ((ps = [] ∧ bs = []) ∨ (ps = [] ∧ rs = []) ∨ (bs = [] ∧ rs = []))

/-- R42, R99: every pixel event a command emits has the value 0x00 or 0xFF, lies inside the raster, and has `eor` 1
exactly on the last pixel. `legal` is the invariant of R26. -/
def Obligations.PixelEventsAreWellFormed : Prop :=
  ∀ (i : Instr) (s t : State), s.legal = true → exec i s = .next t →
    ∀ e ∈ t.pixOut.drop s.pixOut.length,
      (e.val = 0x00#8 ∨ e.val = 0xFF#8) ∧ e.row.toNat < s.enc.rows.toNat ∧ e.col.toNat < s.enc.cols.toNat ∧
      (e.eor = true ↔ e.row.toNat + 1 = s.enc.rows.toNat ∧ e.col.toNat + 1 = s.enc.cols.toNat)

/-- R196, R41: presenting the words of a list of well-formed commands and stepping once for each is applying the
commands in order. -/
def Obligations.RunOfWordsIsRunOfCommands : Prop :=
  ∀ (is : List Instr) (s : State), (∀ i ∈ is, i.wellFormed = true) → s.legal = true → s.input = [] →
    ∃ t, execAll is s = .next t ∧ Sys2Proof.core.run is.length (s.presentWords (is.map encode)) = .next t

/-! ## Transactions (spec/43_transactions.md) -/

/-- R140: element `8 i + j` of `bits_of(Bs)` is bit `7 - j` of byte `i`; element `i` of `bytes_of(bs)` is made of its
eight bits, the first in bit 7, and the last incomplete group is ignored; `bytes_of` undoes `bits_of`. -/
def Obligations.BitsAndBytes : Prop :=
  (∀ bs : List Byte, (bitsOf bs).length = 8 * bs.length ∧
    (∀ i j (hi : i < bs.length), j < 8 → (bitsOf bs)[8 * i + j]? = some (bs[i].getLsbD (7 - j))) ∧
    bytesOf (bitsOf bs) = bs) ∧
  (∀ bits : List Bool, (bytesOf bits).length = bits.length / 8 ∧
    ∀ i j (hi : i < (bytesOf bits).length), j < 8 → bits[8 * i + j]? = some ((bytesOf bits)[i].getLsbD (7 - j)))

/-- R143: `strip(B, TRAILING)` is the part of `B` before the least index from which every byte is 0x00; `strip(B, ALL)` is
the non-zero bytes of `B` in order; both are idempotent, `ALL` after `TRAILING` is `ALL`, and zero bytes at the end make
no difference. -/
def Obligations.StripLaws : Prop :=
  (∀ bs : List Byte, ∃ k, k ≤ bs.length ∧ strip .trailing bs = bs.take k ∧ (∀ b ∈ bs.drop k, b = 0x00#8) ∧
    ∀ k', k' < k → ∃ b ∈ bs.drop k', b ≠ 0x00#8) ∧
  (∀ bs : List Byte, (strip .all bs).Sublist bs ∧ (∀ b ∈ strip .all bs, b ≠ 0x00#8) ∧
    ∀ b, b ≠ 0x00#8 → (strip .all bs).count b = bs.count b) ∧
  (∀ (mode : StripMode) (bs : List Byte), strip mode (strip mode bs) = strip mode bs) ∧
  (∀ bs : List Byte, strip .all (strip .trailing bs) = strip .all bs) ∧
  (∀ (mode : StripMode) (bs : List Byte) (n : Nat), strip mode (bs ++ List.replicate n 0x00#8) = strip mode bs)

/-- R147, R149: the reference encoder refuses an illegal geometry for every input; for a legal one it gives `ceil(L / C)`
rasters, each of the shape asked for with cells 0x00 and 0xFF only, and their cells in order are the bits of the input and
then `N C - L` cells 0x00. -/
def Obligations.ReferenceEncoderShape : Prop :=
  ∀ (bs : List Byte) (rows cols : Nat),
    (geomOk rows cols = false → encodeRef bs rows cols = .error .configuration) ∧
    (geomOk rows cols = true →
      ∃ qs, encodeRef bs rows cols = .ok qs ∧ qs.length = (8 * bs.length + rows * cols - 1) / (rows * cols) ∧
        (∀ q ∈ qs, q.wellShaped = true ∧ q.rows = rows ∧ q.cols = cols) ∧
        qs.flatMap Raster.flat =
          (bitsOf bs).map pix ++ List.replicate (qs.length * (rows * cols) - 8 * bs.length) 0x00#8)

/-- R146: the round trip on bytes. -/
def Obligations.RoundTripIsStrip : Prop :=
  ∀ (bs : List Byte) (rows cols : Nat) (mode : StripMode), geomOk rows cols = true →
    ∃ qs, encodeRef bs rows cols = .ok qs ∧ decodeRef qs mode = .ok (strip mode bs)

/-- R146: for every legal geometry the round trip returns the bytes themselves exactly when the strip leaves them: in
`TRAILING`, when there is none or the last is not 0x00; in `ALL`, when none is 0x00. -/
def Obligations.RoundTripExactWhen : Prop :=
  ∀ (bs : List Byte) (rows cols : Nat), geomOk rows cols = true →
    ∃ qs, encodeRef bs rows cols = .ok qs ∧
      (∀ mode : StripMode, decodeRef qs mode = .ok bs ↔ strip mode bs = bs) ∧
      (decodeRef qs .trailing = .ok bs ↔ bs = [] ∨ ∃ b, bs.getLast? = some b ∧ b ≠ 0x00#8) ∧
      (decodeRef qs .all = .ok bs ↔ ∀ b ∈ bs, b ≠ 0x00#8)

/-- R144, second case, with R44 and R97: the commands of `ENCODE` on an `IDLE` encoder with a legal geometry emit
exactly the pixels of the reference encoder, event `k` at the row-major position of `k`, and end `IDLE` with the raster
count; everything else is unchanged. -/
def Obligations.EncodeTransactionRefines : Prop :=
  ∀ (rows cols : Dim) (bs : List Byte) (s : State), s.legal = true → s.enc.ctl.state = .idle →
    geomOk rows.toNat cols.toNat = true →
    let c := rows.toNat * cols.toNat
    let n := (8 * bs.length + c - 1) / c
    let p := encodePixels bs c
    p.length = n * c ∧
    execAll (encodeCmds rows cols bs) s = .next
      { s with
        enc := { rows := rows, cols := cols, ctl := { state := .idle, err := .none }, row := 0#12, col := 0#12,
                 ras := BitVec.ofNat 32 n, sr := 0#8 }
        pixOut := s.pixOut ++ (List.range (n * c)).map fun k =>
          { val := p.getD k 0
            ras := BitVec.ofNat 32 (k / c)
            row := BitVec.ofNat 12 (k % c / cols.toNat)
            col := BitVec.ofNat 12 (k % c % cols.toNat)
            eor := k % c == c - 1 } }

/-- R144, first case: with an illegal geometry the commands of `ENCODE` emit nothing and the encoder ends in `FAULT` with
`ERR_CONFIG`, the geometry stored; everything else is unchanged. -/
def Obligations.EncodeTransactionRefused : Prop :=
  ∀ (rows cols : Dim) (bs : List Byte) (s : State), s.legal = true → s.enc.ctl.state = .idle →
    geomOk rows.toNat cols.toNat = false →
    execAll (encodeCmds rows cols bs) s = .next
      { s with enc := { s.enc with rows := rows, cols := cols, ctl := { state := .fault, err := .config } } }

/-- R97, R98: of the pixels of an encode transaction of `n` bytes, `ceil(L / C)` have `eor` 1, and `ENC_END` emits
`(C - L mod C) mod C` of them, all 0x00 and all last. -/
def Obligations.RasterAndPaddingCount : Prop :=
  ∀ (rows cols : Dim) (bs : List Byte) (s : State), s.legal = true → s.enc.ctl.state = .idle →
    geomOk rows.toNat cols.toNat = true →
    let c := rows.toNat * cols.toNat
    let l := 8 * bs.length
    ∃ t u data, execAll (.encCfg rows cols :: .encStart :: encBytes bs) s = .next t ∧ exec .encEnd t = .next u ∧
      t.pixOut = s.pixOut ++ data ∧ data.map Pix.val = (bitsOf bs).map pix ∧
      (∃ pad, u.pixOut = t.pixOut ++ pad ∧ pad.map Pix.val = List.replicate ((c - l % c) % c) 0x00#8 ∧
        ((data ++ pad).filter Pix.eor).length = (l + c - 1) / c ∧ (data ++ pad).length = (l + c - 1) / c * c)

/-- R44: seen as stores, the events of an encode transaction of fewer than 2^32 rasters write every address of every
raster exactly once, with the cell of the reference encoder's raster. -/
def Obligations.RasterSpaceHoldsTheRasters : Prop :=
  ∀ (rows cols : Dim) (bs : List Byte) (s : State), s.legal = true → s.enc.ctl.state = .idle →
    geomOk rows.toNat cols.toNat = true →
    (8 * bs.length + rows.toNat * cols.toNat - 1) / (rows.toNat * cols.toNat) < 2 ^ 32 →
    ∃ t evs qs, execAll (encodeCmds rows cols bs) s = .next t ∧ t.pixOut = s.pixOut ++ evs ∧
      encodeRef bs rows.toNat cols.toNat = .ok qs ∧
      ∀ (n r c : Nat) (q : Raster) (cells : List Byte) (v : Byte), qs[n]? = some q → q.grid[r]? = some cells →
        cells[c]? = some v →
        rasterSpace evs (BitVec.ofNat 32 n, BitVec.ofNat 12 r, BitVec.ofNat 12 c) = some v ∧
        evs.countP (fun e => e.address == (BitVec.ofNat 32 n, BitVec.ofNat 12 r, BitVec.ofNat 12 c)) = 1

/-- R145, second case, with R118 to R120: the commands of `DECODE` on an `IDLE` decoder, for rasters of one shape with
cells 0x00 and 0xFF, and no run of 2^32 zero bytes in `TRAILING`, emit exactly the bytes of the reference decoder and
end `IDLE` without error; everything outside the decoder and `BYTE_OUT` is unchanged. -/
def Obligations.DecodeTransactionRefines : Prop :=
  ∀ (qs : List Raster) (cmds : List Instr) (bits : List Bool) (s : State), s.legal = true →
    s.dec.ctl.state = .idle → decodeCmds qs = some cmds → sameShapes qs = true →
    bitsOfPixels (qs.flatMap Raster.flat) = some bits →
    (s.dec.mode = .trailing → longestZeroRun 0 (bytesOf bits) < 2 ^ 32) →
    ∃ out d, decodeRef qs s.dec.mode = .ok out ∧
      execAll cmds s = .next { s with dec := d, byteOut := s.byteOut ++ out } ∧
      d.ctl = { state := .idle, err := .none } ∧ d.mode = s.dec.mode ∧ d.rem = 0#24 ∧ d.sr = 0#8 ∧ d.bc = 0#3 ∧
      d.zrun = 0#32

/-- R145, first case: where `bad` is the first raster whose shape differs from the first raster's, the decoder ends in
`FAULT` with `ERR_SHAPE`, whatever follows `bad`, and everything outside the decoder and `BYTE_OUT` is unchanged. The
cells of the rasters before `bad` are 0x00 or 0xFF, and in `TRAILING` their bytes hold no run of 2^32 zero bytes (the
proviso R145 writes at its second case; with such a run `ERR_OVERFLOW` would come first, R122). -/
def Obligations.DecodeTransactionShapeMismatch : Prop :=
  ∀ (first bad : Raster) (before rest : List Raster) (cmds : List Instr) (bits : List Bool) (s : State),
    s.legal = true → s.dec.ctl.state = .idle → decodeCmds (first :: before ++ bad :: rest) = some cmds →
    sameShapes (first :: before) = true → (bad.rows ≠ first.rows ∨ bad.cols ≠ first.cols) →
    bitsOfPixels ((first :: before).flatMap Raster.flat) = some bits →
    (s.dec.mode = .trailing → longestZeroRun 0 (bytesOf bits) < 2 ^ 32) →
    decodeRef (first :: before ++ bad :: rest) s.dec.mode = .error .shapeMismatch ∧
    ∃ void d, execAll cmds s = .next { s with dec := d, byteOut := s.byteOut ++ void } ∧
      d.ctl = { state := .fault, err := .shape }

/-- R146 through the machine: encoding bytes and decoding the rasters the reference names, on the same block, gives back
the stripped bytes. -/
def Obligations.MachineRoundTrip : Prop :=
  ∀ (rows cols : Dim) (bs : List Byte) (qs : List Raster) (cmds : List Instr) (s : State), s.legal = true →
    s.enc.ctl.state = .idle → s.dec.ctl.state = .idle → encodeRef bs rows.toNat cols.toNat = .ok qs →
    decodeCmds qs = some cmds →
    (s.dec.mode = .trailing →
      longestZeroRun 0 (bs ++ List.replicate (qs.length * (rows.toNat * cols.toNat) / 8 - bs.length) 0x00#8) < 2 ^ 32) →
    ∃ t, execAll (encodeCmds rows cols bs ++ cmds) s = .next t ∧
      (t.pixOut.drop s.pixOut.length).map Pix.val = qs.flatMap Raster.flat ∧
      t.byteOut = s.byteOut ++ strip s.dec.mode bs ∧ t.enc.ctl = { state := .idle, err := .none } ∧
      t.dec.ctl = { state := .idle, err := .none }

/-- R29: an accepted `ENC_START` makes the rest of an encode transaction depend on the geometry alone, and an accepted
`DEC_START` makes the rest of a decode transaction depend on the mode alone. -/
def Obligations.TransactionsAreIndependent : Prop :=
  (∀ (is : List Instr) (s s' t : State), (∀ i ∈ is, forEnc i = true) → s.legal = true → s'.legal = true →
    s.enc.ctl.state = .idle → s'.enc.ctl.state = .idle → s.enc.rows = s'.enc.rows → s.enc.cols = s'.enc.cols →
    geomOk s.enc.rows.toNat s.enc.cols.toNat = true → execAll (.encStart :: is) s = .next t →
    ∃ t' evs, execAll (.encStart :: is) s' = .next t' ∧ t'.enc = t.enc ∧ t.pixOut = s.pixOut ++ evs ∧
      t'.pixOut = s'.pixOut ++ evs) ∧
  (∀ (is : List Instr) (s s' t : State), (∀ i ∈ is, forDec i = true) → s.legal = true → s'.legal = true →
    s.dec.ctl.state = .idle → s'.dec.ctl.state = .idle → s.dec.mode = s'.dec.mode →
    execAll (.decStart :: is) s = .next t →
    ∃ t' evs, execAll (.decStart :: is) s' = .next t' ∧ t'.dec = t.dec ∧ t.byteOut = s.byteOut ++ evs ∧
      t'.byteOut = s'.byteOut ++ evs)
end

