-- ==== Sys2Proof/Laws/Decode.lean ====
section
/-! SUPPORT. The fields of a word built from fields (30_encoding.md R61), for the splits the five formats use, and the
field tests of the decoder. -/

namespace Sys2Proof

/-! ## Parts of a concatenation -/

/-- The low part of a concatenation. -/
theorem extract_low {n m : Nat} (x : BitVec n) (y : BitVec m) : (x ++ y).extractLsb' 0 m = y := by
  ext i hi
  simp [BitVec.getLsbD_append, hi]

/-- The high part of a concatenation. -/
theorem extract_high {n m : Nat} (x : BitVec n) (y : BitVec m) : (x ++ y).extractLsb' m n = x := by
  ext i hi
  simp [BitVec.getLsbD_append, hi]

/-- The top one of three parts. -/
theorem extract_top {k n m : Nat} (op : BitVec k) (x : BitVec n) (y : BitVec m) :
    (op ++ x ++ y).extractLsb' (n + m) k = op := by
  ext i hi
  simp [BitVec.getLsbD_append, hi, show ¬ n + m + i < m by omega, show ¬ n + m + i - m < n by omega,
    show n + m + i - m - n = i by omega]

/-- The middle one of three parts. -/
theorem extract_middle {k n m : Nat} (op : BitVec k) (x : BitVec n) (y : BitVec m) :
    (op ++ x ++ y).extractLsb' m n = x := by
  ext i hi
  simp [BitVec.getLsbD_append, hi]

/-! ## Format Z: 8 + 24 -/

theorem opField_z (op : BitVec 8) (x : BitVec 24) : opField (op ++ x) = op := extract_high op x
theorem zero_z (op : BitVec 8) (x : BitVec 24) : (op ++ x : Word).extractLsb' 0 24 = x := extract_low op x

/-! ## Format G: 8 + 12 + 12 -/

theorem opField_g (op : BitVec 8) (rows cols : Dim) : opField (op ++ rows ++ cols) = op := extract_top op rows cols
theorem rowsField_g (op : BitVec 8) (rows cols : Dim) : rowsField (op ++ rows ++ cols) = rows :=
  extract_middle op rows cols
theorem colsField_g (op : BitVec 8) (rows cols : Dim) : colsField (op ++ rows ++ cols) = cols :=
  extract_low (op ++ rows) cols

/-! ## Format B: 8 + 16 + 8 -/

theorem opField_b (op : BitVec 8) (x : BitVec 16) (imm8 : Byte) : opField (op ++ x ++ imm8) = op := extract_top op x imm8
theorem zero_b (op : BitVec 8) (x : BitVec 16) (imm8 : Byte) : (op ++ x ++ imm8 : Word).extractLsb' 8 16 = x :=
  extract_middle op x imm8
theorem imm8Field_b (op : BitVec 8) (x : BitVec 16) (imm8 : Byte) : imm8Field (op ++ x ++ imm8) = imm8 :=
  extract_low (op ++ x) imm8

/-! ## Format I: 8 + 20 + 4 -/

theorem opField_i (op : BitVec 8) (x : BitVec 20) (idx : BitVec 4) : opField (op ++ x ++ idx) = op := extract_top op x idx
theorem zero_i (op : BitVec 8) (x : BitVec 20) (idx : BitVec 4) : (op ++ x ++ idx : Word).extractLsb' 4 20 = x :=
  extract_middle op x idx
theorem idxField_i (op : BitVec 8) (x : BitVec 20) (idx : BitVec 4) : idxField (op ++ x ++ idx) = idx :=
  extract_low (op ++ x) idx

/-! ## Format M: 8 + 23 + 1 -/

theorem opField_m (op : BitVec 8) (x : BitVec 23) (m : BitVec 1) : opField (op ++ x ++ m) = op := extract_top op x m
theorem zero_m (op : BitVec 8) (x : BitVec 23) (m : BitVec 1) : (op ++ x ++ m : Word).extractLsb' 1 23 = x :=
  extract_middle op x m
theorem modeField_m (op : BitVec 8) (x : BitVec 23) (m : BitVec 1) : modeField (op ++ x ++ m) = m :=
  extract_low (op ++ x) m

/-! ## A word is its parts -/

/-- A concatenation of the two parts of a word is the word. -/
theorem append_parts {n m : Nat} (w : BitVec (n + m)) : w.extractLsb' m n ++ w.extractLsb' 0 m = w := by
  ext i hi
  simp only [BitVec.getElem_append]
  split
  · simp only [BitVec.getElem_extractLsb', Nat.zero_add]
    exact BitVec.getLsbD_eq_getElem hi
  · simp only [BitVec.getElem_extractLsb', show m + (i - m) = i by omega]
    exact BitVec.getLsbD_eq_getElem hi

/-- A concatenation of the three parts of a word is the word. -/
theorem append_three_parts {k n m : Nat} (w : BitVec (k + n + m)) :
    w.extractLsb' (n + m) k ++ w.extractLsb' m n ++ w.extractLsb' 0 m = w := by
  have h : w.extractLsb' (n + m) k ++ w.extractLsb' m n = w.extractLsb' m (k + n) := by
    ext i hi
    simp only [BitVec.getElem_append]
    split
    · simp
    · simp [show n + m + (i - n) = m + i by omega]
  rw [h]
  exact append_parts w

theorem StripMode.ofBit_toBit (m : StripMode) : StripMode.ofBit m.toBit = m := by cases m <;> rfl

theorem StripMode.toBit_ofBit (b : BitVec 1) : (StripMode.ofBit b).toBit = b := by
  revert b; decide

/-! ## The field tests -/

/-- A word whose must-be-zero bits are checked decodes only if they are 0, and then as the format says. -/
theorem ifZero_ok {n : Nat} {zero : BitVec n} {w : Word} {e : Except Illegal Instr} {i : Instr}
    (h : ifZero zero w e = .ok i) : zero = 0#n ∧ e = .ok i := by
  unfold ifZero at h
  split at h
  · exact ⟨‹_›, h⟩
  · cases h

theorem ifZero_zero {n : Nat} (w : Word) (e : Except Illegal Instr) : ifZero (0#n) w e = e := by
  simp [ifZero]

end Sys2Proof
end

