-- ==== Sys2Proof/Laws/State.lean ====
section
/-! SUPPORT. One lemma per field per update of the state, true by rfl, so that no proof unfolds a record update. -/

namespace Sys2Proof.Machine

@[simp] theorem State.setSys_sys (y : Sys) (s : State) : (s.setSys y).sys = y := rfl
@[simp] theorem State.setSys_enc (y : Sys) (s : State) : (s.setSys y).enc = s.enc := rfl
@[simp] theorem State.setSys_dec (y : Sys) (s : State) : (s.setSys y).dec = s.dec := rfl
@[simp] theorem State.setSys_pixOut (y : Sys) (s : State) : (s.setSys y).pixOut = s.pixOut := rfl
@[simp] theorem State.setSys_byteOut (y : Sys) (s : State) : (s.setSys y).byteOut = s.byteOut := rfl
@[simp] theorem State.setSys_rspOut (y : Sys) (s : State) : (s.setSys y).rspOut = s.rspOut := rfl
@[simp] theorem State.setSys_input (y : Sys) (s : State) : (s.setSys y).input = s.input := rfl

@[simp] theorem State.setEnc_sys (u : Enc) (s : State) : (s.setEnc u).sys = s.sys := rfl
@[simp] theorem State.setEnc_enc (u : Enc) (s : State) : (s.setEnc u).enc = u := rfl
@[simp] theorem State.setEnc_dec (u : Enc) (s : State) : (s.setEnc u).dec = s.dec := rfl
@[simp] theorem State.setEnc_pixOut (u : Enc) (s : State) : (s.setEnc u).pixOut = s.pixOut := rfl
@[simp] theorem State.setEnc_byteOut (u : Enc) (s : State) : (s.setEnc u).byteOut = s.byteOut := rfl
@[simp] theorem State.setEnc_rspOut (u : Enc) (s : State) : (s.setEnc u).rspOut = s.rspOut := rfl
@[simp] theorem State.setEnc_input (u : Enc) (s : State) : (s.setEnc u).input = s.input := rfl

@[simp] theorem State.setDec_sys (u : Dec) (s : State) : (s.setDec u).sys = s.sys := rfl
@[simp] theorem State.setDec_enc (u : Dec) (s : State) : (s.setDec u).enc = s.enc := rfl
@[simp] theorem State.setDec_dec (u : Dec) (s : State) : (s.setDec u).dec = u := rfl
@[simp] theorem State.setDec_pixOut (u : Dec) (s : State) : (s.setDec u).pixOut = s.pixOut := rfl
@[simp] theorem State.setDec_byteOut (u : Dec) (s : State) : (s.setDec u).byteOut = s.byteOut := rfl
@[simp] theorem State.setDec_rspOut (u : Dec) (s : State) : (s.setDec u).rspOut = s.rspOut := rfl
@[simp] theorem State.setDec_input (u : Dec) (s : State) : (s.setDec u).input = s.input := rfl

@[simp] theorem State.setInput_sys (items : List PortItem) (s : State) : (s.setInput items).sys = s.sys := rfl
@[simp] theorem State.setInput_enc (items : List PortItem) (s : State) : (s.setInput items).enc = s.enc := rfl
@[simp] theorem State.setInput_dec (items : List PortItem) (s : State) : (s.setInput items).dec = s.dec := rfl
@[simp] theorem State.setInput_pixOut (items : List PortItem) (s : State) : (s.setInput items).pixOut = s.pixOut := rfl
@[simp] theorem State.setInput_byteOut (items : List PortItem) (s : State) : (s.setInput items).byteOut = s.byteOut := rfl
@[simp] theorem State.setInput_rspOut (items : List PortItem) (s : State) : (s.setInput items).rspOut = s.rspOut := rfl
@[simp] theorem State.setInput_input (items : List PortItem) (s : State) : (s.setInput items).input = items := rfl

@[simp] theorem State.emitPix_sys (evs : List Pix) (s : State) : (s.emitPix evs).sys = s.sys := rfl
@[simp] theorem State.emitPix_enc (evs : List Pix) (s : State) : (s.emitPix evs).enc = s.enc := rfl
@[simp] theorem State.emitPix_dec (evs : List Pix) (s : State) : (s.emitPix evs).dec = s.dec := rfl
@[simp] theorem State.emitPix_pixOut (evs : List Pix) (s : State) : (s.emitPix evs).pixOut = s.pixOut ++ evs := rfl
@[simp] theorem State.emitPix_byteOut (evs : List Pix) (s : State) : (s.emitPix evs).byteOut = s.byteOut := rfl
@[simp] theorem State.emitPix_rspOut (evs : List Pix) (s : State) : (s.emitPix evs).rspOut = s.rspOut := rfl
@[simp] theorem State.emitPix_input (evs : List Pix) (s : State) : (s.emitPix evs).input = s.input := rfl

@[simp] theorem State.emitBytes_sys (evs : List Byte) (s : State) : (s.emitBytes evs).sys = s.sys := rfl
@[simp] theorem State.emitBytes_enc (evs : List Byte) (s : State) : (s.emitBytes evs).enc = s.enc := rfl
@[simp] theorem State.emitBytes_dec (evs : List Byte) (s : State) : (s.emitBytes evs).dec = s.dec := rfl
@[simp] theorem State.emitBytes_pixOut (evs : List Byte) (s : State) : (s.emitBytes evs).pixOut = s.pixOut := rfl
@[simp] theorem State.emitBytes_byteOut (evs : List Byte) (s : State) : (s.emitBytes evs).byteOut = s.byteOut ++ evs := rfl
@[simp] theorem State.emitBytes_rspOut (evs : List Byte) (s : State) : (s.emitBytes evs).rspOut = s.rspOut := rfl
@[simp] theorem State.emitBytes_input (evs : List Byte) (s : State) : (s.emitBytes evs).input = s.input := rfl

@[simp] theorem State.emitRsp_sys (v : Word) (s : State) : (s.emitRsp v).sys = s.sys := rfl
@[simp] theorem State.emitRsp_enc (v : Word) (s : State) : (s.emitRsp v).enc = s.enc := rfl
@[simp] theorem State.emitRsp_dec (v : Word) (s : State) : (s.emitRsp v).dec = s.dec := rfl
@[simp] theorem State.emitRsp_pixOut (v : Word) (s : State) : (s.emitRsp v).pixOut = s.pixOut := rfl
@[simp] theorem State.emitRsp_byteOut (v : Word) (s : State) : (s.emitRsp v).byteOut = s.byteOut := rfl
@[simp] theorem State.emitRsp_rspOut (v : Word) (s : State) : (s.emitRsp v).rspOut = s.rspOut ++ [v] := rfl
@[simp] theorem State.emitRsp_input (v : Word) (s : State) : (s.emitRsp v).input = s.input := rfl

@[simp] theorem State.raiseEnc_sys (e : ErrCode) (s : State) : (s.raiseEnc e).sys = s.sys := rfl
@[simp] theorem State.raiseEnc_enc (e : ErrCode) (s : State) : (s.raiseEnc e).enc = { s.enc with ctl := s.enc.ctl.raise e } := rfl
@[simp] theorem State.raiseEnc_dec (e : ErrCode) (s : State) : (s.raiseEnc e).dec = s.dec := rfl
@[simp] theorem State.raiseEnc_pixOut (e : ErrCode) (s : State) : (s.raiseEnc e).pixOut = s.pixOut := rfl
@[simp] theorem State.raiseEnc_byteOut (e : ErrCode) (s : State) : (s.raiseEnc e).byteOut = s.byteOut := rfl
@[simp] theorem State.raiseEnc_rspOut (e : ErrCode) (s : State) : (s.raiseEnc e).rspOut = s.rspOut := rfl
@[simp] theorem State.raiseEnc_input (e : ErrCode) (s : State) : (s.raiseEnc e).input = s.input := rfl

@[simp] theorem State.raiseDec_sys (e : ErrCode) (s : State) : (s.raiseDec e).sys = s.sys := rfl
@[simp] theorem State.raiseDec_enc (e : ErrCode) (s : State) : (s.raiseDec e).enc = s.enc := rfl
@[simp] theorem State.raiseDec_dec (e : ErrCode) (s : State) : (s.raiseDec e).dec = { s.dec with ctl := s.dec.ctl.raise e } := rfl
@[simp] theorem State.raiseDec_pixOut (e : ErrCode) (s : State) : (s.raiseDec e).pixOut = s.pixOut := rfl
@[simp] theorem State.raiseDec_byteOut (e : ErrCode) (s : State) : (s.raiseDec e).byteOut = s.byteOut := rfl
@[simp] theorem State.raiseDec_rspOut (e : ErrCode) (s : State) : (s.raiseDec e).rspOut = s.rspOut := rfl
@[simp] theorem State.raiseDec_input (e : ErrCode) (s : State) : (s.raiseDec e).input = s.input := rfl

@[simp] theorem State.markIllegal_sys (s : State) : s.markIllegal.sys = { s.sys with ill := true } := rfl
@[simp] theorem State.markIllegal_enc (s : State) : s.markIllegal.enc = s.enc := rfl
@[simp] theorem State.markIllegal_dec (s : State) : s.markIllegal.dec = s.dec := rfl
@[simp] theorem State.markIllegal_pixOut (s : State) : s.markIllegal.pixOut = s.pixOut := rfl
@[simp] theorem State.markIllegal_byteOut (s : State) : s.markIllegal.byteOut = s.byteOut := rfl
@[simp] theorem State.markIllegal_rspOut (s : State) : s.markIllegal.rspOut = s.rspOut := rfl
@[simp] theorem State.markIllegal_input (s : State) : s.markIllegal.input = s.input := rfl

@[simp] theorem State.resetRegisters_sys (s : State) : s.resetRegisters.sys = Sys.reset := rfl
@[simp] theorem State.resetRegisters_enc (s : State) : s.resetRegisters.enc = Enc.reset := rfl
@[simp] theorem State.resetRegisters_dec (s : State) : s.resetRegisters.dec = Dec.reset := rfl
@[simp] theorem State.resetRegisters_pixOut (s : State) : s.resetRegisters.pixOut = s.pixOut := rfl
@[simp] theorem State.resetRegisters_byteOut (s : State) : s.resetRegisters.byteOut = s.byteOut := rfl
@[simp] theorem State.resetRegisters_rspOut (s : State) : s.resetRegisters.rspOut = s.rspOut := rfl
@[simp] theorem State.resetRegisters_input (s : State) : s.resetRegisters.input = s.input := rfl

/-- Two states with the same seven fields are one. -/
theorem State.ext_fields {s t : State} (hsys : s.sys = t.sys) (henc : s.enc = t.enc) (hdec : s.dec = t.dec)
    (hpix : s.pixOut = t.pixOut) (hbyte : s.byteOut = t.byteOut) (hrsp : s.rspOut = t.rspOut) (hin : s.input = t.input) :
    s = t := by
  cases s; cases t; simp_all

@[simp] theorem State.emitPix_nil (s : State) : s.emitPix [] = s := by simp [State.emitPix]

@[simp] theorem State.emitBytes_nil (s : State) : s.emitBytes [] = s := by simp [State.emitBytes]

theorem State.emitPix_emitPix (e f : List Pix) (s : State) : (s.emitPix e).emitPix f = s.emitPix (e ++ f) := by
  simp [State.emitPix]

theorem State.emitBytes_emitBytes (e f : List Byte) (s : State) :
    (s.emitBytes e).emitBytes f = s.emitBytes (e ++ f) := by
  simp [State.emitBytes]

/-! ## Fault entry and return -/

@[simp] theorem Ctl.raise_state (e : ErrCode) (c : Ctl) : (c.raise e).state = .fault := rfl

/-- The code recorded is the first one raised (60_exceptions.md R163). -/
theorem Ctl.raise_err_of_none (e : ErrCode) {c : Ctl} (h : c.err = .none) : (c.raise e).err = e := by
  simp [Ctl.raise, h]

theorem Ctl.raise_err_of_some (e : ErrCode) {c : Ctl} (h : c.err ≠ .none) : (c.raise e).err = c.err := by
  simp [Ctl.raise, h]

@[simp] theorem Ctl.clear_eq (c : Ctl) : c.clear = { state := .idle, err := .none } := rfl

end Sys2Proof.Machine
end

