-- ==== Sys2Proof/Laws/Decoder.lean ====
section
/-! SUPPORT. What the decoder's shared operations can do, said once: the deliver step (R115) over a list of bytes, and
the bit step of R114 over a list of bits. -/

namespace Sys2Proof.Machine

/-! ## The deliver step -/

/-- A non-zero byte releases the held zero bytes (R115). -/
theorem Dec.deliver_of_ne {byte : Byte} (h : byte ≠ 0x00#8) (u : Dec) :
    u.deliver byte = ({ u with zrun := 0#32 }, List.replicate u.zrun.toNat 0x00#8 ++ [byte]) := by
  simp [Dec.deliver, h]

/-- A zero byte in mode `TRAILING` is held back. -/
theorem Dec.deliver_zero_trailing {u : Dec} (h : u.mode = .trailing) :
    u.deliver 0x00#8 = ({ u with zrun := u.zrun + 1#32 }, []) := by
  simp [Dec.deliver, h]

/-- A zero byte in mode `ALL` is dropped. -/
theorem Dec.deliver_zero_all {u : Dec} (h : u.mode = .all) : u.deliver 0x00#8 = (u, []) := by
  simp [Dec.deliver, h]

/-- Delivering a list of bytes in order. -/
def Dec.delivers : List Byte → Dec → Dec × List Byte
  | [], u => (u, [])
  | b :: bs, u =>
    let one := u.deliver b
    let rest := Dec.delivers bs one.1
    (rest.1, one.2 ++ rest.2)

/-- In mode `ALL` with nothing held, every zero byte is dropped and nothing else happens (R120). -/
theorem Dec.delivers_all (bs : List Byte) {u : Dec} (hm : u.mode = .all) (hz : u.zrun = 0#32) :
    Dec.delivers bs u = (u, strip .all bs) := by
  induction bs with
  | nil => rfl
  | cons b bs ih =>
    by_cases hb : b = 0x00#8
    · subst hb
      simp only [Dec.delivers, Dec.deliver_zero_all hm, ih]
      simp [strip]
    · have hu : { u with zrun := 0#32 } = u := by rw [← hz]
      simp only [Dec.delivers, Dec.deliver_of_ne hb, hu, ih]
      simp [strip, hb, hz]

/-- How many zero bytes a list ends in, `n` of them being before a list of zeros only. -/
def heldZeros : Nat → List Byte → Nat
  | n, [] => n
  | n, b :: bs => if b = 0x00#8 then heldZeros (n + 1) bs else heldZeros 0 bs

theorem stripTrailing_zeros (n : Nat) : stripTrailing (List.replicate n 0x00#8) = [] := by
  induction n with
  | zero => rfl
  | succ n ih => simp [List.replicate_succ, stripTrailing, ih]

theorem stripTrailing_ne {b : Byte} (h : b ≠ 0x00#8) (bs : List Byte) :
    stripTrailing (b :: bs) = b :: stripTrailing bs := by
  simp only [stripTrailing]
  cases stripTrailing bs with
  | nil => simp [h]
  | cons c cs => rfl

theorem stripTrailing_replicate {n : Nat} {b : Byte} (h : b ≠ 0x00#8) (bs : List Byte) :
    stripTrailing (List.replicate n 0x00#8 ++ b :: bs) = List.replicate n 0x00#8 ++ b :: stripTrailing bs := by
  induction n with
  | zero => simpa using stripTrailing_ne h bs
  | succ n ih =>
    rw [List.replicate_succ, List.cons_append, stripTrailing, ih]
    cases n with
    | zero => rfl
    | succ n => rfl

/-- No counter step of a run stays below the run's own longest. -/
theorem le_longestZeroRun (n : Nat) (bs : List Byte) : n ≤ longestZeroRun n bs := by
  induction bs generalizing n with
  | nil => exact Nat.le_refl n
  | cons b bs ih =>
    simp only [longestZeroRun]
    split
    · exact Nat.le_trans (Nat.le_succ n) (ih (n + 1))
    · exact Nat.le_max_left _ _

/-- In mode `TRAILING`, while no run of zero bytes reaches 2^32, what comes out is the strip of the held zeros and the
bytes, and what is left held is the zeros at the end (R115, R120). -/
theorem Dec.delivers_trailing (bs : List Byte) {u : Dec} (hm : u.mode = .trailing)
    (hz : longestZeroRun u.zrun.toNat bs < 2 ^ 32) :
    Dec.delivers bs u =
      ({ u with zrun := BitVec.ofNat 32 (heldZeros u.zrun.toNat bs) },
        stripTrailing (List.replicate u.zrun.toNat 0x00#8 ++ bs)) := by
  induction bs generalizing u with
  | nil => simp [Dec.delivers, heldZeros, stripTrailing_zeros]
  | cons b bs ih =>
    simp only [longestZeroRun] at hz
    by_cases hb : b = 0x00#8
    · subst hb
      simp only [if_true] at hz
      have hlt : u.zrun.toNat + 1 < 2 ^ 32 := Nat.lt_of_le_of_lt (le_longestZeroRun _ _) hz
      have hadd : (u.zrun + 1#32).toNat = u.zrun.toNat + 1 := by
        rw [BitVec.toNat_add]; simp; omega
      have := ih (u := { u with zrun := u.zrun + 1#32 }) hm (by rw [hadd]; exact hz)
      simp only [Dec.delivers, Dec.deliver_zero_trailing hm, this, hadd, heldZeros, if_true, List.nil_append,
        Prod.mk.injEq, true_and]
      rw [List.replicate_succ', List.append_assoc]
      rfl
    · simp only [hb, if_false] at hz
      have h0 : (0#32 : BitVec 32).toNat = 0 := rfl
      have := ih (u := { u with zrun := 0#32 }) hm (by rw [h0]; omega)
      simp only [Dec.delivers, Dec.deliver_of_ne hb, this, h0, heldZeros, hb, if_false, List.replicate_zero,
        List.nil_append, stripTrailing_replicate hb]
      simp

/-! ## The bit step -/

/-- Taking a list of bits in order. -/
def Dec.takeBits : List Bool → Dec → Dec × List Byte
  | [], u => (u, [])
  | b :: bs, u =>
    let one := u.takeBit b
    let rest := Dec.takeBits bs one.1
    (rest.1, one.2 ++ rest.2)

/-- The bit step, said once: either the group grows by one bit, or it is complete and delivered (R114). -/
theorem Dec.takeBit_eq (b : Bool) (u : Dec) :
    u.takeBit b =
      if u.bc = 7#3 then { u with rem := u.rem - 1#24, sr := 0#8, bc := 0#3 }.deliver (u.shiftIn b)
      else ({ u with rem := u.rem - 1#24, sr := u.shiftIn b, bc := u.bc + 1#3 }, []) := by
  simp only [Dec.takeBit, Dec.groupFull, beq_iff_eq]

theorem Dec.takeBits_append (as bs : List Bool) (u : Dec) :
    Dec.takeBits (as ++ bs) u =
      ((Dec.takeBits bs (Dec.takeBits as u).1).1, (Dec.takeBits as u).2 ++ (Dec.takeBits bs (Dec.takeBits as u).1).2) := by
  induction as generalizing u with
  | nil => rfl
  | cons a as ih => simp [Dec.takeBits, ih, List.append_assoc]

/-- A whole group from an empty one: the eight bits are delivered as their byte, the first in bit 7 (20_memory.md R49). -/
theorem Dec.takeBits_group (b0 b1 b2 b3 b4 b5 b6 b7 : Bool) {u : Dec} (hb : u.bc = 0#3) (hs : u.sr = 0#8) :
    Dec.takeBits [b0, b1, b2, b3, b4, b5, b6, b7] u =
      { u with rem := u.rem - 8#24 }.deliver (byteOfBits [b0, b1, b2, b3, b4, b5, b6, b7]) := by
  have hrem : u.rem - 1#24 - 1#24 - 1#24 - 1#24 - 1#24 - 1#24 - 1#24 - 1#24 = u.rem - 8#24 := by
    generalize u.rem = r
    bv_omega
  cases u
  simp only at hb hs hrem
  subst hb hs
  simp [Dec.takeBits, Dec.takeBit_eq, Dec.shiftIn, byteOfBits, hrem]

end Sys2Proof.Machine
end

