-- ==== Sys2Proof/Laws/Dispatch.lean ====
section
/-! SUPPORT. What the dispatch of a unit's command can do (40_system_commands.md R80, steps 4 to 7), said once. -/

namespace Sys2Proof.Machine

/-- If an encoder command answers a next state, it was ignored in `FAULT`, or performed, or it raised. -/
theorem onEnc_cases {accepts : Bool} {act : Act Enc Pix} {s t : State} (h : onEnc accepts act s = .next t) :
    (s.enc.ctl.state = .fault ∧ t = s) ∨
    (s.enc.ctl.state ≠ .fault ∧ accepts = true ∧ ∃ u evs, act = .does u evs ∧ t = (s.setEnc u).emitPix evs) ∨
    (s.enc.ctl.state ≠ .fault ∧ accepts = true ∧ ∃ e, act = .raises e ∧ t = s.raiseEnc e) ∨
    (s.enc.ctl.state ≠ .fault ∧ accepts = false ∧ t = s.raiseEnc .seq) := by
  unfold onEnc at h
  by_cases hf : s.enc.ctl.state = .fault
  · simp only [hf, if_true, Host.Outcome.next.injEq] at h
    exact .inl ⟨hf, h.symm⟩
  · simp only [hf, if_false] at h
    cases accepts with
    | false =>
      simp only [Bool.false_eq_true, if_false, Host.Outcome.next.injEq] at h
      exact .inr (.inr (.inr ⟨hf, rfl, h.symm⟩))
    | true =>
      simp only [if_true] at h
      cases act with
      | does u evs =>
        simp only [Host.Outcome.next.injEq] at h
        exact .inr (.inl ⟨hf, rfl, u, evs, rfl, h.symm⟩)
      | raises e =>
        simp only [Host.Outcome.next.injEq] at h
        exact .inr (.inr (.inl ⟨hf, rfl, e, rfl, h.symm⟩))
      | stuck f => simp at h

/-- If a decoder command answers a next state, it was ignored in `FAULT`, or performed, or it raised. -/
theorem onDec_cases {accepts : Bool} {act : Act Dec Byte} {s t : State} (h : onDec accepts act s = .next t) :
    (s.dec.ctl.state = .fault ∧ t = s) ∨
    (s.dec.ctl.state ≠ .fault ∧ accepts = true ∧ ∃ u evs, act = .does u evs ∧ t = (s.setDec u).emitBytes evs) ∨
    (s.dec.ctl.state ≠ .fault ∧ accepts = true ∧ ∃ e, act = .raises e ∧ t = s.raiseDec e) ∨
    (s.dec.ctl.state ≠ .fault ∧ accepts = false ∧ t = s.raiseDec .seq) := by
  unfold onDec at h
  by_cases hf : s.dec.ctl.state = .fault
  · simp only [hf, if_true, Host.Outcome.next.injEq] at h
    exact .inl ⟨hf, h.symm⟩
  · simp only [hf, if_false] at h
    cases accepts with
    | false =>
      simp only [Bool.false_eq_true, if_false, Host.Outcome.next.injEq] at h
      exact .inr (.inr (.inr ⟨hf, rfl, h.symm⟩))
    | true =>
      simp only [if_true] at h
      cases act with
      | does u evs =>
        simp only [Host.Outcome.next.injEq] at h
        exact .inr (.inl ⟨hf, rfl, u, evs, rfl, h.symm⟩)
      | raises e =>
        simp only [Host.Outcome.next.injEq] at h
        exact .inr (.inr (.inl ⟨hf, rfl, e, rfl, h.symm⟩))
      | stuck f => simp at h

/-- An encoder command whose precondition holds and whose checks pass. -/
theorem onEnc_does {s : State} {u : Enc} {evs : List Pix} (hf : s.enc.ctl.state ≠ .fault) :
    onEnc true (.does u evs) s = .next ((s.setEnc u).emitPix evs) := by
  simp [onEnc, hf]

/-- A decoder command whose precondition holds and whose checks pass. -/
theorem onDec_does {s : State} {u : Dec} {evs : List Byte} (hf : s.dec.ctl.state ≠ .fault) :
    onDec true (.does u evs) s = .next ((s.setDec u).emitBytes evs) := by
  simp [onDec, hf]

/-! ## The preconditions -/

@[simp] theorem Ctl.isIdle_iff (c : Ctl) : c.isIdle = true ↔ c.state = .idle := by
  simp [Ctl.isIdle]

@[simp] theorem Ctl.isActive_iff (c : Ctl) : c.isActive = true ↔ c.state = .active := by
  simp [Ctl.isActive]

@[simp] theorem Dec.betweenRasters_iff (u : Dec) : u.betweenRasters = true ↔ u.ctl.state = .active ∧ u.rem = 0#24 := by
  simp [Dec.betweenRasters]

@[simp] theorem Dec.owesPixel_iff (u : Dec) : u.owesPixel = true ↔ u.ctl.state = .active ∧ u.rem ≠ 0#24 := by
  simp [Dec.owesPixel]

end Sys2Proof.Machine
end

