-- ==== Sys2Proof/Laws/Encoder.lean ====
section
/-! SUPPORT. What the encoder's shared operations can do, said once: the row-major position as one number, the shift
step (R93), its repetition, and the padding loop (R95). -/

namespace Sys2Proof.Machine

/-! ## Geometry -/

/-- The 24-bit product is exact (00_scope.md R7 (a)). -/
theorem area_toNat (rows cols : Dim) : (area rows cols).toNat = rows.toNat * cols.toNat := by
  have hr := rows.isLt
  have hc := cols.isLt
  have h : rows.toNat * cols.toNat < 2 ^ 24 :=
    Nat.lt_of_le_of_lt (Nat.mul_le_mul (Nat.le_of_lt_succ hr) (Nat.le_of_lt_succ hc)) (by norm_num)
  simp only [area, BitVec.toNat_mul, BitVec.toNat_setWidth]
  rw [Nat.mod_eq_of_lt (a := rows.toNat) (by omega), Nat.mod_eq_of_lt (a := cols.toNat) (by omega),
    Nat.mod_eq_of_lt h]

theorem geomOk_iff (rows cols : Nat) : geomOk rows cols = true ↔ 1 ≤ rows ∧ 1 ≤ cols ∧ rows * cols % 8 = 0 := by
  simp [geomOk]

/-- A legal geometry holds at least one byte. -/
theorem capacity_pos {u : Enc} (h : geomOk u.rows.toNat u.cols.toNat = true) : 0 < u.capacity := by
  obtain ⟨hr, hc, -⟩ := (geomOk_iff _ _).1 h
  exact Nat.mul_pos hr hc

/-! ## The position as one number

`u.atPix k` is the unit `u` about to emit event number `k` of a transaction, by the row-major map of 20_memory.md
R44. -/

/-- The unit with its counters where they stand before event number `k`. -/
def Enc.atPix (u : Enc) (k : Nat) : Enc :=
  { u with row := BitVec.ofNat 12 (k % u.capacity / u.cols.toNat), col := BitVec.ofNat 12 (k % u.capacity % u.cols.toNat),
           ras := BitVec.ofNat 32 (k / u.capacity) }

@[simp] theorem Enc.atPix_rows (u : Enc) (k : Nat) : (u.atPix k).rows = u.rows := rfl
@[simp] theorem Enc.atPix_cols (u : Enc) (k : Nat) : (u.atPix k).cols = u.cols := rfl
@[simp] theorem Enc.atPix_ctl (u : Enc) (k : Nat) : (u.atPix k).ctl = u.ctl := rfl
@[simp] theorem Enc.atPix_sr (u : Enc) (k : Nat) : (u.atPix k).sr = u.sr := rfl
@[simp] theorem Enc.atPix_capacity (u : Enc) (k : Nat) : (u.atPix k).capacity = u.capacity := rfl
@[simp] theorem Enc.atPix_atPix (u : Enc) (k l : Nat) : (u.atPix k).atPix l = u.atPix l := rfl

/-- Changing the shift register does not move the position. -/
theorem Enc.atPix_withSr (u : Enc) (k : Nat) (v : Byte) : { u.atPix k with sr := v } = { u with sr := v }.atPix k := rfl

theorem Enc.row_lt {u : Enc} (h : geomOk u.rows.toNat u.cols.toNat = true) (k : Nat) :
    k % u.capacity / u.cols.toNat < u.rows.toNat := by
  have hk := Nat.mod_lt k (capacity_pos h)
  exact Nat.div_lt_of_lt_mul (by rw [Nat.mul_comm]; exact hk)

theorem Enc.col_lt {u : Enc} (h : geomOk u.rows.toNat u.cols.toNat = true) (k : Nat) :
    k % u.capacity % u.cols.toNat < u.cols.toNat :=
  Nat.mod_lt _ ((geomOk_iff _ _).1 h).2.1

theorem Enc.atPix_row_toNat {u : Enc} (h : geomOk u.rows.toNat u.cols.toNat = true) (k : Nat) :
    (u.atPix k).row.toNat = k % u.capacity / u.cols.toNat := by
  have := Enc.row_lt h k
  have := u.rows.isLt
  simp only [Enc.atPix, BitVec.toNat_ofNat]
  exact Nat.mod_eq_of_lt (by omega)

theorem Enc.atPix_col_toNat {u : Enc} (h : geomOk u.rows.toNat u.cols.toNat = true) (k : Nat) :
    (u.atPix k).col.toNat = k % u.capacity % u.cols.toNat := by
  have := Enc.col_lt h k
  have := u.cols.isLt
  simp only [Enc.atPix, BitVec.toNat_ofNat]
  exact Nat.mod_eq_of_lt (by omega)

/-- `POS` before event number `k` is `k mod C` (10_state.md R16). -/
theorem Enc.atPix_pos {u : Enc} (h : geomOk u.rows.toNat u.cols.toNat = true) (k : Nat) :
    (u.atPix k).pos = k % u.capacity := by
  simp only [Enc.pos, Enc.atPix_row_toNat h, Enc.atPix_col_toNat h, Enc.atPix_cols]
  rw [Nat.mul_comm]
  exact Nat.div_add_mod _ _

/-- A unit inside its raster stands before event number `RAS * C + POS`. -/
theorem Enc.eq_atPix {u : Enc} (hr : u.row.toNat < u.rows.toNat) (hc : u.col.toNat < u.cols.toNat) :
    u = u.atPix (u.ras.toNat * u.capacity + u.pos) := by
  have hpos : u.pos < u.capacity := by
    simp only [Enc.pos, Enc.capacity]
    calc u.row.toNat * u.cols.toNat + u.col.toNat < (u.row.toNat + 1) * u.cols.toNat := by
          rw [Nat.add_mul]; omega
      _ ≤ u.rows.toNat * u.cols.toNat := Nat.mul_le_mul_right _ hr
  have hmod : (u.ras.toNat * u.capacity + u.pos) % u.capacity = u.pos := by
    rw [Nat.add_comm, Nat.add_mul_mod_self_right, Nat.mod_eq_of_lt hpos]
  have hdiv : (u.ras.toNat * u.capacity + u.pos) / u.capacity = u.ras.toNat := by
    rw [Nat.add_comm, Nat.add_mul_div_right _ _ (by omega), Nat.div_eq_of_lt hpos, Nat.zero_add]
  have hrow : u.pos / u.cols.toNat = u.row.toNat := by
    simp only [Enc.pos]
    rw [Nat.add_comm, Nat.add_mul_div_right _ _ (by omega), Nat.div_eq_of_lt hc, Nat.zero_add]
  have hcol : u.pos % u.cols.toNat = u.col.toNat := by
    simp only [Enc.pos]
    rw [Nat.add_comm, Nat.add_mul_mod_self_right, Nat.mod_eq_of_lt hc]
  simp only [Enc.atPix, hmod, hdiv, hrow, hcol, BitVec.ofNat_toNat, BitVec.setWidth_eq]

/-- A unit at (0, 0) with raster number 0 stands before event number 0. -/
theorem Enc.atPix_zero (u : Enc) : u.atPix 0 = { u with row := 0#12, col := 0#12, ras := 0#32 } := by
  simp [Enc.atPix]

/-! ## The position tests -/

theorem dim_eq_pred_iff {d n : Dim} (hn : 1 ≤ n.toNat) : d = n - 1#12 ↔ d.toNat + 1 = n.toNat := by
  rw [← BitVec.toNat_inj, BitVec.toNat_sub]
  have := d.isLt
  have := n.isLt
  simp
  omega

/-- The last pixel of a raster is the one before a multiple of the capacity. -/
theorem Enc.atPix_atLast {u : Enc} (h : geomOk u.rows.toNat u.cols.toNat = true) (k : Nat) :
    (u.atPix k).atLast = decide (k % u.capacity + 1 = u.capacity) := by
  obtain ⟨hr, hc, -⟩ := (geomOk_iff _ _).1 h
  have h1 := Enc.atPix_row_toNat h k
  have h2 := Enc.atPix_col_toNat h k
  have hrl := Enc.row_lt h k
  have hcl := Enc.col_lt h k
  have hdm : u.cols.toNat * (k % u.capacity / u.cols.toNat) + k % u.capacity % u.cols.toNat = k % u.capacity :=
    Nat.div_add_mod _ _
  rw [Bool.eq_iff_iff]
  simp only [Enc.atLast, Enc.atPix_rows, Enc.atPix_cols, Bool.and_eq_true, beq_iff_eq, decide_eq_true_eq,
    dim_eq_pred_iff hr, dim_eq_pred_iff hc, h1, h2]
  generalize k % u.capacity / u.cols.toNat = a at *
  generalize k % u.capacity % u.cols.toNat = b at *
  rw [← hdm]
  simp only [Enc.capacity]
  constructor
  · rintro ⟨ha, hb⟩
    rw [← ha, ← hb]; ring
  · intro he
    have hle : u.cols.toNat * (a + 1) ≤ u.cols.toNat * u.rows.toNat := Nat.mul_le_mul_left _ hrl
    have hge : u.cols.toNat * (a + 1) = u.cols.toNat * a + u.cols.toNat := by ring
    have hcomm : u.rows.toNat * u.cols.toNat = u.cols.toNat * u.rows.toNat := Nat.mul_comm _ _
    have hb : b + 1 = u.cols.toNat := by omega
    refine ⟨?_, hb⟩
    have : u.cols.toNat * (a + 1) = u.cols.toNat * u.rows.toNat := by omega
    exact Nat.eq_of_mul_eq_mul_left hc this

/-- The position is (0, 0) exactly before a multiple of the capacity. -/
theorem Enc.atPix_atOrigin {u : Enc} (h : geomOk u.rows.toNat u.cols.toNat = true) (k : Nat) :
    (u.atPix k).atOrigin = decide (k % u.capacity = 0) := by
  obtain ⟨-, hc, -⟩ := (geomOk_iff _ _).1 h
  have h1 := Enc.atPix_row_toNat h k
  have h2 := Enc.atPix_col_toNat h k
  have hdm : u.cols.toNat * (k % u.capacity / u.cols.toNat) + k % u.capacity % u.cols.toNat = k % u.capacity :=
    Nat.div_add_mod _ _
  rw [Bool.eq_iff_iff]
  simp only [Enc.atOrigin, Bool.and_eq_true, beq_iff_eq, decide_eq_true_eq, ← BitVec.toNat_inj, h1, h2]
  generalize k % u.capacity / u.cols.toNat = a at *
  generalize k % u.capacity % u.cols.toNat = b at *
  simp only [BitVec.toNat_ofNat, Nat.zero_mod]
  constructor
  · rintro ⟨rfl, rfl⟩; simpa using hdm.symm
  · intro he
    rw [he] at hdm
    have h0 : u.cols.toNat * a = 0 := by omega
    rcases Nat.mul_eq_zero.1 h0 with h' | h' <;> omega

/-! ## The shift step -/

theorem mod_succ_of_lt {k c : Nat} (h : k % c + 1 < c) : (k + 1) % c = k % c + 1 ∧ (k + 1) / c = k / c := by
  have hc : 0 < c := by omega
  have hdm : c * (k / c) + k % c = k := Nat.div_add_mod k c
  have he : k + 1 = (k % c + 1) + (k / c) * c := by rw [Nat.mul_comm (k / c)]; omega
  constructor
  · rw [he, Nat.add_mul_mod_self_right, Nat.mod_eq_of_lt h]
  · conv_lhs => rw [he]
    rw [Nat.add_mul_div_right _ _ hc, Nat.div_eq_of_lt h, Nat.zero_add]

theorem mod_succ_of_eq {k c : Nat} (h : k % c + 1 = c) : (k + 1) % c = 0 ∧ (k + 1) / c = k / c + 1 := by
  have hc : 0 < c := by omega
  have hdm : c * (k / c) + k % c = k := Nat.div_add_mod k c
  have he : k + 1 = 0 + (k / c + 1) * c := by rw [Nat.add_mul, Nat.mul_comm (k / c)]; omega
  constructor
  · rw [he, Nat.add_mul_mod_self_right, Nat.zero_mod]
  · conv_lhs => rw [he]
    rw [Nat.add_mul_div_right _ _ hc, Nat.zero_div, Nat.zero_add]

/-- The counters advance by one event, in row-major order (41_encoder_commands.md R93). -/
theorem Enc.atPix_advance {u : Enc} (h : geomOk u.rows.toNat u.cols.toNat = true) (k : Nat) :
    (u.atPix k).advance = u.atPix (k + 1) := by
  obtain ⟨-, hc, -⟩ := (geomOk_iff _ _).1 h
  have hlast := Enc.atPix_atLast h k
  have h2 := Enc.atPix_col_toNat h k
  have hlt := Nat.mod_lt k (capacity_pos h)
  unfold Enc.advance
  rw [hlast]
  by_cases hl : k % u.capacity + 1 = u.capacity
  · obtain ⟨hm, hd⟩ := mod_succ_of_eq hl
    simp only [hl, decide_true, if_true]
    simp only [Enc.atPix, hm, hd, Nat.zero_div, Nat.zero_mod, BitVec.ofNat_add]
  · obtain ⟨hm, hd⟩ := mod_succ_of_lt (show k % u.capacity + 1 < u.capacity by omega)
    simp only [hl, decide_false, Bool.false_eq_true, if_false, Enc.atPix_cols, beq_iff_eq, dim_eq_pred_iff hc, h2]
    by_cases hcl : k % u.capacity % u.cols.toNat + 1 = u.cols.toNat
    · obtain ⟨hm', hd'⟩ := mod_succ_of_eq hcl
      simp only [hcl, if_true]
      simp only [Enc.atPix, hm, hd, hm', hd', BitVec.ofNat_add]
    · have := Enc.col_lt h k
      obtain ⟨hm', hd'⟩ := mod_succ_of_lt (show k % u.capacity % u.cols.toNat + 1 < u.cols.toNat by omega)
      simp only [hcl, if_false]
      simp only [Enc.atPix, hm, hd, hm', hd', BitVec.ofNat_add]

/-- The event is the one R44 gives event number `k`. -/
theorem Enc.atPix_pixEvent {u : Enc} (h : geomOk u.rows.toNat u.cols.toNat = true) (k : Nat) (v : Byte) :
    (u.atPix k).pixEvent v = mappedPix u.rows u.cols k v := by
  have hlast := Enc.atPix_atLast h k
  simp only [Enc.pixEvent, mappedPix, hlast]
  simp only [Enc.atPix, Enc.capacity, Pix.mk.injEq, true_and]
  rw [Bool.eq_iff_iff, beq_iff_eq]
  exact ⟨fun e => of_decide_eq_true e, fun e => decide_eq_true e⟩

/-- Everything one shift step does (41_encoder_commands.md R93). -/
theorem encShift_atPix {u : Enc} (h : geomOk u.rows.toNat u.cols.toNat = true) (k : Nat) :
    encShift (u.atPix k) =
      ({ u with sr := u.sr <<< 1 }.atPix (k + 1), mappedPix u.rows u.cols k (pix u.sr.msb)) := by
  unfold encShift
  rw [Enc.atPix_pixEvent h, Enc.atPix_sr, Enc.atPix_withSr,
    Enc.atPix_advance (u := { u with sr := u.sr <<< 1 }) h]

/-- The pixel values that `n` shift steps send out. -/
def shiftedOut : Nat → Byte → List Byte
  | 0, _ => []
  | n + 1, v => pix v.msb :: shiftedOut n (v <<< 1)

/-- The shift register after `n` shift steps. -/
def shiftedBy : Nat → Byte → Byte
  | 0, v => v
  | n + 1, v => shiftedBy n (v <<< 1)

/-- Everything `n` shift steps do. -/
theorem encShifts_atPix (n : Nat) {u : Enc} (h : geomOk u.rows.toNat u.cols.toNat = true) (k : Nat) :
    encShifts n (u.atPix k) =
      ({ u with sr := shiftedBy n u.sr }.atPix (k + n), mappedPixels u.rows u.cols k (shiftedOut n u.sr)) := by
  induction n generalizing u k with
  | zero => rfl
  | succ n ih =>
    simp only [encShifts, encShift_atPix h]
    rw [ih (u := { u with sr := u.sr <<< 1 }) h]
    simp only [shiftedBy, shiftedOut, mappedPixels, Nat.add_right_comm, Nat.add_assoc]

/-- Eight shift steps empty the shift register (10_state.md R18). -/
theorem shiftedBy_eight (v : Byte) : shiftedBy 8 v = 0#8 := by
  simp only [shiftedBy]
  ext i hi
  simp

/-- Eight shift steps send the byte out, most significant bit first (20_memory.md R49). -/
theorem shiftedOut_eight (v : Byte) : shiftedOut 8 v = (byteBits v).map pix := by
  simp [shiftedOut, byteBits, List.range_succ, BitVec.msb_eq_getLsbD_last]

theorem shiftedBy_zero (n : Nat) : shiftedBy n 0#8 = 0#8 := by
  induction n with
  | zero => rfl
  | succ n ih => simpa [shiftedBy] using ih

theorem shiftedOut_zero (n : Nat) : shiftedOut n 0#8 = List.replicate n Config.pix0 := by
  induction n with
  | zero => rfl
  | succ n ih =>
    have h0 : (0#8 : Byte) <<< 1 = 0#8 := by decide
    simp only [shiftedOut, h0, ih, List.replicate_succ]
    rfl

/-! ## The padding loop -/

/-- Everything the padding loop does from inside a raster: it ends, after `C - k mod C` pixels of value 0x00 where the
position is not (0, 0) and none where it is, at (0, 0) (41_encoder_commands.md R95). -/
theorem encPad_atPix (n : Nat) {u : Enc} (h : geomOk u.rows.toNat u.cols.toNat = true) (hsr : u.sr = 0#8) (k : Nat)
    (hn : (u.capacity - k % u.capacity) % u.capacity ≤ n) :
    encPad n (u.atPix k) =
      some (u.atPix (k + (u.capacity - k % u.capacity) % u.capacity),
        mappedPixels u.rows u.cols k
          (List.replicate ((u.capacity - k % u.capacity) % u.capacity) Config.pix0)) := by
  have hpos := capacity_pos h
  have hlt := Nat.mod_lt k hpos
  induction n generalizing k with
  | zero =>
    have h0 : (u.capacity - k % u.capacity) % u.capacity = 0 := by omega
    have hz : k % u.capacity = 0 := by
      by_contra hne
      rw [Nat.mod_eq_of_lt (by omega)] at h0
      omega
    simp [encPad, Enc.atPix_atOrigin h, hz, mappedPixels]
  | succ n ih =>
    by_cases hz : k % u.capacity = 0
    · simp [encPad, Enc.atPix_atOrigin h, hz, mappedPixels]
    · have hd : (u.capacity - k % u.capacity) % u.capacity = u.capacity - k % u.capacity := Nat.mod_eq_of_lt (by omega)
      have hstep : (u.capacity - (k + 1) % u.capacity) % u.capacity + 1 = u.capacity - k % u.capacity := by
        by_cases hl : k % u.capacity + 1 = u.capacity
        · rw [(mod_succ_of_eq hl).1, Nat.sub_zero, Nat.mod_self]; omega
        · rw [(mod_succ_of_lt (by omega)).1, Nat.mod_eq_of_lt (by omega)]; omega
      have hu : { u with sr := u.sr <<< 1 } = u := by
        rw [hsr]; cases u; simp_all
      have := ih (k := k + 1) (by omega) (Nat.mod_lt _ hpos)
      rw [hd]
      simp only [encPad, Enc.atPix_atOrigin h, hz, decide_false, Bool.false_eq_true, if_false, encShift_atPix h, hu,
        this, Option.map_some, ← hstep]
      rw [List.replicate_succ, mappedPixels, hsr]
      simp only [show k + 1 + (u.capacity - (k + 1) % u.capacity) % u.capacity =
        k + ((u.capacity - (k + 1) % u.capacity) % u.capacity + 1) by omega]
      rfl

end Sys2Proof.Machine
end

