-- ==== Sys2Proof/Laws/PerInstr.lean ====
section
/-! SUPPORT. Families of statements with one lemma for each command. `RowFixed`: the encoder's word shows the row's
fixed bits, for every operand value (30_encoding.md R67). -/

namespace Sys2Proof.Laws.RowFixed

open Sys2Proof

/-- The command's word agrees with its row of R67 on the row's fixed bits, and its `op` is the row's. -/
def Statement (i : Instr) : Prop :=
  encode i &&& i.row.mask = i.row.pattern ∧ opField (encode i) = opField i.row.pattern

theorem nop : Statement .nop := by unfold Statement; decide
theorem sysReset : Statement .sysReset := by unfold Statement; decide
theorem rdsr (idx : BitVec 4) : Statement (.rdsr idx) := by unfold Statement; revert idx; decide
theorem encStart : Statement .encStart := by unfold Statement; decide
theorem encEnd : Statement .encEnd := by unfold Statement; decide
theorem encAbort : Statement .encAbort := by unfold Statement; decide
theorem decStart : Statement .decStart := by unfold Statement; decide
theorem decEnd : Statement .decEnd := by unfold Statement; decide
theorem decAbort : Statement .decAbort := by unfold Statement; decide

theorem decCfg (mode : StripMode) : Statement (.decCfg mode) := by
  unfold Statement; cases mode <;> decide

/-- A mask acts on the parts of a concatenation. -/
theorem append_and {n m : Nat} (a c : BitVec n) (b d : BitVec m) : (a ++ b) &&& (c ++ d) = (a &&& c) ++ (b &&& d) := by
  ext i hi
  simp only [BitVec.getElem_and, BitVec.getElem_append]
  split <;> simp

/-- The fixed bits of a format G row are the `op` bits. -/
theorem maskG (op : BitVec 8) (rows cols : Dim) :
    (op ++ rows ++ cols : Word) &&& 0xFF000000#32 = op ++ 0#12 ++ 0#12 :=
  (append_and (op ++ rows) (0xFF#8 ++ 0#12) cols 0#12).trans (by
    rw [append_and, BitVec.and_zero, BitVec.and_zero, show (0xFF#8 : BitVec 8) = BitVec.allOnes 8 by decide,
      BitVec.and_allOnes])

/-- The fixed bits of a format B row are the `op` bits and the must-be-zero bits. -/
theorem maskB (op : BitVec 8) (imm8 : Byte) :
    (op ++ 0#16 ++ imm8 : Word) &&& 0xFFFFFF00#32 = op ++ 0#16 ++ 0#8 :=
  (append_and (op ++ 0#16) (0xFF#8 ++ 0xFFFF#16) imm8 0#8).trans (by
    rw [append_and, BitVec.and_zero, BitVec.zero_and, show (0xFF#8 : BitVec 8) = BitVec.allOnes 8 by decide,
      BitVec.and_allOnes])

theorem encCfg (rows cols : Dim) : Statement (.encCfg rows cols) :=
  ⟨(maskG 0x10#8 rows cols).trans (show (0x10#8 ++ 0#12 ++ 0#12 : Word) = 0x10000000#32 by decide),
   (opField_g 0x10#8 rows cols).trans (show 0x10#8 = opField 0x10000000#32 by decide)⟩

theorem decRaster (rows cols : Dim) : Statement (.decRaster rows cols) :=
  ⟨(maskG 0x22#8 rows cols).trans (show (0x22#8 ++ 0#12 ++ 0#12 : Word) = 0x22000000#32 by decide),
   (opField_g 0x22#8 rows cols).trans (show 0x22#8 = opField 0x22000000#32 by decide)⟩

theorem encByte (imm8 : Byte) : Statement (.encByte imm8) :=
  ⟨(maskB 0x12#8 imm8).trans (show (0x12#8 ++ 0#16 ++ 0#8 : Word) = 0x12000000#32 by decide),
   (opField_b 0x12#8 0#16 imm8).trans (show 0x12#8 = opField 0x12000000#32 by decide)⟩

theorem decPix (imm8 : Byte) : Statement (.decPix imm8) :=
  ⟨(maskB 0x23#8 imm8).trans (show (0x23#8 ++ 0#16 ++ 0#8 : Word) = 0x23000000#32 by decide),
   (opField_b 0x23#8 0#16 imm8).trans (show 0x23#8 = opField 0x23000000#32 by decide)⟩

end Sys2Proof.Laws.RowFixed
end

