-- ==== Sys2Proof/Laws/Step.lean ====
section
/-! SUPPORT. What one step, one accepted word and a list of commands can do, said once. -/

namespace Sys2Proof.Machine

/-- Everything a step that answers a next state did. -/
theorem step_cases {s t : State} (h : step s = .next t) :
    s.legal = true ∧ ((s.input = [] ∧ t = s) ∨
      ∃ item rest, s.input = item :: rest ∧ present item (s.setInput rest) = .next t) := by
  unfold step at h
  split at h
  · refine ⟨‹_›, ?_⟩
    unfold takeInput at h
    split at h
    · exact .inl ⟨‹_›, (Host.Outcome.next.inj h).symm⟩
    · exact .inr ⟨_, _, ‹_›, h⟩
  · cases h

/-- Everything an accepted word did. -/
theorem acceptWord_cases {w : Word} {s t : State} (h : acceptWord w s = .next t) :
    (∃ i, decode w = .ok i ∧ exec i s = .next t) ∨ (∃ e, decode w = .error e ∧ t = s.markIllegal) := by
  unfold acceptWord at h
  split at h
  · exact .inl ⟨_, ‹_›, h⟩
  · exact .inr ⟨_, ‹_›, (Host.Outcome.next.inj h).symm⟩

/-- Everything a command cut short by the hardware reset did. -/
theorem resetDuring_cases {w : Word} {n : Nat} {s t : State} (h : resetDuring w n s = .next t) :
    ∃ whole, acceptWord w s = .next whole ∧ t = cutShort n s whole := by
  unfold resetDuring at h
  split at h
  · exact ⟨_, ‹_›, (Host.Outcome.next.inj h).symm⟩
  · cases h
  · cases h

/-- A list of commands that goes through passes its head. -/
theorem execAll_cons {i : Instr} {is : List Instr} {s t : State} :
    execAll (i :: is) s = .next t ↔ ∃ u, exec i s = .next u ∧ execAll is u = .next t := by
  simp only [execAll]
  constructor
  · intro h
    split at h
    · exact ⟨_, ‹_›, h⟩
    · cases h
    · cases h
  · rintro ⟨u, hu, h⟩
    rw [hu]
    exact h

/-- Two command lists one after the other. -/
theorem execAll_append {xs ys : List Instr} {s t : State} :
    execAll (xs ++ ys) s = .next t ↔ ∃ u, execAll xs s = .next u ∧ execAll ys u = .next t := by
  induction xs generalizing s with
  | nil =>
    constructor
    · exact fun h => ⟨s, rfl, h⟩
    · rintro ⟨u, hu, h⟩
      cases hu
      exact h
  | cons i is ih =>
    simp only [List.cons_append, execAll_cons, ih]
    constructor
    · rintro ⟨v, hv, u, hu, h⟩
      exact ⟨u, ⟨v, hv, hu⟩, h⟩
    · rintro ⟨u, ⟨v, hv, hu⟩, h⟩
      exact ⟨v, hv, u, hu, h⟩

end Sys2Proof.Machine
end

