-- ==== Sys2Proof/Tests/Slice0.lean ====
section
/-! SUPPORT. Our own tests. Expected values are those of spec/95_test_vectors.md (named by section) or words written out
from 30_encoding.md R67; the witnesses at the end show states and operands that meet the hypotheses of the statements. -/

namespace Sys2Proof.Tests

open Sys2Proof Sys2Proof.Machine

/-! ## Helpers -/

/-- The state after a list of commands; the start state where the list stops. -/
def after (is : List Instr) (s : State) : State :=
  match execAll is s with
  | .next t => t
  | .fault _ => s
  | .refused _ => s

/-- The state after one step; the start state where it stops. -/
def stepped (s : State) : State :=
  match step s with
  | .next t => t
  | .fault _ => s
  | .refused _ => s

/-- The outcome is a next state. -/
def isNext (r : Result) : Bool :=
  match r with
  | .next _ => true
  | .fault _ => false
  | .refused _ => false

/-- The reset state with the encoder open at a position. -/
def encAt (rows cols row col : Dim) : State :=
  { State.reset with enc := { Enc.reset with rows := rows, cols := cols, row := row, col := col,
                                             ctl := { state := .active, err := .none } } }

/-- The reset state with a geometry stored and no transaction open. -/
def encGeo (rows cols : Dim) : State := { State.reset with enc := { Enc.reset with rows := rows, cols := cols } }

/-- The reset state with the encoder in `FAULT`. -/
def encFaulted : State := { State.reset with enc := { Enc.reset with ctl := { state := .fault, err := .config } } }

/-- The reset state with the decoder in `FAULT`. -/
def decFaulted : State := { State.reset with dec := { Dec.reset with ctl := { state := .fault, err := .pixel } } }

/-- The reset state with the decoder in a raster of shape 1 by 8. -/
def decAt (mode : StripMode) (rem : PixCount) (sr : Byte) (bc : BitVec 3) (zrun : BitVec 32) : State :=
  { State.reset with dec := { mode := mode, ctl := { state := .active, err := .none }, rows := 1#12, cols := 8#12,
                              haveShape := true, rem := rem, sr := sr, bc := bc, zrun := zrun } }

/-! ## Well-formedness (30_encoding.md R65, R67) -/

theorem test_wf_refuses_rdsr_9 : (Instr.rdsr 9).wellFormed = false := by decide
theorem test_wf_refuses_rdsr_15 : (Instr.rdsr 15).wellFormed = false := by decide
theorem test_wf_accepts_rdsr_8 : (Instr.rdsr 8).wellFormed = true := by decide

/-! ## Decoding, a word for every command (95_test_vectors.md 3.1) -/

theorem test_decode_nop : decode 0x00000000#32 = .ok .nop := by rfl
theorem test_decode_sys_reset : decode 0x01000000#32 = .ok .sysReset := by rfl
theorem test_decode_rdsr_0 : decode 0x02000000#32 = .ok (.rdsr 0) := by rfl
theorem test_decode_rdsr_8 : decode 0x02000008#32 = .ok (.rdsr 8) := by rfl
theorem test_decode_enc_cfg_2_12 : decode 0x1000200C#32 = .ok (.encCfg 2 12) := by rfl
theorem test_decode_enc_cfg_max : decode 0x10FFFFFF#32 = .ok (.encCfg 4095 4095) := by rfl
theorem test_decode_enc_start : decode 0x11000000#32 = .ok .encStart := by rfl
theorem test_decode_enc_byte : decode 0x12000048#32 = .ok (.encByte 0x48) := by rfl
theorem test_decode_enc_end : decode 0x13000000#32 = .ok .encEnd := by rfl
theorem test_decode_enc_abort : decode 0x14000000#32 = .ok .encAbort := by rfl
theorem test_decode_dec_cfg_trailing : decode 0x20000000#32 = .ok (.decCfg .trailing) := by rfl
theorem test_decode_dec_cfg_all : decode 0x20000001#32 = .ok (.decCfg .all) := by rfl
theorem test_decode_dec_start : decode 0x21000000#32 = .ok .decStart := by rfl
theorem test_decode_dec_raster_0_5 : decode 0x22000005#32 = .ok (.decRaster 0 5) := by rfl
theorem test_decode_dec_raster_104 : decode 0x22068068#32 = .ok (.decRaster 104 104) := by rfl
theorem test_decode_dec_pix : decode 0x2300007F#32 = .ok (.decPix 0x7F) := by rfl
theorem test_decode_dec_end : decode 0x24000000#32 = .ok .decEnd := by rfl
theorem test_decode_dec_abort : decode 0x25000000#32 = .ok .decAbort := by rfl

/-! ## Illegal words (95_test_vectors.md 3.1; R69 by case, at the ends of the unassigned ranges) -/

theorem test_illegal_unassigned :
    ([0x03000000#32, 0x0F000000#32, 0x15000000#32, 0x1F000000#32, 0x26000000#32, 0x2F000000#32, 0x30000000#32,
      0x80000000#32, 0xFFFFFFFF#32].all fun w => decodeTableWord 32 w.toNat == none) = true := by decide
theorem test_illegal_must_be_zero :
    ([0x00000001#32, 0x01000100#32, 0x02000010#32, 0x11000001#32, 0x12000100#32, 0x13800000#32, 0x20000002#32,
      0x23000100#32, 0x24800000#32].all fun w => decodeTableWord 32 w.toNat == none) = true := by decide
theorem test_illegal_reserved_index : decode 0x02000009#32 = .error (.reservedIndex 9) := by rfl
theorem test_illegal_reserved_index_15 : decode 0x0200000F#32 = .error (.reservedIndex 15) := by rfl
theorem test_illegal_sets_ill_only :
    stepped { State.reset with input := [.word 0x01000100#32] } = { State.reset with sys := { ill := true } } := by
  decide

/-! ## Encoding back -/

theorem test_encode_enc_cfg : encode (.encCfg 104 104) = 0x10068068#32 := by decide
theorem test_encode_dec_cfg : encode (.decCfg .all) = 0x20000001#32 := by decide
theorem test_encode_rdsr : encode (.rdsr 8) = 0x02000008#32 := by decide
theorem test_table_word : decodeTableWord 32 0x10004004 = some (.encCfg 4 4) := by decide
theorem test_fetch_word : stepped (State.reset.withFetchWord 32 0x10003003) = encGeo 3 3 := by decide

/-! ## The system commands (95_test_vectors.md 3.2) -/

theorem test_nop_in_fault : after [.nop] encFaulted = encFaulted := by decide
theorem test_sys_reset :
    after [.encCfg 3 3, .encStart, .decCfg .all, .sysReset] { State.reset with sys := { ill := true } } = .reset := by
  decide
theorem test_rdsr_reset_values :
    (after ([0, 1, 2, 3, 4, 5, 6, 7, 8].map Instr.rdsr) .reset).rspOut =
      [0x00000000#32, 0x00068068#32, 0#32, 0#32, 0#32, 0#32, 0#32, 0#32, 0#32] := by decide
theorem test_rdsr_inside_transaction :
    (after [.encCfg 4 4, .encStart, .encByte 0x48, .rdsr 3, .rdsr 2, .rdsr 1, .rdsr 4] .reset).rspOut =
      [0x00002000#32, 0x00000001#32, 0x00004004#32, 0x00000000#32] := by decide

/-! ## The encoder (95_test_vectors.md P1, P3, P4, 3.3, 3.4, 3.6) -/

theorem test_enc_cfg_stores : statusReg 1 (after [.encCfg 2 12] .reset) = some 0x0000200C#32 := by decide
theorem test_enc_cfg_in_active_is_seq :
    statusReg 2 (after [.encStart, .encCfg 4 4] .reset) = some 0x00000042#32 ∧
      statusReg 1 (after [.encStart, .encCfg 4 4] .reset) = some 0x00068068#32 := by decide
theorem test_enc_start_refuses_3_3 : statusReg 2 (after [.encStart] (encGeo 3 3)) = some 0x00000012#32 := by decide
theorem test_enc_start_accepts_2_12 : statusReg 2 (after [.encStart] (encGeo 2 12)) = some 0x00000001#32 := by decide
theorem test_enc_byte_0x69_at_second_half :
    (after [.encByte 0x69] (encAt 4 4 2 0)).pixOut =
      [⟨0x00, 0, 2, 0, false⟩, ⟨0xFF, 0, 2, 1, false⟩, ⟨0xFF, 0, 2, 2, false⟩, ⟨0x00, 0, 2, 3, false⟩,
       ⟨0xFF, 0, 3, 0, false⟩, ⟨0x00, 0, 3, 1, false⟩, ⟨0x00, 0, 3, 2, false⟩, ⟨0xFF, 0, 3, 3, true⟩] ∧
    statusReg 3 (after [.encByte 0x69] (encAt 4 4 2 0)) = some 0x00000000#32 ∧
    statusReg 4 (after [.encByte 0x69] (encAt 4 4 2 0)) = some 0x00000001#32 := by decide
theorem test_enc_byte_straddles_row :
    ((after [.encByte 0x4F] (encAt 4 6 0 0)).pixOut.map Pix.val) = [0, 0xFF, 0, 0, 0xFF, 0xFF, 0xFF, 0xFF] ∧
      statusReg 3 (after [.encByte 0x4F] (encAt 4 6 0 0)) = some 0x00001002#32 := by decide
theorem test_enc_end_pads :
    (after [.encEnd] (encAt 2 8 1 0)).pixOut =
      [⟨0, 0, 1, 0, false⟩, ⟨0, 0, 1, 1, false⟩, ⟨0, 0, 1, 2, false⟩, ⟨0, 0, 1, 3, false⟩, ⟨0, 0, 1, 4, false⟩,
       ⟨0, 0, 1, 5, false⟩, ⟨0, 0, 1, 6, false⟩, ⟨0, 0, 1, 7, true⟩] ∧
    statusReg 4 (after [.encEnd] (encAt 2 8 1 0)) = some 1#32 ∧ statusReg 2 (after [.encEnd] (encAt 2 8 1 0)) = some 0#32 := by
  decide
theorem test_enc_end_without_padding : after [.encStart, .encEnd] .reset = .reset := by decide
theorem test_enc_abort_keeps_geometry : after [.encAbort] (encAt 1 8 0 0) = encGeo 1 8 := by decide
theorem test_enc_abort_leaves_fault : (after [.encAbort] encFaulted) = .reset := by decide

/-! ## The decoder (95_test_vectors.md P2, 3.5, 3.6) -/

theorem test_dec_cfg_all : statusReg 6 (after [.decCfg .all] .reset) = some 0x00000004#32 := by decide
theorem test_dec_cfg_in_active_is_seq : statusReg 6 (after [.decStart, .decCfg .all] .reset) = some 0x00000042#32 := by
  decide
theorem test_dec_start : statusReg 6 (after [.decStart] .reset) = some 0x00000001#32 := by decide
theorem test_dec_start_twice_is_seq : statusReg 6 (after [.decStart, .decStart] .reset) = some 0x00000042#32 := by decide
theorem test_dec_raster_latches :
    statusReg 5 (after [.decStart, .decRaster 4 4] .reset) = some 0x01004004#32 ∧
      statusReg 7 (after [.decStart, .decRaster 4 4] .reset) = some 0x00000010#32 := by decide
theorem test_dec_raster_compares_rows_and_cols :
    statusReg 6 (after [.decRaster 8 1] (decAt .trailing 0 0 0 0)) = some 0x00000022#32 ∧
      statusReg 5 (after [.decRaster 8 1] (decAt .trailing 0 0 0 0)) = some 0x01001008#32 := by decide
theorem test_dec_pix_third_of_0x48 :
    statusReg 6 (after [.decStart, .decRaster 4 4, .decPix 0x00, .decPix 0xFF, .decPix 0x00] .reset) =
      some 0x00030201#32 := by decide
theorem test_dec_pix_bad_value :
    statusReg 6 (after [.decPix 0xFF, .decPix 0x7F] (decAt .trailing 8 0 0 0)) = some 0x00010132#32 ∧
      statusReg 7 (after [.decPix 0xFF, .decPix 0x7F] (decAt .trailing 8 0 0 0)) = some 0x00000007#32 := by decide
theorem test_dec_pix_releases_held_zeros :
    (after [.decPix 0xFF] (decAt .trailing 1 0x20 7 2)).byteOut = [0x00#8, 0x00#8, 0x41#8] := by decide
theorem test_dec_pix_overflow :
    statusReg 6 (after [.decPix 0x00] (decAt .trailing 1 0 7 0xFFFFFFFF)) = some 0x00070052#32 ∧
      statusReg 8 (after [.decPix 0x00] (decAt .trailing 1 0 7 0xFFFFFFFF)) = some 0xFFFFFFFF#32 := by decide
theorem test_dec_pix_last_held_zero :
    statusReg 6 (after [.decPix 0x00] (decAt .trailing 1 0 7 0xFFFFFFFE)) = some 0x00000001#32 ∧
      statusReg 8 (after [.decPix 0x00] (decAt .trailing 1 0 7 0xFFFFFFFE)) = some 0xFFFFFFFF#32 := by decide
theorem test_dec_end_drops_group_and_zeros :
    (after [.decEnd] (decAt .trailing 0 0x03 2 5)).byteOut = [] ∧
      statusReg 6 (after [.decEnd] (decAt .trailing 0 0x03 2 5)) = some 0#32 ∧
      statusReg 5 (after [.decEnd] (decAt .trailing 0 0x03 2 5)) = some 0x01001008#32 ∧
      statusReg 8 (after [.decEnd] (decAt .trailing 0 0x03 2 5)) = some 0#32 := by decide
theorem test_dec_end_inside_raster :
    statusReg 6 (after [.decEnd] (decAt .trailing 7 0 1 0)) = some 0x00010042#32 := by decide
theorem test_dec_abort_clears : after [.decAbort] (decAt .trailing 7 0 1 2) = .reset := by decide
theorem test_dec_abort_keeps_mode :
    (after [.decAbort] (decAt .all 7 0 1 0)).dec = { Dec.reset with mode := .all } := by decide

/-! ## Reference functions and assembler (43_transactions.md R143; 30_encoding.md R72 to R75) -/

theorem test_strip_trailing : strip .trailing [0, 0x41, 0, 0x42, 0, 0] = [0, 0x41, 0, 0x42] := by decide
theorem test_strip_all : strip .all [0, 0x41, 0, 0x42, 0, 0] = [0x41, 0x42] := by decide
theorem test_bits_of_0x48 :
    bitsOf [0x48] = [false, true, false, false, true, false, false, false] := by decide
theorem test_assemble_hex : assembleLine "ENC_CFG 4, 0x0C  # geometry" = some [.encCfg 4 12] := by decide
theorem test_assemble_names : assembleLine "DEC_CFG ALL" = some [.decCfg .all] ∧
    assembleLine "RDSR DEC_ZRUN" = some [.rdsr 8] := by decide
theorem test_assemble_refuses : assembleLine "RDSR 9" = none ∧ assembleLine "ENC_BYTE 256" = none := by decide
theorem test_assemble_refuses_two_byte_char : assembleLine "ENC_BYTES \"é\"" = none := by decide
theorem test_assemble_string : assembleLine "ENC_BYTES \"Hi\"" = some [.encByte 0x48, .encByte 0x69] := by decide

/-! ## Witnesses: the hypotheses of the statements are met -/

theorem witness_DecodeOfEncode : (Instr.rdsr 8).wellFormed = true ∧ (Instr.encCfg 4095 0).wellFormed = true := by decide
theorem witness_EncodeOfDecode : decode 0x02000008#32 = .ok (.rdsr 8) ∧ decode 0x22FFF000#32 = .ok (.decRaster 4095 0) :=
  ⟨rfl, rfl⟩
theorem witness_DecodeAgreesWithOpcodeTable :
    Instr.row (.rdsr 0) ∈ opcodeTable ∧ 0x02000008#32 &&& (Instr.row (.rdsr 0)).mask = (Instr.row (.rdsr 0)).pattern := by
  decide
theorem witness_IllegalWordsSetIllOnly :
    State.reset.legal = true ∧ decode 0x26000000#32 = .error (.unassignedOp 0x26) ∧
      decode 0x00000001#32 = .error (.mustBeZero 0x00) ∧ decode 0x02000009#32 = .error (.reservedIndex 9) :=
  ⟨by decide, rfl, rfl, rfl⟩
theorem witness_RdsrEmitsStatusRegister :
    (8#4).toNat ≤ 8 ∧ 9 ≤ (9#4).toNat ∧ 9 ≤ (15#4).toNat ∧ 1#20 ≠ 0#20 := by decide
theorem witness_EncCfgStoresGeometry :
    State.reset.enc.ctl.state = .idle ∧ (encAt 1 8 0 0).enc.ctl.state = .active ∧ encFaulted.enc.ctl.state = .fault := by
  decide
theorem witness_EncStartOpensOrRefuses :
    ((encGeo 1 8).enc.ctl.state = .idle ∧ (encGeo 1 8).enc.rows ≠ 0#12 ∧ (encGeo 1 8).enc.cols ≠ 0#12 ∧
      (encGeo 1 8).enc.rows.toNat * (encGeo 1 8).enc.cols.toNat % 8 = 0) ∧
    ((encGeo 4095 4088).enc.rows ≠ 0#12 ∧ (encGeo 4095 4088).enc.cols ≠ 0#12 ∧
      (encGeo 4095 4088).enc.rows.toNat * (encGeo 4095 4088).enc.cols.toNat % 8 = 0) ∧
    ((encGeo 0 8).enc.ctl.state = .idle ∧ (encGeo 0 8).enc.rows = 0#12) ∧
    ((encGeo 8 0).enc.ctl.state = .idle ∧ (encGeo 8 0).enc.cols = 0#12) ∧
    ((encGeo 3 3).enc.ctl.state = .idle ∧ (encGeo 3 3).enc.rows.toNat * (encGeo 3 3).enc.cols.toNat % 8 ≠ 0) ∧
    (encAt 1 8 0 0).enc.ctl.state = .active ∧ encFaulted.enc.ctl.state = .fault := by decide
theorem witness_EncByteEmitsEightPixels :
    ((encAt 2 8 1 0).legal = true ∧ (encAt 2 8 1 0).enc.ctl.state = .active ∧
      (encAt 2 8 1 0).enc.pos + 8 = (encAt 2 8 1 0).enc.capacity) ∧
    ((encAt 2 8 0 0).legal = true ∧ (encAt 2 8 0 0).enc.ctl.state = .active ∧
      (encAt 2 8 0 0).enc.pos + 8 < (encAt 2 8 0 0).enc.capacity) := by decide
theorem witness_EncEndPadsTheRaster :
    ((encAt 2 8 0 0).legal = true ∧ (encAt 2 8 0 0).enc.ctl.state = .active ∧ (encAt 2 8 0 0).enc.pos = 0) ∧
    ((encAt 2 8 1 0).legal = true ∧ (encAt 2 8 1 0).enc.ctl.state = .active ∧ (encAt 2 8 1 0).enc.pos ≠ 0) := by decide
theorem witness_DecCfgSetsMode :
    State.reset.dec.ctl.state = .idle ∧ (decAt .all 0 0 0 0).dec.ctl.state = .active ∧
      decFaulted.dec.ctl.state = .fault := by decide
theorem witness_DecStartOpens :
    State.reset.dec.ctl.state = .idle ∧ (decAt .trailing 8 0 0 0).dec.ctl.state = .active ∧
      decFaulted.dec.ctl.state = .fault := by decide
theorem witness_DecRasterLatchesShape :
    ((after [.decStart] .reset).dec.ctl.state = .active ∧ (after [.decStart] .reset).dec.rem = 0#24 ∧
      (after [.decStart] .reset).dec.haveShape = false) ∧
    ((decAt .trailing 0 0 0 0).dec.ctl.state = .active ∧ (decAt .trailing 0 0 0 0).dec.rem = 0#24 ∧
      (decAt .trailing 0 0 0 0).dec.haveShape = true ∧ 1#12 = (decAt .trailing 0 0 0 0).dec.rows ∧
      8#12 = (decAt .trailing 0 0 0 0).dec.cols) ∧
    (1#12 = (decAt .trailing 0 0 0 0).dec.rows ∧ 9#12 ≠ (decAt .trailing 0 0 0 0).dec.cols) ∧
    (decAt .trailing 1 0 7 0).dec.rem ≠ 0#24 := by decide
theorem witness_DecPixTakesOnePixel :
    ((decAt .trailing 1 0 7 0).dec.ctl.state = .active ∧ (decAt .trailing 1 0 7 0).dec.rem ≠ 0#24 ∧
      0x01#8 ≠ 0x00#8 ∧ 0x01#8 ≠ 0xFF#8) ∧
    (decAt .trailing 8 0 6 0).dec.bc ≠ 7#3 ∧
    ((decAt .trailing 1 0 7 0).dec.bc = 7#3 ∧ (decAt .trailing 1 0 7 0).dec.sr <<< 1 ||| 1#8 ≠ 0x00#8) ∧
    ((decAt .trailing 1 0 7 0xFFFFFFFE).dec.sr <<< 1 = 0x00#8 ∧ (decAt .trailing 1 0 7 0xFFFFFFFE).dec.mode = .trailing ∧
      (decAt .trailing 1 0 7 0xFFFFFFFE).dec.zrun ≠ 0xFFFFFFFF#32) ∧
    (decAt .trailing 1 0 7 0xFFFFFFFF).dec.zrun = 0xFFFFFFFF#32 ∧ (decAt .all 1 0 7 0).dec.mode = .all ∧
    (decAt .trailing 0 0 0 0).dec.rem = 0#24 := by decide
theorem witness_DecEndDropsAndCloses :
    ((decAt .trailing 0 0 7 1).dec.ctl.state = .active ∧ (decAt .trailing 0 0 7 1).dec.rem = 0#24) ∧
    (decAt .trailing 1 0 7 1).dec.rem ≠ 0#24 := by decide
theorem witness_FaultEntryWritesErrAndStateOnly :
    ((encGeo 3 3).legal = true ∧ State.reset.legal = true) ∧
    (isNext (exec .encStart (encGeo 3 3)) = true ∧ (encGeo 3 3).enc.ctl.state ≠ .fault ∧
      (after [.encStart] (encGeo 3 3)).enc.ctl.state = .fault) ∧
    (isNext (exec .decEnd .reset) = true ∧ State.reset.dec.ctl.state ≠ .fault ∧
      (after [.decEnd] .reset).dec.ctl.state = .fault) := by decide
theorem witness_EachErrorHasItsOneCause :
    ((encGeo 0 8).enc.ctl.err ≠ .config ∧ (after [.encStart] (encGeo 0 8)).enc.ctl.err = .config) ∧
    (decAt .trailing 1 0 7 0).dec.ctl.err ≠ .config ∧
    ((decAt .trailing 0 0 0 0).dec.ctl.err ≠ .shape ∧
      (after [.decRaster 1 9] (decAt .trailing 0 0 0 0)).dec.ctl.err = .shape) ∧
    ((decAt .trailing 1 0 7 0).dec.ctl.err ≠ .pixel ∧
      (after [.decPix 0xFE] (decAt .trailing 1 0 7 0)).dec.ctl.err = .pixel) ∧
    ((decAt .trailing 1 0 7 0xFFFFFFFF).dec.ctl.err ≠ .overflow ∧
      (after [.decPix 0x00] (decAt .trailing 1 0 7 0xFFFFFFFF)).dec.ctl.err = .overflow) := by decide
theorem witness_SequenceErrorTable :
    State.reset.legal = true ∧ (after [.encByte 0] .reset).enc.ctl.err = .seq ∧
    (encAt 1 8 0 0).legal = true ∧ (after [.encStart] (encAt 1 8 0 0)).enc.ctl.err = .seq ∧
    (decAt .trailing 1 0 7 0).legal = true ∧ (after [.decEnd] (decAt .trailing 1 0 7 0)).dec.ctl.err = .seq ∧
    (decAt .trailing 0 0 0 0).legal = true ∧ (after [.decPix 0] (decAt .trailing 0 0 0 0)).dec.ctl.err = .seq := by decide
theorem witness_FaultedUnitIgnoresCommands :
    (encFaulted.enc.ctl.state = .fault ∧ forEnc .encStart = true) ∧ (decFaulted.dec.ctl.state = .fault ∧ forDec .decEnd = true) ∧
    (after [.encAbort] encFaulted).enc.ctl.state ≠ .fault ∧ (after [.sysReset] encFaulted).enc.ctl.state ≠ .fault ∧
    (after [.decAbort] decFaulted).dec.ctl.state ≠ .fault ∧ (after [.sysReset] decFaulted).dec.ctl.state ≠ .fault := by decide
theorem witness_UnitStateMachines :
    isNext (exec .encEnd (encAt 2 8 1 0)) = true ∧ isNext (exec (.decPix 0x00) (decAt .trailing 1 0 7 0xFFFFFFFF)) = true := by
  decide
theorem witness_StepKeepsLegal :
    ({ encAt 2 8 1 0 with input := [.word 0x13000000#32] } : State).legal = true ∧
      isNext (step { encAt 2 8 1 0 with input := [.word 0x13000000#32] }) = true := by decide
theorem witness_BlockNeverStops : (decAt .trailing 1 0 7 0xFFFFFFFF).legal = true ∧ encFaulted.legal = true := by decide
theorem witness_StepRunsDecodedCommand :
    ({ State.reset with input := [.word 0x11000000#32] } : State).legal = true ∧ decode 0x11000000#32 = .ok .encStart :=
  ⟨by decide, rfl⟩
theorem witness_HardwareResetEqualsSysReset :
    ({ decAt .all 8 0 0 0 with input := [.rst] } : State).legal = true := by decide
theorem witness_ResetDuringCommandKeepsEmitted :
    ({ encAt 2 8 0 0 with input := [.rstDuring 0x120000FF#32 3] } : State).legal = true ∧
      (stepped { encAt 2 8 0 0 with input := [.rstDuring 0x120000FF#32 3] }).pixOut.length = 3 := by decide
theorem witness_IdlePortWaits : (encAt 2 8 1 0).legal = true ∧ (encAt 2 8 1 0).input = [] := by decide
theorem witness_ExcludedStateIsStuck : (encAt 3 3 0 0).legal = false := by decide
theorem witness_IllIsStickyRecord :
    (stepped { State.reset with input := [.word 0x30000000#32] }).sys.ill = true ∧
    (stepped { State.reset with sys := { ill := true }, input := [.word 0x01000000#32] }).sys.ill = false ∧
    (Instr.encByte 0).wellFormed = true ∧ isNext (exec (.encByte 0) (encAt 1 8 0 0)) = true := by decide
theorem witness_EncoderCommandsStayInEncoder :
    forEnc .encEnd = true ∧ isNext (exec .encEnd (encAt 2 8 1 0)) = true := by decide
theorem witness_DecoderCommandsStayInDecoder :
    forDec (.decPix 0xFF) = true ∧ isNext (exec (.decPix 0xFF) (decAt .trailing 1 0 7 2)) = true := by decide
theorem witness_UnitsCommute :
    (∀ i ∈ [Instr.decStart, .encStart, .decRaster 1 8, .encByte 0x41, .decPix 0x00, .encEnd],
      forEnc i = true ∨ forDec i = true) ∧ State.reset.legal = true := by decide
theorem witness_FieldWriteTable :
    (Instr.encEnd.wellFormed = true ∧ (encAt 2 8 1 0).legal = true ∧ isNext (exec .encEnd (encAt 2 8 1 0)) = true ∧
      (after [.encEnd] (encAt 2 8 1 0)).enc.row ≠ (encAt 2 8 1 0).enc.row) ∧
    (after [.sysReset] { State.reset with sys := { ill := true } }).sys ≠ { ill := true } ∧
    (after [.encCfg 1 8] .reset).enc.rows ≠ State.reset.enc.rows ∧
    (after [.encAbort] encFaulted).enc.ctl ≠ encFaulted.enc.ctl ∧
    (after [.decCfg .all] .reset).dec.mode ≠ State.reset.dec.mode ∧
    (after [.decEnd] (decAt .trailing 0 0 7 1)).dec.ctl ≠ (decAt .trailing 0 0 7 1).dec.ctl ∧
    (after [.decStart, .decRaster 1 8] .reset).dec.haveShape ≠ (after [.decStart] .reset).dec.haveShape ∧
    (after [.decPix 0] (decAt .trailing 1 0 7 1)).dec.rem ≠ (decAt .trailing 1 0 7 1).dec.rem ∧
    (after [.decPix 0] (decAt .trailing 1 0 7 1)).dec.zrun ≠ (decAt .trailing 1 0 7 1).dec.zrun := by decide
theorem witness_TracesOnlyGrow :
    isNext (step { decAt .trailing 1 0 7 2 with input := [.word 0x230000FF#32] }) = true := by decide
theorem witness_PixelEventsAreWellFormed :
    (encAt 2 8 1 0).legal = true ∧ isNext (exec .encEnd (encAt 2 8 1 0)) = true ∧
      ({ val := 0x00, ras := 0, row := 1, col := 7, eor := true } : Pix) ∈ (after [.encEnd] (encAt 2 8 1 0)).pixOut := by
  decide
theorem witness_RunOfWordsIsRunOfCommands :
    (∀ i ∈ [Instr.rdsr 8, .encEnd], i.wellFormed = true) ∧ State.reset.legal = true ∧ State.reset.input = [] := by decide
theorem witness_BitsAndBytes :
    0 < [0x48#8].length ∧ (bytesOf (List.replicate 15 true)).length = 1 ∧ (bytesOf (List.replicate 7 true)).length = 0 := by
  decide
theorem witness_StripLaws : 0x41#8 ≠ 0x00#8 ∧ strip .trailing [0x41#8, 0x00#8] = [0x41#8] := by decide
theorem witness_ReferenceEncoderShape : geomOk 3 3 = false ∧ geomOk 0 8 = false ∧ geomOk 1 8 = true := by decide
theorem witness_RoundTripIsStrip : geomOk 1 8 = true ∧ geomOk 104 104 = true := by decide
theorem witness_RoundTripExactWhen : geomOk 1 8 = true ∧ geomOk 4095 4088 = true := by decide
theorem witness_EncodeTransactionRefines :
    State.reset.legal = true ∧ State.reset.enc.ctl.state = .idle ∧ geomOk (2#12).toNat (8#12).toNat = true := by decide
theorem witness_EncodeTransactionRefused :
    State.reset.legal = true ∧ State.reset.enc.ctl.state = .idle ∧ geomOk (0#12).toNat (8#12).toNat = false := by decide
theorem witness_RasterAndPaddingCount :
    State.reset.legal = true ∧ State.reset.enc.ctl.state = .idle ∧ geomOk (4095#12).toNat (4088#12).toNat = true := by decide
theorem witness_RasterSpaceHoldsTheRasters :
    State.reset.legal = true ∧ State.reset.enc.ctl.state = .idle ∧ geomOk (1#12).toNat (8#12).toNat = true ∧
      (8 * [0x41#8].length + (1#12).toNat * (8#12).toNat - 1) / ((1#12).toNat * (8#12).toNat) < 2 ^ 32 ∧
      (cutRaster 1 8 0 (encodePixels [0x41#8] 8)).grid[0]? = some [0, 0xFF, 0, 0, 0, 0, 0, 0xFF] := by decide

/-- A raster of shape 1 by 8 that holds the byte 0x41. -/
def rasterA : Raster := { rows := 1, cols := 8, grid := [[0x00, 0xFF, 0x00, 0x00, 0x00, 0x00, 0x00, 0xFF]] }

/-- A raster of shape 1 by 1. -/
def rasterDot : Raster := { rows := 1, cols := 1, grid := [[0xFF]] }

theorem witness_DecodeTransactionRefines :
    State.reset.legal = true ∧ State.reset.dec.ctl.state = .idle ∧ (decodeCmds [rasterA, rasterA]).isSome = true ∧
      sameShapes [rasterA, rasterA] = true ∧ (bitsOfPixels ([rasterA, rasterA].flatMap Raster.flat)).isSome = true ∧
      longestZeroRun 0 [0x41#8, 0x41#8] < 2 ^ 32 := by decide
theorem witness_DecodeTransactionShapeMismatch :
    State.reset.legal = true ∧ State.reset.dec.ctl.state = .idle ∧
      (decodeCmds (rasterA :: [rasterA] ++ rasterDot :: [rasterA])).isSome = true ∧
      sameShapes (rasterA :: [rasterA]) = true ∧ (rasterDot.rows ≠ rasterA.rows ∨ rasterDot.cols ≠ rasterA.cols) ∧
      (bitsOfPixels ((rasterA :: [rasterA]).flatMap Raster.flat)).isSome = true ∧
      longestZeroRun 0 [0x41#8, 0x41#8] < 2 ^ 32 := by decide
theorem witness_MachineRoundTrip :
    State.reset.legal = true ∧ State.reset.enc.ctl.state = .idle ∧ State.reset.dec.ctl.state = .idle ∧
      (encodeRef [0x41#8] (1#12).toNat (8#12).toNat).toOption = some [rasterA] ∧ (decodeCmds [rasterA]).isSome = true ∧
      longestZeroRun 0 ([0x41#8] ++ List.replicate (1 * ((1#12).toNat * (8#12).toNat) / 8 - 1) 0x00#8) < 2 ^ 32 := by decide
theorem witness_TransactionsAreIndependent :
    (∀ i ∈ [Instr.encByte 0x41, .encEnd], forEnc i = true) ∧ (encGeo 1 8).legal = true ∧
      isNext (execAll [.encStart, .encByte 0x41, .encEnd] (encGeo 1 8)) = true ∧
      (∀ i ∈ [Instr.decRaster 1 8, .decPix 0x00], forDec i = true) ∧
      isNext (execAll [.decStart, .decRaster 1 8, .decPix 0x00] .reset) = true := by decide

end Sys2Proof.Tests
end

section
/-! PROOFS. Geometry and the pixel mapping (spec/00_scope.md): R6 and R7 (a), (b). -/

namespace Sys2Proof.Machine

/-! ## The product of a geometry (R7) -/

/-- The low three bits of a dimension, the field `[2:0]`, are its remainder by 8. -/
theorem lowThreeBits_toNat (d : Dim) : (d.extractLsb' 0 3).toNat = d.toNat % 8 := by
  simp only [BitVec.extractLsb'_toNat, Nat.shiftRight_zero, Nat.reducePow]

/-- R7 (b): a product's remainder by 8 is that of the product of the low three bits. -/
theorem dims_mul_mod_eight (rows cols : Dim) :
    rows.toNat * cols.toNat % 8 = (rows.extractLsb' 0 3).toNat * (cols.extractLsb' 0 3).toNat % 8 := by
  rw [lowThreeBits_toNat, lowThreeBits_toNat]
  exact Nat.mul_mod _ _ _

/-- Settles O6: exactness is `area_toNat`, divisibility by 8 is arithmetic modulo 8. -/
theorem geometryProductIsExact : Obligations.GeometryProductIsExact :=
  fun rows cols => ⟨area_toNat rows cols, dims_mul_mod_eight rows cols⟩

/-! ## The pixel mapping (R6) -/

/-- `bit` is the inverse of `pix` in both directions: it is defined exactly on the values of `pix`. -/
theorem bit?_eq_some_iff {v : Byte} {b : Bool} : bit? v = some b ↔ v = pix b := by
  unfold bit?
  split
  case isTrue h => subst h; cases b <;> decide
  case isFalse h =>
    split
    case isTrue h0 => subst h0; cases b <;> decide
    case isFalse h0 => cases b <;> simp [pix, h, h0]

@[simp] theorem bit?_pix (b : Bool) : bit? (pix b) = some b := bit?_eq_some_iff.2 rfl

theorem bit?_eq_none_iff {v : Byte} : bit? v = none ↔ v ≠ 0x00#8 ∧ v ≠ 0xFF#8 := by
  calc bit? v = none
    _ ↔ ∀ b, bit? v ≠ some b := Option.eq_none_iff_forall_ne_some
    _ ↔ ∀ b, v ≠ pix b := forall_congr' fun _ => not_congr bit?_eq_some_iff
    _ ↔ v ≠ 0x00#8 ∧ v ≠ 0xFF#8 := Bool.forall_bool

/-- Settles O7: the two values of `pix` by definition, the rest from `bit` as the inverse of `pix`. -/
theorem pixelMappingInverse : Obligations.PixelMappingInverse :=
  ⟨rfl, rfl, bit?_pix, fun _ => bit?_eq_none_iff⟩

end Sys2Proof.Machine
end

section
/-! PROOFS. What a command can do, said once: which group a command reads and writes (R28, R90, R110), the inversion of
a system command, and the relations `EncStep` and `DecStep` between a unit's registers before and after a command. -/

namespace Sys2Proof.Machine

/-! ## A unit's part of the machine

A unit reads and writes its own group of registers and its own output port. Said over a view of the machine, what
follows from this is proved once for both units. -/

/-- One group of registers together with the output port of its unit. -/
structure UnitView (σ ε : Type) where
  /-- The registers of the unit. -/
  get : State → σ
  /-- Replace the registers and append events to the port. -/
  put : σ → List ε → State → State
  get_put : ∀ u evs s, get (put u evs s) = u
  put_put : ∀ u evs v fvs s, put v fvs (put u evs s) = put v (evs ++ fvs) s
  put_get : ∀ s, put (get s) [] s = s

/-- The encoder: its group and `PIX_OUT`. -/
def encView : UnitView Enc Pix where
  get s := s.enc
  put u evs s := (s.setEnc u).emitPix evs
  get_put _ _ _ := rfl
  put_put _ evs v fvs s := State.emitPix_emitPix evs fvs (s.setEnc v)
  put_get := State.emitPix_nil

/-- The decoder: its group and `BYTE_OUT`. -/
def decView : UnitView Dec Byte where
  get s := s.dec
  put u evs s := (s.setDec u).emitBytes evs
  get_put _ _ _ := rfl
  put_put _ evs v fvs s := State.emitBytes_emitBytes evs fvs (s.setDec v)
  put_get := State.emitBytes_nil

section
variable {σ ε : Type} {V : UnitView σ ε}

/-- Putting back the registers a state has, with no event, changes nothing. -/
theorem UnitView.put_of_get_eq {s s' : State} (h : V.get s' = V.get s) : V.put (V.get s) [] s' = s' :=
  h ▸ V.put_get s'

/-- Whatever `run` does, it does to the view, and what it does depends on the view's registers only. -/
def UnitView.Confines (V : UnitView σ ε) (run : State → Result) : Prop :=
  ∀ s t, run s = .next t →
    ∃ u evs, t = V.put u evs s ∧ ∀ s', V.get s' = V.get s → run s' = .next (V.put u evs s')

/-- A list of confined commands is confined. -/
theorem UnitView.confines_execAll {is : List Instr} (his : ∀ i ∈ is, V.Confines (exec i)) :
    V.Confines (execAll is) := by
  induction is with
  | nil =>
    rintro s _ ⟨⟩
    exact ⟨V.get s, [], (V.put_get s).symm, fun s' hs' => congrArg _ (V.put_of_get_eq hs').symm⟩
  | cons i is ih =>
    intro s t h
    obtain ⟨w, hw, hrest⟩ := execAll_cons.1 h
    obtain ⟨u, evs, rfl, hu⟩ := his i List.mem_cons_self s w hw
    obtain ⟨v, fvs, rfl, hv⟩ := ih (fun j hj => his j (List.mem_cons_of_mem i hj)) _ t hrest
    refine ⟨v, evs ++ fvs, V.put_put .., fun s' hs' => ?_⟩
    rw [← V.put_put]
    exact execAll_cons.2 ⟨_, hu s' hs', hv _ (by rw [V.get_put, V.get_put])⟩

/-- Two runs that a first command brings to the same registers go on alike. -/
theorem UnitView.runs_alike {i : Instr} {is : List Instr} {s s' t : State} {u : σ}
    (hs : exec i s = .next (V.put u [] s)) (hs' : exec i s' = .next (V.put u [] s'))
    (his : ∀ j ∈ is, V.Confines (exec j)) (h : execAll (i :: is) s = .next t) :
    ∃ v evs, t = V.put v evs s ∧ execAll (i :: is) s' = .next (V.put v evs s') := by
  obtain ⟨w, hw, hrest⟩ := execAll_cons.1 h
  obtain rfl : w = V.put u [] s := Host.Outcome.next.inj (hw.symm.trans hs)
  obtain ⟨v, evs, rfl, hv⟩ := UnitView.confines_execAll his _ t hrest
  refine ⟨v, evs, by rw [V.put_put, List.nil_append], execAll_cons.2 ⟨_, hs', ?_⟩⟩
  rw [hv _ (by rw [V.get_put, V.get_put]), V.put_put, List.nil_append]

end

/-! ## Every unit command is confined to its unit -/

/-- An accepted or refused encoder command is confined, its precondition and its action being read off the encoder. -/
theorem confines_onEnc (accepts : Enc → Bool) (act : Enc → Act Enc Pix) :
    encView.Confines fun s => onEnc (accepts s.enc) (act s.enc) s := by
  intro s t h
  obtain ⟨hf, rfl⟩ | ⟨hf, ha, u, evs, hact, rfl⟩ | ⟨hf, ha, e, hact, rfl⟩ | ⟨hf, ha, rfl⟩ := onEnc_cases h
  case inl =>
    refine ⟨t.enc, [], (State.emitPix_nil t).symm, fun s' (hs' : s'.enc = t.enc) => ?_⟩
    have hput : encView.put t.enc [] s' = s' := encView.put_of_get_eq hs'
    simp only [onEnc, hs', hf, if_true, hput]
  case inr.inl =>
    exact ⟨u, evs, rfl, fun s' (hs' : s'.enc = s.enc) => by simp [onEnc, hs', hf, ha, hact, encView]⟩
  case inr.inr.inl =>
    exact ⟨_, [], (State.emitPix_nil _).symm, fun s' (hs' : s'.enc = s.enc) => by
      simp [onEnc, hs', hf, ha, hact, encView, State.raiseEnc]⟩
  case inr.inr.inr =>
    exact ⟨_, [], (State.emitPix_nil _).symm, fun s' (hs' : s'.enc = s.enc) => by
      simp [onEnc, hs', hf, ha, encView, State.raiseEnc]⟩

/-- The same for the decoder. -/
theorem confines_onDec (accepts : Dec → Bool) (act : Dec → Act Dec Byte) :
    decView.Confines fun s => onDec (accepts s.dec) (act s.dec) s := by
  intro s t h
  obtain ⟨hf, rfl⟩ | ⟨hf, ha, u, evs, hact, rfl⟩ | ⟨hf, ha, e, hact, rfl⟩ | ⟨hf, ha, rfl⟩ := onDec_cases h
  case inl =>
    refine ⟨t.dec, [], (State.emitBytes_nil t).symm, fun s' (hs' : s'.dec = t.dec) => ?_⟩
    have hput : decView.put t.dec [] s' = s' := decView.put_of_get_eq hs'
    simp only [onDec, hs', hf, if_true, hput]
  case inr.inl =>
    exact ⟨u, evs, rfl, fun s' (hs' : s'.dec = s.dec) => by simp [onDec, hs', hf, ha, hact, decView]⟩
  case inr.inr.inl =>
    exact ⟨_, [], (State.emitBytes_nil _).symm, fun s' (hs' : s'.dec = s.dec) => by
      simp [onDec, hs', hf, ha, hact, decView, State.raiseDec]⟩
  case inr.inr.inr =>
    exact ⟨_, [], (State.emitBytes_nil _).symm, fun s' (hs' : s'.dec = s.dec) => by
      simp [onDec, hs', hf, ha, decView, State.raiseDec]⟩

/-- An abort, accepted in every state, is confined. -/
theorem confines_execEncAbort : encView.Confines execEncAbort := by
  rintro s _ ⟨⟩
  exact ⟨s.enc.abort, [], (State.emitPix_nil _).symm, fun s' (hs' : s'.enc = s.enc) => by
    simp [execEncAbort, encView, hs']⟩

theorem confines_execDecAbort : decView.Confines execDecAbort := by
  rintro s _ ⟨⟩
  exact ⟨s.dec.abort, [], (State.emitBytes_nil _).symm, fun s' (hs' : s'.dec = s.dec) => by
    simp [execDecAbort, decView, hs']⟩

/-- R90, R28: an encoder command reads and writes the encoder group and writes `PIX_OUT`, nothing else. -/
theorem exec_confined_of_forEnc {i : Instr} (hi : forEnc i = true) : encView.Confines (exec i) := by
  cases i with
  | nop | sysReset | rdsr _ | decCfg _ | decStart | decRaster _ _ | decPix _ | decEnd | decAbort => cases hi
  | encCfg rows cols => exact confines_onEnc (·.ctl.isIdle) (encCfgAct rows cols)
  | encStart => exact confines_onEnc (·.ctl.isIdle) encStartAct
  | encByte imm8 => exact confines_onEnc (·.ctl.isActive) (encByteAct imm8)
  | encEnd => exact confines_onEnc (·.ctl.isActive) encEndAct
  | encAbort => exact confines_execEncAbort

/-- R110, R28: a decoder command reads and writes the decoder group and writes `BYTE_OUT`, nothing else. -/
theorem exec_confined_of_forDec {i : Instr} (hi : forDec i = true) : decView.Confines (exec i) := by
  cases i with
  | nop | sysReset | rdsr _ | encCfg _ _ | encStart | encByte _ | encEnd | encAbort => cases hi
  | decCfg mode => exact confines_onDec (·.ctl.isIdle) (decCfgAct mode)
  | decStart => exact confines_onDec (·.ctl.isIdle) decStartAct
  | decRaster rows cols => exact confines_onDec Dec.betweenRasters (decRasterAct rows cols)
  | decPix imm8 => exact confines_onDec Dec.owesPixel (decPixAct imm8)
  | decEnd => exact confines_onDec Dec.betweenRasters decEndAct
  | decAbort => exact confines_execDecAbort

/-- What a decoder command leaves of the other two groups. -/
theorem exec_frame_of_forDec {i : Instr} {s t : State} (hi : forDec i = true) (h : exec i s = .next t) :
    t.enc = s.enc ∧ t.sys = s.sys := by
  obtain ⟨u, evs, rfl, -⟩ := exec_confined_of_forDec hi s t h
  exact ⟨rfl, rfl⟩

/-- What an encoder command leaves of the other two groups. -/
theorem exec_frame_of_forEnc {i : Instr} {s t : State} (hi : forEnc i = true) (h : exec i s = .next t) :
    t.dec = s.dec ∧ t.sys = s.sys := by
  obtain ⟨u, evs, rfl, -⟩ := exec_confined_of_forEnc hi s t h
  exact ⟨rfl, rfl⟩

/-! ## The system commands -/

/-- `RDSR` sends a status register, or is a term that no word stands for. -/
theorem execRdsr_cases {idx : BitVec 4} {s t : State} (h : exec (.rdsr idx) s = .next t) :
    (∃ v, statusReg idx s = some v ∧ t = s.emitRsp v) ∨ (statusReg idx s = none ∧ t = s.markIllegal) := by
  change execRdsr idx s = .next t at h
  unfold execRdsr at h
  split at h
  · exact .inl ⟨_, ‹_›, (Host.Outcome.next.inj h).symm⟩
  · exact .inr ⟨‹_›, (Host.Outcome.next.inj h).symm⟩

/-- A well-formed index names a status register (10_state.md R30). -/
theorem statusReg_ne_none {idx : BitVec 4} (hi : (Instr.rdsr idx).wellFormed = true) (s : State) :
    statusReg idx s ≠ none := by
  have hmem : ∀ idx : BitVec 4, idx.toNat < Config.statusRegs →
      idx ∈ [0#4, 1#4, 2#4, 3#4, 4#4, 5#4, 6#4, 7#4, 8#4] := by decide
  have hidx := hmem idx (of_decide_eq_true hi)
  simp only [List.mem_cons, List.not_mem_nil, or_false] at hidx
  rcases hidx with rfl | rfl | rfl | rfl | rfl | rfl | rfl | rfl | rfl <;> exact Option.some_ne_none _

/-- R83: a well-formed `RDSR` sends its status register and does nothing else. -/
theorem exec_rdsr {idx : BitVec 4} (hi : (Instr.rdsr idx).wellFormed = true) (s : State) :
    ∃ v, exec (.rdsr idx) s = .next (s.emitRsp v) := by
  obtain ⟨v, hv⟩ := Option.ne_none_iff_exists'.1 (statusReg_ne_none hi s)
  exact ⟨v, by simp [exec, execRdsr, hv]⟩

/-- R12, R82: of the well-formed commands, `SYS_RESET` alone writes the system group. -/
theorem exec_sys {i : Instr} {s t : State} (hi : i.wellFormed = true) (h : exec i s = .next t) :
    t.sys = s.sys ∨ i = .sysReset ∧ t.sys = .reset := by
  cases i with
  | nop => cases h; exact .inl rfl
  | sysReset => cases h; exact .inr ⟨rfl, rfl⟩
  | rdsr idx =>
    obtain ⟨v, hv⟩ := exec_rdsr hi s
    obtain rfl := Host.Outcome.next.inj (hv.symm.trans h)
    exact .inl rfl
  | encCfg _ _ | encStart | encByte _ | encEnd | encAbort => exact .inl (exec_frame_of_forEnc rfl h).2
  | decCfg _ | decStart | decRaster _ _ | decPix _ | decEnd | decAbort => exact .inl (exec_frame_of_forDec rfl h).2

end Sys2Proof.Machine
end

section
/-! PROOFS. One command seen from one unit: the relations `EncStep` and `DecStep` list every way in which a command can
change a unit's registers, and every command does one of them. The invariant (R26) and the field write table (R27) are
then case splits over these relations. -/

namespace Sys2Proof.Machine

/-! ## The encoder -/

/-- Every way in which a command changes the encoder group (spec/41_encoder_commands.md). -/
inductive EncStep : Instr → Enc → Enc → Prop where
  /-- A command for no encoder, or one ignored in `FAULT`. -/
  | kept {i : Instr} {u : Enc} (hr : i ≠ .sysReset) (hf : forEnc i = true → u.ctl.state = .fault) : EncStep i u u
  /-- `SYS_RESET` (R82). -/
  | reset {u : Enc} : EncStep .sysReset u .reset
  /-- Fault entry (R163). -/
  | raised {i : Instr} {u : Enc} {e : ErrCode} (hi : forEnc i = true) (hf : u.ctl.state ≠ .fault)
      (he : e = .config ∨ e = .seq) : EncStep i u { u with ctl := u.ctl.raise e }
  /-- `ENC_CFG` performed (R91). -/
  | configured {rows cols : Dim} {u : Enc} (h : u.ctl.state = .idle) :
      EncStep (.encCfg rows cols) u { u with rows := rows, cols := cols }
  /-- `ENC_START` performed (R92). -/
  | started {u : Enc} (h : u.ctl.state = .idle) (hg : geomOk u.rows.toNat u.cols.toNat = true) :
      EncStep .encStart u
        { u with row := 0#12, col := 0#12, ras := 0#32, sr := 0#8, ctl := { u.ctl with state := .active } }
  /-- `ENC_BYTE` performed (R94). -/
  | shifted {b : Byte} {u : Enc} (h : u.ctl.state = .active) :
      EncStep (.encByte b) u (encShifts 8 { u with sr := b }).1
  /-- `ENC_END` performed (R95). -/
  | padded {u v : Enc} {evs : List Pix} (h : u.ctl.state = .active) (hp : encPad u.capacity u = some (v, evs)) :
      EncStep .encEnd u { v with ctl := { v.ctl with state := .idle } }
  /-- `ENC_ABORT` (R96). -/
  | aborted {u : Enc} : EncStep .encAbort u u.abort

/-- What the dispatch of R80 leaves of an encoder command is its performed action, or a code of R15. -/
theorem EncStep.of_onEnc {i : Instr} {accepts : Bool} {act : Act Enc Pix} {s t : State}
    (h : onEnc accepts act s = .next t) (hi : forEnc i = true)
    (hdoes : ∀ u evs, accepts = true → act = .does u evs → EncStep i s.enc u)
    (hraises : ∀ e, act = .raises e → e = .config) : EncStep i s.enc t.enc := by
  obtain ⟨hf, rfl⟩ | ⟨-, ha, u, evs, hact, rfl⟩ | ⟨hf, -, e, hact, rfl⟩ | ⟨hf, -, rfl⟩ := onEnc_cases h
  case inl => exact .kept (by rintro rfl; cases hi) fun _ => hf
  case inr.inl => exact hdoes u evs ha hact
  case inr.inr.inl => exact .raised hi hf (.inl (hraises e hact))
  case inr.inr.inr => exact .raised hi hf (.inr rfl)

/-- Every command takes the encoder group along `EncStep`. -/
theorem exec_encStep {i : Instr} {s t : State} (h : exec i s = .next t) : EncStep i s.enc t.enc := by
  cases i with
  | nop => cases h; exact .kept nofun nofun
  | sysReset => cases h; exact .reset
  | rdsr idx => obtain ⟨v, -, rfl⟩ | ⟨-, rfl⟩ := execRdsr_cases h <;> exact .kept nofun nofun
  | encCfg rows cols =>
    refine .of_onEnc (i := .encCfg rows cols) (act := encCfgAct rows cols s.enc) h rfl (fun u evs ha hact => ?_) nofun
    cases hact
    exact .configured ((Ctl.isIdle_iff _).1 ha)
  | encStart =>
    by_cases hg : geomOk s.enc.rows.toNat s.enc.cols.toNat = true
    · have hact : encStartAct s.enc = .does _ [] := if_pos hg
      refine .of_onEnc (i := .encStart) h rfl (fun u evs ha hdoes => ?_) (fun e he => nomatch hact.symm.trans he)
      cases hact.symm.trans hdoes
      exact .started ((Ctl.isIdle_iff _).1 ha) hg
    · have hact : encStartAct s.enc = .raises .config := if_neg hg
      refine .of_onEnc (i := .encStart) h rfl (fun u evs _ hdoes => nomatch hact.symm.trans hdoes) (fun e he => ?_)
      cases hact.symm.trans he
      rfl
  | encByte b =>
    refine .of_onEnc (i := .encByte b) (act := encByteAct b s.enc) h rfl (fun u evs ha hact => ?_) nofun
    obtain ⟨rfl, -⟩ := Act.does.inj (show Act.does _ _ = Act.does u evs from hact)
    exact .shifted ((Ctl.isActive_iff _).1 ha)
  | encEnd =>
    have hact : encEndAct s.enc = .stuck .paddingNeverEnds ∨
        ∃ v evs, encPad s.enc.capacity s.enc = some (v, evs) ∧
          encEndAct s.enc = .does { v with ctl := { v.ctl with state := .idle } } evs := by
      unfold encEndAct
      cases hp : encPad s.enc.capacity s.enc with
      | none => exact .inl rfl
      | some r => exact .inr ⟨r.1, r.2, rfl, rfl⟩
    obtain hact | ⟨v, evs, hp, hact⟩ := hact
    · exact .of_onEnc (i := .encEnd) h rfl (fun u evs _ hdoes => nomatch hact.symm.trans hdoes)
        (fun e he => nomatch hact.symm.trans he)
    · refine .of_onEnc (i := .encEnd) h rfl (fun u evs ha hdoes => ?_) (fun e he => nomatch hact.symm.trans he)
      cases hact.symm.trans hdoes
      exact .padded ((Ctl.isActive_iff _).1 ha) hp
  | encAbort => cases h; exact .aborted
  | decCfg _ | decStart | decRaster _ _ | decPix _ | decEnd | decAbort =>
    rw [(exec_frame_of_forDec rfl h).1]
    exact .kept nofun nofun

/-! ## What shifting leaves unchanged -/

/-- The position counters alone advance (R93). -/
@[simp] theorem Enc.advance_rows (u : Enc) : u.advance.rows = u.rows := by
  unfold Enc.advance; split_ifs <;> rfl
@[simp] theorem Enc.advance_cols (u : Enc) : u.advance.cols = u.cols := by
  unfold Enc.advance; split_ifs <;> rfl
@[simp] theorem Enc.advance_ctl (u : Enc) : u.advance.ctl = u.ctl := by
  unfold Enc.advance; split_ifs <;> rfl
@[simp] theorem Enc.advance_sr (u : Enc) : u.advance.sr = u.sr := by
  unfold Enc.advance; split_ifs <;> rfl

/-- The geometry and the control registers of two units agree: what a shift step leaves unchanged. -/
def Enc.SameSetup (u v : Enc) : Prop := v.rows = u.rows ∧ v.cols = u.cols ∧ v.ctl = u.ctl

theorem encShift_setup (u : Enc) : u.SameSetup (encShift u).1 := by
  simp [Enc.SameSetup, encShift]

/-- `n` shift steps keep the setup and shift `ENC.SR` by `n` places. -/
theorem encShifts_setup (n : Nat) (u : Enc) :
    u.SameSetup (encShifts n u).1 ∧ (encShifts n u).1.sr = shiftedBy n u.sr := by
  induction n generalizing u with
  | zero => exact ⟨⟨rfl, rfl, rfl⟩, rfl⟩
  | succ n ih =>
    obtain ⟨⟨hrows, hcols, hctl⟩, hsr⟩ := ih (encShift u).1
    obtain ⟨hrows', hcols', hctl'⟩ := encShift_setup u
    exact ⟨⟨hrows.trans hrows', hcols.trans hcols', hctl.trans hctl'⟩, hsr.trans (by simp [encShift, shiftedBy])⟩

/-- Where the padding loop ends it has reached (0, 0), with the setup kept and an empty `ENC.SR` still empty. -/
theorem encPad_ends {n : Nat} {u v : Enc} {evs : List Pix} (h : encPad n u = some (v, evs)) :
    v.atOrigin = true ∧ u.SameSetup v ∧ (u.sr = 0#8 → v.sr = 0#8) := by
  induction n generalizing u v evs with
  | zero =>
    unfold encPad at h
    split at h
    · cases h; exact ⟨‹_›, ⟨rfl, rfl, rfl⟩, id⟩
    · cases h
  | succ n ih =>
    unfold encPad at h
    split at h
    · cases h; exact ⟨‹_›, ⟨rfl, rfl, rfl⟩, id⟩
    · obtain ⟨⟨w, fvs⟩, hw, heq⟩ := Option.map_eq_some_iff.1 h
      cases heq
      obtain ⟨horigin, ⟨hrows, hcols, hctl⟩, hsr⟩ := ih hw
      obtain ⟨hrows', hcols', hctl'⟩ := encShift_setup u
      refine ⟨horigin, ⟨hrows.trans hrows', hcols.trans hcols', hctl.trans hctl'⟩, fun h0 => hsr ?_⟩
      simp [encShift, h0]

/-! ## The decoder -/

/-- Every way in which a command changes the decoder group (spec/42_decoder_commands.md). -/
inductive DecStep : Instr → Dec → Dec → Prop where
  /-- A command for no decoder, or one ignored in `FAULT`. -/
  | kept {i : Instr} {u : Dec} (hr : i ≠ .sysReset) (hf : forDec i = true → u.ctl.state = .fault) : DecStep i u u
  /-- `SYS_RESET` (R82). -/
  | reset {u : Dec} : DecStep .sysReset u .reset
  /-- Fault entry (R163). -/
  | raised {i : Instr} {u : Dec} {e : ErrCode} (hi : forDec i = true) (hf : u.ctl.state ≠ .fault)
      (he : e = .shape ∨ e = .pixel ∨ e = .overflow ∨ e = .seq) : DecStep i u { u with ctl := u.ctl.raise e }
  /-- `DEC_CFG` performed (R111). -/
  | configured {mode : StripMode} {u : Dec} (h : u.ctl.state = .idle) :
      DecStep (.decCfg mode) u { u with mode := mode }
  /-- `DEC_START` performed (R112). -/
  | started {u : Dec} (h : u.ctl.state = .idle) :
      DecStep .decStart u { u.clearTransaction with ctl := { u.ctl with state := .active } }
  /-- The first `DEC_RASTER` of a transaction performed: the shape is latched (R113). -/
  | latched {rows cols : Dim} {u : Dec} (h : u.ctl.state = .active) (hs : u.haveShape = false) :
      DecStep (.decRaster rows cols) u { u with rows := rows, cols := cols, haveShape := true, rem := area rows cols }
  /-- A later `DEC_RASTER` performed: the shape is the one latched (R113). -/
  | agreed {u : Dec} (h : u.ctl.state = .active) (hs : u.haveShape = true) :
      DecStep (.decRaster u.rows u.cols) u { u with rem := area u.rows u.cols }
  /-- `DEC_PIX` performed (R114). -/
  | took {v : Byte} {b : Bool} {u : Dec} (h : u.ctl.state = .active) (hr : u.rem ≠ 0#24) (hv : bit? v = some b) :
      DecStep (.decPix v) u (u.takeBit b).1
  /-- `DEC_END` performed (R116). -/
  | ended {u : Dec} (h : u.ctl.state = .active) (hr : u.rem = 0#24) :
      DecStep .decEnd u { u with sr := 0#8, bc := 0#3, zrun := 0#32, ctl := { u.ctl with state := .idle } }
  /-- `DEC_ABORT` (R117). -/
  | aborted {u : Dec} : DecStep .decAbort u u.abort

/-- What the dispatch of R80 leaves of a decoder command is its performed action, or a code of R21. -/
theorem DecStep.of_onDec {i : Instr} {accepts : Bool} {act : Act Dec Byte} {s t : State}
    (h : onDec accepts act s = .next t) (hi : forDec i = true)
    (hdoes : ∀ u evs, accepts = true → act = .does u evs → DecStep i s.dec u)
    (hraises : ∀ e, act = .raises e → e = .shape ∨ e = .pixel ∨ e = .overflow) : DecStep i s.dec t.dec := by
  obtain ⟨hf, rfl⟩ | ⟨-, ha, u, evs, hact, rfl⟩ | ⟨hf, -, e, hact, rfl⟩ | ⟨hf, -, rfl⟩ := onDec_cases h
  case inl => exact .kept (by rintro rfl; cases hi) fun _ => hf
  case inr.inl => exact hdoes u evs ha hact
  case inr.inr.inl => exact .raised hi hf (by have := hraises e hact; tauto)
  case inr.inr.inr => exact .raised hi hf (.inr (.inr (.inr rfl)))

/-- `DEC_RASTER` raises on a shape that differs; else it counts the pixels of the latched or the new shape (R113). -/
theorem decRasterAct_cases (rows cols : Dim) (u : Dec) :
    decRasterAct rows cols u = .raises .shape ∨
    (u.haveShape = true ∧ u.rows = rows ∧ u.cols = cols ∧
      decRasterAct rows cols u = .does { u with rem := area rows cols } []) ∨
    (u.haveShape = false ∧ decRasterAct rows cols u =
      .does { u with rows := rows, cols := cols, haveShape := true, rem := area rows cols } []) := by
  unfold decRasterAct
  split_ifs with hd hs
  · exact .inl rfl
  · have hsame : rows = u.rows ∧ cols = u.cols := by simpa [Dec.shapeDiffers, hs] using hd
    exact .inr (.inl ⟨hs, hsame.1.symm, hsame.2.symm, rfl⟩)
  · exact .inr (.inr ⟨eq_false_of_ne_true hs, rfl⟩)

/-- `DEC_PIX` raises on a value that is no pixel or where the counter would overflow; else it takes the bit (R114). -/
theorem decPixAct_cases (v : Byte) (u : Dec) :
    decPixAct v u = .raises .pixel ∨ decPixAct v u = .raises .overflow ∨
    ∃ b, bit? v = some b ∧ decPixAct v u = .does (u.takeBit b).1 (u.takeBit b).2 := by
  unfold decPixAct
  cases hv : bit? v with
  | none => exact .inl rfl
  | some b =>
    simp only
    split_ifs
    · exact .inr (.inl rfl)
    · exact .inr (.inr ⟨b, rfl, rfl⟩)

/-- Every command takes the decoder group along `DecStep`. -/
theorem exec_decStep {i : Instr} {s t : State} (h : exec i s = .next t) : DecStep i s.dec t.dec := by
  cases i with
  | nop => cases h; exact .kept nofun nofun
  | sysReset => cases h; exact .reset
  | rdsr idx => obtain ⟨v, -, rfl⟩ | ⟨-, rfl⟩ := execRdsr_cases h <;> exact .kept nofun nofun
  | encCfg _ _ | encStart | encByte _ | encEnd | encAbort =>
    rw [(exec_frame_of_forEnc rfl h).1]
    exact .kept nofun nofun
  | decCfg mode =>
    refine .of_onDec (i := .decCfg mode) (act := decCfgAct mode s.dec) h rfl (fun u evs ha hact => ?_) nofun
    cases hact
    exact .configured ((Ctl.isIdle_iff _).1 ha)
  | decStart =>
    refine .of_onDec (i := .decStart) (act := decStartAct s.dec) h rfl (fun u evs ha hact => ?_) nofun
    cases hact
    exact .started ((Ctl.isIdle_iff _).1 ha)
  | decRaster rows cols =>
    refine .of_onDec (i := .decRaster rows cols) h rfl (fun u evs ha hact => ?_) (fun e he => ?_)
    · obtain ⟨hst, -⟩ := (Dec.betweenRasters_iff _).1 ha
      obtain hr | ⟨hs, rfl, rfl, hd⟩ | ⟨hs, hd⟩ := decRasterAct_cases rows cols s.dec
      · cases hr.symm.trans hact
      · cases hd.symm.trans hact
        exact .agreed hst hs
      · cases hd.symm.trans hact
        exact .latched hst hs
    · obtain hr | ⟨-, -, -, hd⟩ | ⟨-, hd⟩ := decRasterAct_cases rows cols s.dec
      · cases hr.symm.trans he; exact .inl rfl
      · cases hd.symm.trans he
      · cases hd.symm.trans he
  | decPix v =>
    refine .of_onDec (i := .decPix v) h rfl (fun u evs ha hact => ?_) (fun e he => ?_)
    · obtain ⟨hst, hrem⟩ := (Dec.owesPixel_iff _).1 ha
      obtain hr | hr | ⟨b, hv, hd⟩ := decPixAct_cases v s.dec
      · cases hr.symm.trans hact
      · cases hr.symm.trans hact
      · cases hd.symm.trans hact
        exact .took hst hrem hv
    · obtain hr | hr | ⟨b, hv, hd⟩ := decPixAct_cases v s.dec
      · cases hr.symm.trans he; exact .inr (.inl rfl)
      · cases hr.symm.trans he; exact .inr (.inr rfl)
      · cases hd.symm.trans he
  | decEnd =>
    refine .of_onDec (i := .decEnd) (act := decEndAct s.dec) h rfl (fun u evs ha hact => ?_) nofun
    cases hact
    obtain ⟨hst, hrem⟩ := (Dec.betweenRasters_iff _).1 ha
    exact .ended hst hrem
  | decAbort => cases h; exact .aborted

/-- The deliver step writes the held-zero counter alone, and leaves it 0 in mode `ALL` (R115, R120). -/
theorem Dec.deliver_unit (byte : Byte) (u : Dec) :
    ∃ z, (u.deliver byte).1 = { u with zrun := z } ∧ (u.mode = .all → u.zrun = 0#32 → z = 0#32) := by
  by_cases hb : byte = 0x00#8
  · subst hb
    obtain hm | hm : u.mode = .trailing ∨ u.mode = .all := by cases u.mode <;> decide
    · exact ⟨_, by rw [Dec.deliver_zero_trailing hm], fun h => nomatch hm.symm.trans h⟩
    · exact ⟨u.zrun, by rw [Dec.deliver_zero_all hm], fun _ => id⟩
  · exact ⟨0#32, by rw [Dec.deliver_of_ne hb], fun _ _ => rfl⟩

/-- What taking a bit does to the registers (R114): the group is emptied or grows, one pixel fewer is owed, and the
held-zero counter stays 0 in mode `ALL`. -/
theorem Dec.takeBit_unit (b : Bool) (u : Dec) :
    ∃ sr bc z, (u.takeBit b).1 = { u with rem := u.rem - 1#24, sr := sr, bc := bc, zrun := z } ∧
      ((sr = 0#8 ∧ bc = 0#3) ∨ (u.bc ≠ 7#3 ∧ sr = u.shiftIn b ∧ bc = u.bc + 1#3)) ∧
      (u.mode = .all → u.zrun = 0#32 → z = 0#32) := by
  rw [Dec.takeBit_eq]
  by_cases hbc : u.bc = 7#3
  · rw [if_pos hbc]
    obtain ⟨z, hz, hall⟩ := Dec.deliver_unit (u.shiftIn b) { u with rem := u.rem - 1#24, sr := 0#8, bc := 0#3 }
    exact ⟨0#8, 0#3, z, hz, .inl ⟨rfl, rfl⟩, hall⟩
  · rw [if_neg hbc]
    exact ⟨_, _, u.zrun, rfl, .inr ⟨hbc, rfl, rfl⟩, fun _ => id⟩

end Sys2Proof.Machine
end

section
/-! PROOFS. The invariant of 10_state.md R26: what it says (O30), that reset has it (O32), that every command and every
step keeps it (O33), and that a state without it is refused (O39). -/

namespace Sys2Proof.Machine

/-! ## What the invariant says -/

theorem Enc.inRaster_iff (u : Enc) : u.inRaster = true ↔
    1 ≤ u.rows.toNat ∧ 1 ≤ u.cols.toNat ∧ u.rows.toNat * u.cols.toNat % 8 = 0 ∧
      u.row.toNat < u.rows.toNat ∧ u.col.toNat < u.cols.toNat ∧ (u.row.toNat * u.cols.toNat + u.col.toNat) % 8 = 0 := by
  simp only [Enc.inRaster, Bool.and_eq_true, decide_eq_true_eq, geomOk_iff, and_assoc]
  rfl

/-- I-3: `FAULT` goes with a code. -/
theorem Ctl.legal_iff (c : Ctl) : c.legal = true ↔ (c.state = .fault ↔ c.err ≠ .none) := by
  rw [Ctl.legal, beq_iff_eq, Bool.eq_iff_iff, beq_iff_eq, bne_iff_ne]

/-- The invariants of the encoder (R26, R15), by name. -/
structure Enc.Invariants (u : Enc) : Prop where
  /-- I-1. -/
  srEmpty : u.sr = 0#8
  /-- I-3. -/
  faultIffErr : u.ctl.state = .fault ↔ u.ctl.err ≠ .none
  /-- The codes of R15. -/
  encCode : u.ctl.err = .none ∨ u.ctl.err = .config ∨ u.ctl.err = .seq
  /-- I-4 and I-5. -/
  inRaster : u.ctl.state = .active →
    1 ≤ u.rows.toNat ∧ 1 ≤ u.cols.toNat ∧ u.rows.toNat * u.cols.toNat % 8 = 0 ∧
      u.row.toNat < u.rows.toNat ∧ u.col.toNat < u.cols.toNat ∧ (u.row.toNat * u.cols.toNat + u.col.toNat) % 8 = 0
  /-- I-6. -/
  atOrigin : u.ctl.state = .idle → u.row = 0#12 ∧ u.col = 0#12

theorem ErrCode.isEncCode_iff (e : ErrCode) : e.isEncCode = true ↔ e = .none ∨ e = .config ∨ e = .seq := by
  cases e <;> decide

theorem ErrCode.isDecCode_iff (e : ErrCode) : e.isDecCode = true ↔ e ≠ .config := by
  cases e <;> decide

theorem Enc.atOrigin_iff (u : Enc) : u.atOrigin = true ↔ u.row = 0#12 ∧ u.col = 0#12 := by
  simp only [Enc.atOrigin, Bool.and_eq_true, beq_iff_eq]

/-- `Enc.legal` with the invariants of each state as implications. -/
theorem Enc.legal_iff_by_state (u : Enc) : u.legal = true ↔
    u.sr = 0#8 ∧ (u.ctl.state = .fault ↔ u.ctl.err ≠ .none) ∧
      (u.ctl.err = .none ∨ u.ctl.err = .config ∨ u.ctl.err = .seq) ∧
      (u.ctl.state = .active → u.inRaster = true) ∧ (u.ctl.state = .idle → u.atOrigin = true) := by
  cases hst : u.ctl.state <;> simp [Enc.legal, Ctl.legal_iff, ErrCode.isEncCode_iff, hst, and_assoc]

theorem Enc.legal_iff (u : Enc) : u.legal = true ↔ u.Invariants := by
  simp only [Enc.legal_iff_by_state, Enc.inRaster_iff, Enc.atOrigin_iff]
  constructor
  · rintro ⟨hsr, hf, hc, hactive, hidle⟩
    exact ⟨hsr, hf, hc, hactive, hidle⟩
  · rintro ⟨hsr, hf, hc, hactive, hidle⟩
    exact ⟨hsr, hf, hc, hactive, hidle⟩

/-- The invariants of the decoder (R26, R21), by name. -/
structure Dec.Invariants (u : Dec) : Prop where
  /-- I-3. -/
  faultIffErr : u.ctl.state = .fault ↔ u.ctl.err ≠ .none
  /-- The codes of R21. -/
  decCode : u.ctl.err ≠ .config
  /-- I-7. -/
  atRest : u.ctl.state = .idle → u.rem = 0#24 ∧ u.sr = 0#8 ∧ u.bc = 0#3 ∧ u.zrun = 0#32
  /-- I-8. -/
  srBelow : u.sr.toNat < 2 ^ u.bc.toNat
  /-- I-9. -/
  allHoldsNone : u.mode = .all → u.zrun = 0#32
  /-- I-10. -/
  remBelow : u.haveShape = true → u.rem.toNat ≤ u.rows.toNat * u.cols.toNat
  /-- I-11. -/
  noShape : u.haveShape = false → u.rows = 0#12 ∧ u.cols = 0#12 ∧ u.rem = 0#24

theorem Dec.shapeLegal_iff (u : Dec) : u.shapeLegal = true ↔
    (u.haveShape = true → u.rem.toNat ≤ u.rows.toNat * u.cols.toNat) ∧
      (u.haveShape = false → u.rows = 0#12 ∧ u.cols = 0#12 ∧ u.rem = 0#24) := by
  cases hs : u.haveShape <;> simp [Dec.shapeLegal, hs, and_assoc]

theorem Dec.legal_iff (u : Dec) : u.legal = true ↔ u.Invariants := by
  simp only [Dec.legal, Dec.atRest, Bool.and_eq_true, Bool.or_eq_true, bne_iff_ne, beq_iff_eq, decide_eq_true_eq,
    Ctl.legal_iff, ErrCode.isDecCode_iff, Dec.shapeLegal_iff, ← imp_iff_not_or, and_assoc]
  constructor
  · rintro ⟨hf, hc, hrest, hsr, hall, hrem, hno⟩
    exact ⟨hf, hc, hrest, hsr, hall, hrem, hno⟩
  · rintro ⟨hf, hc, hrest, hsr, hall, hrem, hno⟩
    exact ⟨hf, hc, hrest, hsr, hall, hrem, hno⟩

theorem State.legal_iff (s : State) : s.legal = true ↔ s.enc.Invariants ∧ s.dec.Invariants := by
  simp only [State.legal, Bool.and_eq_true, Enc.legal_iff, Dec.legal_iff]

/-- Settles O30: the named invariants of the two units, one by one. -/
theorem legalSaysTheInvariants : Obligations.LegalSaysTheInvariants := by
  intro s
  rw [State.legal_iff]
  constructor
  · rintro ⟨henc, hdec⟩
    exact ⟨henc.srEmpty, henc.faultIffErr, hdec.faultIffErr, henc.encCode, hdec.decCode, henc.inRaster, henc.atOrigin,
      hdec.atRest, hdec.srBelow, hdec.allHoldsNone, hdec.remBelow, hdec.noShape⟩
  · rintro ⟨hsr, hef, hdf, hec, hdc, hin, horigin, hrest, hbelow, hall, hrem, hno⟩
    exact ⟨⟨hsr, hef, hec, hin, horigin⟩, ⟨hdf, hdc, hrest, hbelow, hall, hrem, hno⟩⟩

/-! ## Reset and excluded states -/

/-- Settles O32, by evaluating the invariant on the reset values. -/
theorem resetIsLegal : Obligations.ResetIsLegal := by
  unfold Obligations.ResetIsLegal
  decide

/-- Settles O39: the test of `legal` stands before everything else in `step`. -/
theorem excludedStateIsStuck : Obligations.ExcludedStateIsStuck := by
  intro s hs
  simp [step, hs]

/-! ## The encoder keeps its invariants -/

/-- A unit outside `FAULT` holds no code. -/
theorem Enc.Invariants.err_eq_none {u : Enc} (hu : u.Invariants) (h : u.ctl.state ≠ .fault) : u.ctl.err = .none :=
  not_not.1 fun he => h (hu.faultIffErr.2 he)

theorem Dec.Invariants.err_eq_none {u : Dec} (hu : u.Invariants) (h : u.ctl.state ≠ .fault) : u.ctl.err = .none :=
  not_not.1 fun he => h (hu.faultIffErr.2 he)

/-- Before event number `k` of a transaction, `k` a multiple of 8, the position is in the raster and on a byte boundary
(I-5). -/
theorem Enc.atPix_inRaster {u : Enc} (hg : geomOk u.rows.toNat u.cols.toNat = true) {k : Nat} (hk : k % 8 = 0) :
    (u.atPix k).inRaster = true := by
  have hc : u.capacity % 8 = 0 := ((geomOk_iff _ _).1 hg).2.2
  have hpos : (u.atPix k).pos % 8 = 0 := by
    rw [Enc.atPix_pos hg, Nat.mod_mod_of_dvd k (Nat.dvd_of_mod_eq_zero hc), hk]
  simp only [Enc.inRaster, Enc.atPix_rows, Enc.atPix_cols, hg, Enc.atPix_row_toNat hg, Enc.atPix_col_toNat hg,
    Enc.row_lt hg, Enc.col_lt hg, hpos, decide_true, Bool.and_self]

/-- Eight shift steps lead from a byte boundary inside the raster to the next one (R94, I-5). -/
theorem Enc.inRaster_encShifts_eight {u : Enc} (hu : u.inRaster = true) (b : Byte) :
    (encShifts 8 { u with sr := b }).1.inRaster = true := by
  obtain ⟨hr, hc, hmul, hrow, hcol, hpos⟩ := u.inRaster_iff.1 hu
  have hg : geomOk u.rows.toNat u.cols.toNat = true := (geomOk_iff _ _).2 ⟨hr, hc, hmul⟩
  have hat : { u with sr := b } = { u with sr := b }.atPix (u.ras.toNat * u.capacity + u.pos) :=
    Enc.eq_atPix (u := { u with sr := b }) hrow hcol
  have hk : (u.ras.toNat * u.capacity + u.pos + 8) % 8 = 0 := by
    have hcap : u.ras.toNat * u.capacity % 8 = 0 := by
      rw [Nat.mul_mod, show u.capacity % 8 = 0 from hmul, Nat.mul_zero, Nat.zero_mod]
    have : u.pos % 8 = 0 := hpos
    omega
  rw [hat, encShifts_atPix 8 (u := { u with sr := b }) hg]
  exact Enc.atPix_inRaster (u := { u with sr := shiftedBy 8 b }) hg hk

/-- R26: every change that a command makes to the encoder keeps its invariants. -/
theorem EncStep.keeps_invariants {i : Instr} {u v : Enc} (h : EncStep i u v) (hu : u.Invariants) : v.Invariants := by
  cases h with
  | kept => exact hu
  | reset => exact (Enc.legal_iff _).1 (by decide)
  | @raised _ _ e _ hf he =>
    have herr : (u.ctl.raise e).err = e := Ctl.raise_err_of_none e (hu.err_eq_none hf)
    refine ⟨hu.srEmpty, ⟨fun _ => ?_, fun _ => rfl⟩, .inr ?_, nofun, nofun⟩
    · show (u.ctl.raise e).err ≠ .none
      rw [herr]; rintro rfl; simp at he
    · show (u.ctl.raise e).err = .config ∨ (u.ctl.raise e).err = .seq
      rwa [herr]
  | configured hst =>
    exact ⟨hu.srEmpty, hu.faultIffErr, hu.encCode, fun h => (nomatch hst.symm.trans h), hu.atOrigin⟩
  | started hst hg =>
    have herr := hu.err_eq_none (by rw [hst]; decide)
    obtain ⟨hr, hc, hmul⟩ := (geomOk_iff _ _).1 hg
    exact ⟨rfl, ⟨nofun, fun h => absurd herr h⟩, hu.encCode, fun _ => ⟨hr, hc, hmul, hr, hc, by simp⟩, nofun⟩
  | @shifted b _ hst =>
    obtain ⟨⟨-, -, hctl⟩, hsr⟩ := encShifts_setup 8 { u with sr := b }
    have hin := Enc.inRaster_encShifts_eight (u.inRaster_iff.2 (hu.inRaster hst)) b
    generalize (encShifts 8 { u with sr := b }).1 = v at hctl hsr hin
    have hactive : v.ctl.state = .active := (congrArg Ctl.state hctl).trans hst
    exact ⟨hsr.trans (shiftedBy_eight b), hctl ▸ hu.faultIffErr, hctl ▸ hu.encCode, fun _ => v.inRaster_iff.1 hin,
      fun h => (nomatch hactive.symm.trans h)⟩
  | @padded _ w _ hst hp =>
    have herr := hu.err_eq_none (by rw [hst]; decide)
    obtain ⟨horigin, ⟨-, -, hctl⟩, hsr⟩ := encPad_ends hp
    exact ⟨hsr hu.srEmpty, ⟨nofun, fun h => absurd herr (hctl ▸ h)⟩, hctl ▸ hu.encCode, nofun,
      fun _ => w.atOrigin_iff.1 horigin⟩
  | aborted => exact ⟨rfl, ⟨nofun, fun h => absurd rfl h⟩, .inl rfl, nofun, fun _ => ⟨rfl, rfl⟩⟩

/-! ## The decoder keeps its invariants -/

/-- A group that takes a bit stays below the power of two of its length (R114, I-8). -/
theorem Dec.shiftIn_lt {u : Dec} (hbc : u.bc ≠ 7#3) (h : u.sr.toNat < 2 ^ u.bc.toNat) (b : Bool) :
    (u.shiftIn b).toNat < 2 ^ (u.bc + 1#3).toNat := by
  have hlt : u.bc.toNat < 7 := by bv_omega
  have hadd : (u.bc + 1#3).toNat = u.bc.toNat + 1 := by
    rw [BitVec.toNat_add]; simp; omega
  have hb : ((BitVec.ofBool b).setWidth 8).toNat < 2 ^ (u.bc.toNat + 1) :=
    Nat.lt_of_lt_of_le (show _ < 2 ^ 1 by cases b <;> decide) (Nat.pow_le_pow_right (by decide) (by omega))
  have hsr : (u.sr <<< 1).toNat < 2 ^ (u.bc.toNat + 1) := by
    refine Nat.lt_of_le_of_lt ?_ (show 2 * u.sr.toNat < _ by rw [Nat.pow_succ]; omega)
    rw [BitVec.toNat_shiftLeft, Nat.shiftLeft_eq, Nat.pow_one, Nat.mul_comm]
    exact Nat.mod_le _ _
  rw [Dec.shiftIn, BitVec.toNat_or, hadd]
  exact Nat.or_lt_two_pow hsr hb

/-- R26: every change that a command makes to the decoder keeps its invariants. -/
theorem DecStep.keeps_invariants {i : Instr} {u v : Dec} (h : DecStep i u v) (hu : u.Invariants) : v.Invariants := by
  cases h with
  | kept => exact hu
  | reset => exact (Dec.legal_iff _).1 (by decide)
  | @raised _ _ e _ hf he =>
    have herr : (u.ctl.raise e).err = e := Ctl.raise_err_of_none e (hu.err_eq_none hf)
    refine ⟨⟨fun _ => ?_, fun _ => rfl⟩, ?_, nofun, hu.srBelow, hu.allHoldsNone, hu.remBelow, hu.noShape⟩
    · show (u.ctl.raise e).err ≠ .none
      rw [herr]; rintro rfl; simp at he
    · show (u.ctl.raise e).err ≠ .config
      rw [herr]; rintro rfl; simp at he
  | configured hst =>
    obtain ⟨-, -, -, hz⟩ := hu.atRest hst
    exact { hu with allHoldsNone := fun _ => hz }
  | started hst =>
    have herr := hu.err_eq_none (by rw [hst]; decide)
    exact ⟨⟨nofun, fun h => absurd herr h⟩, hu.decCode, nofun, by simp [Dec.clearTransaction], fun _ => rfl, nofun,
      fun _ => ⟨rfl, rfl, rfl⟩⟩
  | @latched rows cols _ hst _ =>
    exact { hu with
      atRest := fun h => (nomatch hst.symm.trans h), remBelow := fun _ => (area_toNat rows cols).le, noShape := nofun }
  | agreed hst hs =>
    exact { hu with
      atRest := fun h => (nomatch hst.symm.trans h), remBelow := fun _ => (area_toNat u.rows u.cols).le
      noShape := fun h => (nomatch hs.symm.trans h) }
  | @took _ b _ hst hr _ =>
    obtain ⟨sr, bc, z, heq, hgroup, hz⟩ := Dec.takeBit_unit b u
    rw [heq]
    have hrem : (u.rem - 1#24).toNat ≤ u.rem.toNat := by bv_omega
    refine ⟨hu.faultIffErr, hu.decCode, fun h => (nomatch hst.symm.trans h), ?_, fun hm => hz hm (hu.allHoldsNone hm),
      fun hs => hrem.trans (hu.remBelow hs), fun hs => absurd (hu.noShape hs).2.2 hr⟩
    obtain ⟨rfl, rfl⟩ | ⟨hbc, rfl, rfl⟩ := hgroup
    · exact Nat.one_pos
    · exact Dec.shiftIn_lt hbc hu.srBelow b
  | ended hst hr =>
    have herr := hu.err_eq_none (by rw [hst]; decide)
    exact { hu with
      faultIffErr := ⟨nofun, fun h => absurd herr h⟩, atRest := fun _ => ⟨hr, rfl, rfl, rfl⟩
      srBelow := Nat.one_pos, allHoldsNone := fun _ => rfl }
  | aborted =>
    exact ⟨⟨nofun, fun h => absurd rfl h⟩, nofun, fun _ => ⟨rfl, rfl, rfl, rfl⟩, Nat.one_pos, fun _ => rfl, nofun,
      fun _ => ⟨rfl, rfl, rfl⟩⟩

/-! ## Commands, words and steps keep the invariant -/

/-- Every command keeps the invariant. -/
theorem exec_keeps_legal {i : Instr} {s t : State} (h : exec i s = .next t) (hs : s.legal = true) :
    t.legal = true := by
  obtain ⟨henc, hdec⟩ := s.legal_iff.1 hs
  exact t.legal_iff.2 ⟨(exec_encStep h).keeps_invariants henc, (exec_decStep h).keeps_invariants hdec⟩

/-- After a reset of the registers the invariant holds, whatever the state was. -/
theorem State.resetRegisters_legal (s : State) : s.resetRegisters.legal = true :=
  (show s.resetRegisters.legal = State.reset.legal from rfl).trans resetIsLegal

/-- Every item the host presents keeps the invariant. -/
theorem present_keeps_legal {item : PortItem} {s t : State} (h : present item s = .next t) (hs : s.legal = true) :
    t.legal = true := by
  cases item with
  | word w =>
    obtain ⟨i, -, hexec⟩ | ⟨e, -, rfl⟩ := acceptWord_cases h
    · exact exec_keeps_legal hexec hs
    · exact hs
  | rst => cases h; exact s.resetRegisters_legal
  | rstDuring w n =>
    obtain ⟨whole, -, rfl⟩ := resetDuring_cases h
    exact State.resetRegisters_legal _

/-- Settles O33: a step waits or acts on one item, and every item keeps the invariant. -/
theorem stepKeepsLegal : Obligations.StepKeepsLegal := by
  intro s t hs h
  obtain ⟨-, ⟨-, rfl⟩ | ⟨item, rest, -, hitem⟩⟩ := step_cases h
  · exact hs
  · exact present_keeps_legal hitem hs

end Sys2Proof.Machine
end

section
/-! PROOFS. What the fields of 10_state.md depend on: `SYS.ILL` (R12, O40), the field write table (R27, O44), and the
independence of a transaction from what came before it (R29, O60). -/

namespace Sys2Proof.Machine

/-! ## `SYS.ILL` (R12) -/

/-- What the must-be-zero check lets through it leaves as it is. -/
theorem wellFormed_of_ifZero {n : Nat} {zero : BitVec n} {w : Word} {i j : Instr} (hi : i.wellFormed = true)
    (h : ifZero zero w (.ok i) = .ok j) : j.wellFormed = true := by
  cases (ifZero_ok h).2
  exact hi

/-- A word of format I that decodes names a status register (30_encoding.md R65, R69). -/
theorem wellFormed_of_formatI {w : Word} {i : Instr} (h : formatI w .rdsr = .ok i) : i.wellFormed = true := by
  have hidx := (ifZero_ok h).2
  split at hidx
  · cases hidx
    exact decide_eq_true ‹_›
  · cases hidx

/-- A word decodes to well-formed commands only (R68). -/
theorem wellFormed_of_decode {w : Word} {i : Instr} (h : decode w = .ok i) : i.wellFormed = true := by
  unfold decode at h
  split at h
  -- third row: `RDSR`, fourth and eleventh: format G, fifteenth: no row; the others check bits to be 0
  case h_3 => exact wellFormed_of_formatI h
  case h_4 | h_11 => cases h; rfl
  case h_15 => cases h
  all_goals exact wellFormed_of_ifZero rfl h

/-- R12: a command is executed alike whatever `SYS.ILL` holds, but for the response of a status read. -/
theorem exec_with_sys {i : Instr} {s t : State} (hi : i.wellFormed = true) (h : exec i s = .next t) (y : Sys) :
    ∃ u, exec i (s.setSys y) = .next u ∧ u.enc = t.enc ∧ u.dec = t.dec ∧ u.pixOut = t.pixOut ∧
      u.byteOut = t.byteOut ∧ u.input = t.input := by
  cases i with
  | nop | sysReset => cases h; exact ⟨_, rfl, rfl, rfl, rfl, rfl, rfl⟩
  | rdsr idx =>
    obtain ⟨v, hv⟩ := exec_rdsr hi s
    obtain ⟨v', hv'⟩ := exec_rdsr hi (s.setSys y)
    obtain rfl := Host.Outcome.next.inj (hv.symm.trans h)
    exact ⟨_, hv', rfl, rfl, rfl, rfl, rfl⟩
  | encCfg _ _ | encStart | encByte _ | encEnd | encAbort =>
    obtain ⟨u, evs, rfl, hu⟩ := exec_confined_of_forEnc rfl s t h
    exact ⟨_, hu (s.setSys y) rfl, rfl, rfl, rfl, rfl, rfl⟩
  | decCfg _ | decStart | decRaster _ _ | decPix _ | decEnd | decAbort =>
    obtain ⟨u, evs, rfl, hu⟩ := exec_confined_of_forDec rfl s t h
    exact ⟨_, hu (s.setSys y) rfl, rfl, rfl, rfl, rfl, rfl⟩

/-- What a step does to the system group: it stays, or an illegal word sets `SYS.ILL`, or a reset clears it. -/
theorem step_sys {s t : State} (h : step s = .next t) :
    t.sys = s.sys ∨
    (t.sys.ill = true ∧ ∃ w rest e, s.input = .word w :: rest ∧ decode w = .error e) ∨
    (t.sys.ill = false ∧ ∃ item rest, s.input = item :: rest ∧
      (item = .rst ∨ (∃ w n, item = .rstDuring w n) ∨ ∃ w, item = .word w ∧ decode w = .ok .sysReset)) := by
  obtain ⟨-, ⟨-, rfl⟩ | ⟨item, rest, hin, hitem⟩⟩ := step_cases h
  · exact .inl rfl
  · cases item with
    | word w =>
      obtain ⟨i, hdec, hexec⟩ | ⟨e, hdec, rfl⟩ := acceptWord_cases hitem
      · obtain hsame | ⟨rfl, hreset⟩ := exec_sys (wellFormed_of_decode hdec) hexec
        · exact .inl hsame
        · exact .inr (.inr ⟨by rw [hreset]; rfl, _, rest, hin, .inr (.inr ⟨w, rfl, hdec⟩)⟩)
      · exact .inr (.inl ⟨rfl, w, rest, e, hin, hdec⟩)
    | rst => cases hitem; exact .inr (.inr ⟨rfl, _, rest, hin, .inl rfl⟩)
    | rstDuring w n =>
      obtain ⟨whole, -, rfl⟩ := resetDuring_cases hitem
      exact .inr (.inr ⟨rfl, _, rest, hin, .inr (.inl ⟨w, n, rfl⟩)⟩)

/-- Settles O40: the two causes are the two ways in which a step changes the system group (`step_sys`), and no other
group is computed from it (`exec_with_sys`). -/
theorem illIsStickyRecord : Obligations.IllIsStickyRecord := by
  refine ⟨fun s t h hs ht => ?_, fun s t h hs ht => ?_, fun i s t hi h y => exec_with_sys hi h y⟩
  · obtain hsame | ⟨-, hill⟩ | ⟨hclear, -⟩ := step_sys h
    · exact nomatch hs.symm.trans ((congrArg Sys.ill hsame).symm.trans ht)
    · exact hill
    · exact nomatch hclear.symm.trans ht
  · obtain hsame | ⟨hset, -⟩ | ⟨-, hreset⟩ := step_sys h
    · exact nomatch hs.symm.trans ((congrArg Sys.ill hsame).symm.trans ht)
    · exact nomatch hset.symm.trans ht
    · exact hreset

/-! ## The field write table (R27) -/

/-- The rows of the encoder's fields. -/
theorem EncStep.fields {i : Instr} {u v : Enc} (h : EncStep i u v) (hu : u.Invariants) :
    (v.rows ≠ u.rows ∨ v.cols ≠ u.cols → i = .sysReset ∨ ∃ r c, i = .encCfg r c) ∧
    (v.ctl ≠ u.ctl → i = .sysReset ∨ forEnc i = true) ∧
    (v.row ≠ u.row ∨ v.col ≠ u.col ∨ v.ras ≠ u.ras →
      i = .sysReset ∨ i = .encStart ∨ (∃ b, i = .encByte b) ∨ i = .encEnd ∨ i = .encAbort) ∧
    v.sr = u.sr := by
  have hsr : v.sr = u.sr := (h.keeps_invariants hu).srEmpty.trans hu.srEmpty.symm
  refine ⟨?_, ?_, ?_, hsr⟩
  · cases h with
    | kept | raised | started | aborted => simp [Enc.abort]
    | reset | configured => simp
    | @shifted b =>
      obtain ⟨⟨hrows, hcols, -⟩, -⟩ := encShifts_setup 8 { u with sr := b }
      rintro (hne | hne)
      · exact absurd hrows hne
      · exact absurd hcols hne
    | padded _ hp =>
      obtain ⟨-, ⟨hrows, hcols, -⟩, -⟩ := encPad_ends hp
      rintro (hne | hne)
      · exact absurd hrows hne
      · exact absurd hcols hne
  · cases h with
    | kept => simp
    | reset => exact fun _ => .inl rfl
    | raised hi => exact fun _ => .inr hi
    | configured | started | shifted | padded | aborted => exact fun _ => .inr rfl
  · cases h with
    | kept | raised | configured => simp
    | reset | started | shifted | padded | aborted => simp

/-- The rows of the decoder's fields. -/
theorem DecStep.fields {i : Instr} {u v : Dec} (h : DecStep i u v) :
    (v.mode ≠ u.mode → i = .sysReset ∨ ∃ m, i = .decCfg m) ∧
    (v.ctl ≠ u.ctl → i = .sysReset ∨ forDec i = true) ∧
    (v.rows ≠ u.rows ∨ v.cols ≠ u.cols ∨ v.haveShape ≠ u.haveShape →
      i = .sysReset ∨ i = .decStart ∨ (∃ r c, i = .decRaster r c) ∨ i = .decAbort) ∧
    (v.rem ≠ u.rem →
      i = .sysReset ∨ i = .decStart ∨ (∃ r c, i = .decRaster r c) ∨ (∃ v, i = .decPix v) ∨ i = .decAbort) ∧
    (v.sr ≠ u.sr ∨ v.bc ≠ u.bc ∨ v.zrun ≠ u.zrun →
      i = .sysReset ∨ i = .decStart ∨ (∃ v, i = .decPix v) ∨ i = .decEnd ∨ i = .decAbort) := by
  cases h with
  | kept => simp
  | raised hi => simp [hi]
  | reset => simp
  | configured | started | latched | agreed | ended | aborted =>
    simp [forDec, Dec.abort, Dec.clearTransaction]
  | @took _ b =>
    obtain ⟨sr, bc, z, heq, -, -⟩ := Dec.takeBit_unit b u
    rw [heq]
    simp

/-- Settles O44: the rows of the system group, of the encoder's and of the decoder's. -/
theorem fieldWriteTable : Obligations.FieldWriteTable := by
  intro i s t hi hs h
  obtain ⟨hgeom, hectl, hpos, hsr⟩ := (exec_encStep h).fields (s.legal_iff.1 hs).1
  obtain ⟨hmode, hdctl, hshape, hrem, hgroup⟩ := (exec_decStep h).fields
  refine ⟨fun hne => ?_, hgeom, hectl, hpos, hsr, hmode, hdctl, hshape, hrem, hgroup⟩
  obtain hsame | ⟨hreset, -⟩ := exec_sys hi h
  · exact absurd hsame hne
  · exact hreset

/-! ## Transactions are independent (R29) -/

/-- The encoder as an accepted `ENC_START` leaves it: the geometry decides every field. -/
def Enc.opened (rows cols : Dim) : Enc :=
  { rows := rows, cols := cols, ctl := { state := .active, err := .none }, row := 0#12, col := 0#12, ras := 0#32,
    sr := 0#8 }

/-- The decoder as an accepted `DEC_START` leaves it: the mode decides every field. -/
def Dec.opened (mode : StripMode) : Dec :=
  { mode := mode, ctl := { state := .active, err := .none }, rows := 0#12, cols := 0#12, haveShape := false,
    rem := 0#24, sr := 0#8, bc := 0#3, zrun := 0#32 }

/-- R92, from a state of the invariant. -/
theorem exec_encStart_opens {s : State} (hs : s.legal = true) (hst : s.enc.ctl.state = .idle)
    (hg : geomOk s.enc.rows.toNat s.enc.cols.toNat = true) :
    exec .encStart s = .next (encView.put (.opened s.enc.rows s.enc.cols) [] s) := by
  have hne : s.enc.ctl.state ≠ .fault := by rw [hst]; decide
  have herr := (s.legal_iff.1 hs).1.err_eq_none hne
  have hact : encStartAct s.enc = .does (.opened s.enc.rows s.enc.cols) [] := by
    simp [encStartAct, hg, Enc.opened, herr]
  show onEnc s.enc.ctl.isIdle (encStartAct s.enc) s = _
  rw [hact, (Ctl.isIdle_iff _).2 hst]
  exact onEnc_does hne

/-- R112, from a state of the invariant. -/
theorem exec_decStart_opens {s : State} (hs : s.legal = true) (hst : s.dec.ctl.state = .idle) :
    exec .decStart s = .next (decView.put (.opened s.dec.mode) [] s) := by
  have hne : s.dec.ctl.state ≠ .fault := by rw [hst]; decide
  have herr := (s.legal_iff.1 hs).2.err_eq_none hne
  have hact : decStartAct s.dec = .does (.opened s.dec.mode) [] := by
    simp [decStartAct, Dec.clearTransaction, Dec.opened, herr]
  show onDec s.dec.ctl.isIdle (decStartAct s.dec) s = _
  rw [hact, (Ctl.isIdle_iff _).2 hst]
  exact onDec_does hne

/-- Settles O60: the start brings the unit to registers that the configuration decides, and a unit's commands depend on
its registers only. -/
theorem transactionsAreIndependent : Obligations.TransactionsAreIndependent := by
  constructor
  · intro is s s' t his hs hs' hst hst' hrows hcols hg h
    have hstart' := exec_encStart_opens hs' hst' (hrows ▸ hcols ▸ hg)
    rw [← hrows, ← hcols] at hstart'
    obtain ⟨v, evs, rfl, hrun⟩ :=
      UnitView.runs_alike (exec_encStart_opens hs hst hg) hstart' (fun i hi => exec_confined_of_forEnc (his i hi)) h
    exact ⟨_, evs, hrun, rfl, rfl, rfl⟩
  · intro is s s' t his hs hs' hst hst' hmode h
    have hstart' := exec_decStart_opens hs' hst'
    rw [← hmode] at hstart'
    obtain ⟨v, evs, rfl, hrun⟩ :=
      UnitView.runs_alike (exec_decStart_opens hs hst) hstart' (fun i hi => exec_confined_of_forDec (his i hi)) h
    exact ⟨_, evs, hrun, rfl, rfl, rfl⟩

end Sys2Proof.Machine
end

section
/-! PROOFS. The layout of the status registers (10_state.md R31 to R39): a register is a concatenation, and a bit field
of it is one of the parts. -/

namespace Sys2Proof.Machine

/-! ## Bit fields of a concatenation -/

/-- A field above the lowest part of a concatenation is a field of the parts above it. -/
theorem extract_above {n m : Nat} (x : BitVec n) (y : BitVec m) (start len : Nat) :
    (x ++ y).extractLsb' (start + m) len = x.extractLsb' start len := by
  rw [BitVec.extractLsb'_append_eq_of_le (Nat.le_add_left m start), Nat.add_sub_cancel]

theorem flagBit_eq_one_iff (b : Bool) : flagBit b = 1#1 ↔ b = true := by
  cases b <;> decide

theorem toBit_eq_one_iff (m : StripMode) : m.toBit = 1#1 ↔ m = .all := by
  cases m <;> decide

/-! ## The registers of the system and the encoder -/

theorem sysStatus_fields (s : State) :
    ((sysStatus s).extractLsb' 0 1 = 1#1 ↔ s.sys.ill = true) ∧ (sysStatus s).extractLsb' 1 31 = 0#31 :=
  ⟨by rw [sysStatus, extract_low]; exact flagBit_eq_one_iff _, extract_high _ _⟩

/-- The layout that `ENC_GEOM`, `ENC_POS` and the low part of `DEC_GEOM` share. -/
theorem dimPair_fields {n : Nat} (x : BitVec n) (hi lo : Dim) :
    (x ++ hi ++ lo).extractLsb' 12 12 = hi ∧ (x ++ hi ++ lo).extractLsb' 0 12 = lo ∧
      (x ++ hi ++ lo).extractLsb' 24 n = x :=
  ⟨extract_middle x hi lo, extract_low _ lo, extract_top x hi lo⟩

theorem encStatus_fields (s : State) :
    (encStatus s).extractLsb' 0 2 = s.enc.ctl.state.code ∧ (encStatus s).extractLsb' 2 2 = 0#2 ∧
      (encStatus s).extractLsb' 4 4 = s.enc.ctl.err.code ∧ (encStatus s).extractLsb' 8 24 = 0#24 :=
  ⟨extract_low _ _, extract_middle _ _ _, (extract_above _ _ 2 4).trans (extract_middle _ _ _),
    (extract_above _ _ 6 24).trans (extract_top _ _ _)⟩

/-- Settles O11: each register by its fields, the codes and the reset values by evaluation. -/
theorem encoderStatusRegisterLayout : Obligations.EncoderStatusRegisterLayout := by
  refine ⟨fun s => ?_, rfl, rfl, rfl, rfl, rfl, rfl, rfl⟩
  obtain ⟨hill, hzero⟩ := sysStatus_fields s
  obtain ⟨hrows, hcols, hgeom⟩ := dimPair_fields 0#8 s.enc.rows s.enc.cols
  obtain ⟨hstate, hpad, herr, hstatus⟩ := encStatus_fields s
  obtain ⟨hrow, hcol, hpos⟩ := dimPair_fields 0#8 s.enc.row s.enc.col
  exact ⟨sysStatus s, encGeom s, encStatus s, encPos s, encRas s, rfl, rfl, rfl, rfl, rfl, hill, hzero, hrows, hcols,
    hgeom, hstate, hpad, herr, hstatus, hrow, hcol, hpos, rfl⟩

/-! ## The registers of the decoder -/

theorem decGeom_fields (s : State) :
    ((decGeom s).extractLsb' 24 1 = 1#1 ↔ s.dec.haveShape = true) ∧ (decGeom s).extractLsb' 12 12 = s.dec.rows ∧
      (decGeom s).extractLsb' 0 12 = s.dec.cols ∧ (decGeom s).extractLsb' 25 7 = 0#7 := by
  obtain ⟨hrows, hcols, -⟩ := dimPair_fields (0#7 ++ flagBit s.dec.haveShape) s.dec.rows s.dec.cols
  have hflag : (decGeom s).extractLsb' 24 1 = flagBit s.dec.haveShape :=
    (extract_above _ _ 12 1).trans (extract_middle _ _ _)
  exact ⟨by rw [hflag]; exact flagBit_eq_one_iff _, hrows, hcols, (extract_above _ _ 13 7).trans (extract_top _ _ _)⟩

theorem decStatus_fields (s : State) :
    (decStatus s).extractLsb' 0 2 = s.dec.ctl.state.code ∧
      ((decStatus s).extractLsb' 2 1 = 1#1 ↔ s.dec.mode = .all) ∧ (decStatus s).extractLsb' 3 1 = 0#1 ∧
      (decStatus s).extractLsb' 4 4 = s.dec.ctl.err.code ∧ (decStatus s).extractLsb' 8 8 = s.dec.sr ∧
      (decStatus s).extractLsb' 16 3 = s.dec.bc ∧ (decStatus s).extractLsb' 19 13 = 0#13 := by
  have hmode : (decStatus s).extractLsb' 2 1 = s.dec.mode.toBit := extract_middle _ _ _
  have hpad : (decStatus s).extractLsb' 3 1 = 0#1 := (extract_above _ _ 1 1).trans (extract_middle _ _ _)
  have hupper (start len : Nat) : (decStatus s).extractLsb' (start + 4) len =
      (0#13 ++ s.dec.bc ++ s.dec.sr ++ s.dec.ctl.err.code).extractLsb' start len :=
    (extract_above _ _ (start + 2) len).trans ((extract_above _ _ (start + 1) len).trans (extract_above _ _ start len))
  exact ⟨extract_low _ _, by rw [hmode]; exact toBit_eq_one_iff _, hpad, (hupper 0 4).trans (extract_low _ _),
    (hupper 4 8).trans (extract_middle _ _ _),
    (hupper 12 3).trans ((extract_above _ _ 8 3).trans (extract_middle _ _ _)),
    (hupper 15 13).trans ((extract_above _ _ 11 13).trans (extract_top _ _ _))⟩

/-- Settles O12: each register by its fields, the reset values by evaluation. -/
theorem decoderStatusRegisterLayout : Obligations.DecoderStatusRegisterLayout := by
  refine ⟨fun s => ?_, rfl, rfl, rfl, rfl⟩
  obtain ⟨hhave, hrows, hcols, hgeom⟩ := decGeom_fields s
  obtain ⟨hstate, hmode, hpad, herr, hsr, hbc, hstatus⟩ := decStatus_fields s
  exact ⟨decGeom s, decStatus s, decRem s, decZrun s, rfl, rfl, rfl, rfl, hhave, hrows, hcols, hgeom, hstate, hmode,
    hpad, herr, hsr, hbc, hstatus, extract_low _ _, extract_high _ _, rfl⟩

end Sys2Proof.Machine
end

section
/-! PROOFS. The ports (spec/20_memory.md): the level outputs (R48, O29), and that events are only appended, on one port
at most (R53, R192, O45). -/

namespace Sys2Proof.Machine

/-! ## The level outputs (R48) -/

/-- Settles O29: each output is the test of the field it shows. -/
theorem levelOutputsShowState : Obligations.LevelOutputsShowState :=
  fun _ => ⟨beq_iff_eq, beq_iff_eq, Iff.rfl⟩

/-! ## Events are only appended (R53, R192) -/

/-- Every trace of `t` is that of `s` with events after it, on one port at most. -/
def State.AppendsTo (s t : State) : Prop :=
  ∃ ps bs rs, t.pixOut = s.pixOut ++ ps ∧ t.byteOut = s.byteOut ++ bs ∧ t.rspOut = s.rspOut ++ rs ∧
    ((ps = [] ∧ bs = []) ∨ (ps = [] ∧ rs = []) ∨ (bs = [] ∧ rs = []))

theorem State.AppendsTo.of_silent {s t : State} (hpix : t.pixOut = s.pixOut) (hbyte : t.byteOut = s.byteOut)
    (hrsp : t.rspOut = s.rspOut) : s.AppendsTo t :=
  ⟨[], [], [], by simpa using hpix, by simpa using hbyte, by simpa using hrsp, .inl ⟨rfl, rfl⟩⟩

/-- Every command appends on one port at most: an encoder command on `PIX_OUT`, a decoder command on `BYTE_OUT`,
`RDSR` on `RSP`. -/
theorem exec_appends {i : Instr} {s t : State} (h : exec i s = .next t) : s.AppendsTo t := by
  cases i with
  | nop | sysReset => cases h; exact .of_silent rfl rfl rfl
  | rdsr idx =>
    obtain ⟨v, -, rfl⟩ | ⟨-, rfl⟩ := execRdsr_cases h
    · exact ⟨[], [], [v], (List.append_nil _).symm, (List.append_nil _).symm, rfl, .inl ⟨rfl, rfl⟩⟩
    · exact .of_silent rfl rfl rfl
  | encCfg _ _ | encStart | encByte _ | encEnd | encAbort =>
    obtain ⟨u, evs, rfl, -⟩ := exec_confined_of_forEnc rfl s t h
    exact ⟨evs, [], [], rfl, (List.append_nil _).symm, (List.append_nil _).symm, .inr (.inr ⟨rfl, rfl⟩)⟩
  | decCfg _ | decStart | decRaster _ _ | decPix _ | decEnd | decAbort =>
    obtain ⟨u, evs, rfl, -⟩ := exec_confined_of_forDec rfl s t h
    exact ⟨[], evs, [], (List.append_nil _).symm, rfl, (List.append_nil _).symm, .inr (.inl ⟨rfl, rfl⟩)⟩

/-- Every accepted word appends on one port at most, an illegal one on none. -/
theorem acceptWord_appends {w : Word} {s t : State} (h : acceptWord w s = .next t) : s.AppendsTo t := by
  obtain ⟨i, -, hexec⟩ | ⟨e, -, rfl⟩ := acceptWord_cases h
  · exact exec_appends hexec
  · exact .of_silent rfl rfl rfl

/-- A command cut short appends a first part of what the whole command appends (R190). -/
theorem cutShort_appends (n : Nat) {s whole : State} (h : s.AppendsTo whole) : s.AppendsTo (cutShort n s whole) := by
  obtain ⟨ps, bs, rs, hpix, hbyte, hrsp, hport⟩ := h
  refine ⟨ps.take n, bs.take n, rs.take n, ?_, ?_, ?_, ?_⟩
  · simp [cutShort, hpix]
  · simp [cutShort, hbyte]
  · simp [cutShort, hrsp]
  · obtain ⟨rfl, rfl⟩ | ⟨rfl, rfl⟩ | ⟨rfl, rfl⟩ := hport <;> simp

/-- Whatever the host presents, the block appends on one port at most. -/
theorem present_appends {item : PortItem} {s t : State} (h : present item s = .next t) : s.AppendsTo t := by
  cases item with
  | word w => exact acceptWord_appends h
  | rst => cases h; exact .of_silent rfl rfl rfl
  | rstDuring w n =>
    obtain ⟨whole, hwhole, rfl⟩ := resetDuring_cases h
    exact cutShort_appends n (acceptWord_appends hwhole)

/-- Settles O45: a step waits, or acts on one item and appends on one port at most. -/
theorem tracesOnlyGrow : Obligations.TracesOnlyGrow := by
  intro s t h
  obtain ⟨-, ⟨-, rfl⟩ | ⟨item, rest, -, hitem⟩⟩ := step_cases h
  · exact State.AppendsTo.of_silent rfl rfl rfl
  · have happ : (s.setInput rest).AppendsTo t := present_appends hitem
    exact happ

end Sys2Proof.Machine
end

section
/-! PROOFS. The encoder's two emitting commands at event number `k` of a transaction, and the pixel events they emit
(20_memory.md R42; 41_encoder_commands.md R99; O46). -/

namespace Sys2Proof.Machine

/-! ## The events that carry a pixel sequence -/

theorem mem_mappedPixels {rows cols : Dim} {k : Nat} {vs : List Byte} {e : Pix} (h : e ∈ mappedPixels rows cols k vs) :
    ∃ j, ∃ v ∈ vs, e = mappedPix rows cols j v := by
  induction vs generalizing k with
  | nil => cases h
  | cons v vs ih =>
    obtain rfl | htail := List.mem_cons.1 h
    · exact ⟨k, v, List.mem_cons_self, rfl⟩
    · obtain ⟨j, w, hw, he⟩ := ih htail
      exact ⟨j, w, List.mem_cons_of_mem v hw, he⟩

theorem mappedPixels_append (rows cols : Dim) (k : Nat) (vs ws : List Byte) :
    mappedPixels rows cols k (vs ++ ws) = mappedPixels rows cols k vs ++ mappedPixels rows cols (k + vs.length) ws := by
  induction vs generalizing k with
  | nil => rfl
  | cons v vs ih => simp only [List.cons_append, mappedPixels, ih, List.length_cons, Nat.add_assoc, Nat.add_comm 1]

/-! ## The actions of `ENC_BYTE` and `ENC_END` at event number `k` -/

/-- The number of the event that the unit is about to emit. -/
def Enc.index (u : Enc) : Nat := u.ras.toNat * u.capacity + u.pos

/-- How many pixels complete the raster that event number `k` falls in: none where `k` begins it (R95). -/
def padCount (c k : Nat) : Nat := (c - k % c) % c

/-- The encoder inside a transaction: `ACTIVE`, with a legal geometry and an empty shift register. -/
structure Enc.Encoding (u : Enc) : Prop where
  active : u.ctl.state = .active
  geom : geomOk u.rows.toNat u.cols.toNat = true
  srEmpty : u.sr = 0#8

/-- An `ACTIVE` encoder of the invariant is inside a transaction, at its event number. -/
theorem Enc.Invariants.encoding {u : Enc} (hu : u.Invariants) (hst : u.ctl.state = .active) :
    u.Encoding ∧ u = u.atPix u.index := by
  obtain ⟨hr, hc, hmul, hrow, hcol, -⟩ := hu.inRaster hst
  exact ⟨⟨hst, (geomOk_iff _ _).2 ⟨hr, hc, hmul⟩, hu.srEmpty⟩, Enc.eq_atPix hrow hcol⟩

/-- R94: the byte's bits go out as events `k` to `k + 7`. -/
theorem encByteAct_atPix {u : Enc} (hu : u.Encoding) (k : Nat) (b : Byte) :
    encByteAct b (u.atPix k) = .does (u.atPix (k + 8)) (mappedPixels u.rows u.cols k ((byteBits b).map pix)) := by
  have hshift := encShifts_atPix 8 (u := { u with sr := b }) hu.geom k
  have hempty : { u with sr := (0#8 : Byte) } = u := hu.srEmpty ▸ rfl
  rw [shiftedBy_eight, shiftedOut_eight, hempty] at hshift
  simp only [encByteAct, Enc.atPix_withSr, hshift]

/-- R95: pixels of value 0x00 complete the raster. -/
theorem encEndAct_atPix {u : Enc} (hu : u.Encoding) (k : Nat) :
    encEndAct (u.atPix k) =
      .does { u.atPix (k + padCount u.capacity k) with ctl := { u.ctl with state := .idle } }
        (mappedPixels u.rows u.cols k (List.replicate (padCount u.capacity k) (pix false))) := by
  have hpad := encPad_atPix u.capacity hu.geom hu.srEmpty k (Nat.mod_lt _ (capacity_pos hu.geom)).le
  simp only [encEndAct, Enc.atPix_capacity, hpad]
  rfl

/-! ## The events of one command -/

/-- The events after `s.pixOut` in `t.pixOut` carry the pixel values of some bits in the geometry of `s`, and there are
none unless the encoder is inside a transaction. -/
def EmitsMapped (s t : State) : Prop :=
  ∃ k bits, t.pixOut = s.pixOut ++ mappedPixels s.enc.rows s.enc.cols k (bits.map pix) ∧
    (bits ≠ [] → geomOk s.enc.rows.toNat s.enc.cols.toNat = true)

theorem EmitsMapped.of_silent {s t : State} (h : t.pixOut = s.pixOut) : EmitsMapped s t :=
  ⟨0, [], by simpa [mappedPixels] using h, fun hne => absurd rfl hne⟩

/-- What the dispatch of R80 emits is what the performed action emits. -/
theorem EmitsMapped.of_onEnc {accepts : Bool} {act : Act Enc Pix} {s t : State} (h : onEnc accepts act s = .next t)
    (hdoes : ∀ u evs, accepts = true → act = .does u evs → EmitsMapped s ((s.setEnc u).emitPix evs)) :
    EmitsMapped s t := by
  obtain ⟨-, rfl⟩ | ⟨-, ha, u, evs, hact, rfl⟩ | ⟨-, -, e, -, rfl⟩ | ⟨-, -, rfl⟩ := onEnc_cases h
  case inr.inl => exact hdoes u evs ha hact
  all_goals exact .of_silent rfl

/-- From a state of the invariant a command emits pixels of bits at consecutive event numbers: `ENC_BYTE` those of its
byte, `ENC_END` zeros, any other none. -/
theorem exec_emitsMapped {i : Instr} {s t : State} (hs : s.legal = true) (h : exec i s = .next t) :
    EmitsMapped s t := by
  have henc := (s.legal_iff.1 hs).1
  cases i with
  | nop | sysReset | encAbort => cases h; exact .of_silent rfl
  | rdsr idx => obtain ⟨v, -, rfl⟩ | ⟨-, rfl⟩ := execRdsr_cases h <;> exact .of_silent rfl
  | encCfg rows cols =>
    refine .of_onEnc (act := encCfgAct rows cols s.enc) h fun u evs _ hact => ?_
    cases hact
    exact .of_silent (List.append_nil _)
  | encStart =>
    refine .of_onEnc (act := encStartAct s.enc) h fun u evs _ hact => ?_
    unfold encStartAct at hact
    split at hact <;> cases hact
    exact .of_silent (List.append_nil _)
  | encByte b =>
    refine .of_onEnc (act := encByteAct b s.enc) h fun u evs ha hact => ?_
    obtain ⟨hu, hat⟩ := henc.encoding ((Ctl.isActive_iff _).1 ha)
    rw [hat, encByteAct_atPix hu] at hact
    cases hact
    exact ⟨_, byteBits b, rfl, fun _ => hu.geom⟩
  | encEnd =>
    refine .of_onEnc (act := encEndAct s.enc) h fun u evs ha hact => ?_
    obtain ⟨hu, hat⟩ := henc.encoding ((Ctl.isActive_iff _).1 ha)
    rw [hat, encEndAct_atPix hu] at hact
    cases hact
    exact ⟨_, List.replicate _ false, by rw [List.map_replicate]; rfl, fun _ => hu.geom⟩
  | decCfg _ | decStart | decRaster _ _ | decPix _ | decEnd | decAbort =>
    obtain ⟨u, evs, rfl, -⟩ := exec_confined_of_forDec rfl s t h
    exact .of_silent rfl

/-! ## Every event is well formed (R42, R99) -/

/-- The `eor` of the next event: the position is the last of both the rows and the columns. -/
theorem Enc.atLast_iff {u : Enc} (hg : geomOk u.rows.toNat u.cols.toNat = true) :
    u.atLast = true ↔ u.row.toNat + 1 = u.rows.toNat ∧ u.col.toNat + 1 = u.cols.toNat := by
  obtain ⟨hr, hc, -⟩ := (geomOk_iff _ _).1 hg
  simp only [Enc.atLast, Bool.and_eq_true, beq_iff_eq, dim_eq_pred_iff hr, dim_eq_pred_iff hc]

/-- The event the row-major map of R44 gives a number lies in the raster and marks its last pixel. -/
theorem mappedPix_wellFormed {u : Enc} (hg : geomOk u.rows.toNat u.cols.toNat = true) (k : Nat) (v : Byte) :
    (mappedPix u.rows u.cols k v).row.toNat < u.rows.toNat ∧ (mappedPix u.rows u.cols k v).col.toNat < u.cols.toNat ∧
      ((mappedPix u.rows u.cols k v).eor = true ↔
        (mappedPix u.rows u.cols k v).row.toNat + 1 = u.rows.toNat ∧
          (mappedPix u.rows u.cols k v).col.toNat + 1 = u.cols.toNat) := by
  rw [← Enc.atPix_pixEvent hg]
  refine ⟨?_, ?_, Enc.atLast_iff (u := u.atPix k) hg⟩
  · exact (Enc.atPix_row_toNat hg k).trans_lt (Enc.row_lt hg k)
  · exact (Enc.atPix_col_toNat hg k).trans_lt (Enc.col_lt hg k)

theorem pix_eq_or (b : Bool) : pix b = 0x00#8 ∨ pix b = 0xFF#8 := by
  cases b with
  | false => exact .inl rfl
  | true => exact .inr rfl

/-- Settles O46: a command's events carry pixel values of bits (`exec_emitsMapped`), each at the position of its number
(`mappedPix_wellFormed`). -/
theorem pixelEventsAreWellFormed : Obligations.PixelEventsAreWellFormed := by
  intro i s t hs h e he
  obtain ⟨k, bits, hout, hgeom⟩ := exec_emitsMapped hs h
  rw [hout, List.drop_left] at he
  obtain ⟨j, v, hv, rfl⟩ := mem_mappedPixels he
  obtain ⟨b, hb, rfl⟩ := List.mem_map.1 hv
  exact ⟨pix_eq_or b, mappedPix_wellFormed (hgeom (List.ne_nil_of_mem hb)) j (pix b)⟩

end Sys2Proof.Machine
end

section
/-! PROOFS. An encode transaction as the machine runs it, and its events read as stores in the output raster space
(20_memory.md R44; 43_transactions.md R144; O56). -/

namespace Sys2Proof.Machine

/-! ## The commands of an encode transaction, each at its event number -/

/-- R91 in `IDLE`. -/
theorem exec_encCfg_idle {s : State} (hst : s.enc.ctl.state = .idle) (rows cols : Dim) :
    exec (.encCfg rows cols) s = .next (encView.put { s.enc with rows := rows, cols := cols } [] s) := by
  show onEnc s.enc.ctl.isIdle (encCfgAct rows cols s.enc) s = _
  rw [(Ctl.isIdle_iff _).2 hst]
  exact onEnc_does (by rw [hst]; decide)

/-- What an encoder command that asks for `ACTIVE` does inside a transaction. -/
theorem onEnc_active {s : State} {u v : Enc} {act : Act Enc Pix} {evs : List Pix} {k : Nat} (hu : u.Encoding)
    (hs : s.enc = u.atPix k) (hact : act = .does v evs) :
    onEnc s.enc.ctl.isActive act s = .next (encView.put v evs s) := by
  have hst : s.enc.ctl.state = .active := hs ▸ hu.active
  rw [(Ctl.isActive_iff _).2 hst, hact]
  exact onEnc_does (by rw [hst]; decide)

/-- R94 at event number `k`. -/
theorem exec_encByte_atPix {s : State} {u : Enc} {k : Nat} (hu : u.Encoding) (hs : s.enc = u.atPix k) (b : Byte) :
    exec (.encByte b) s =
      .next (encView.put (u.atPix (k + 8)) (mappedPixels u.rows u.cols k ((byteBits b).map pix)) s) :=
  onEnc_active (act := encByteAct b s.enc) hu hs (hs ▸ encByteAct_atPix hu k b)

/-- R95 at event number `k`. -/
theorem exec_encEnd_atPix {s : State} {u : Enc} {k : Nat} (hu : u.Encoding) (hs : s.enc = u.atPix k) :
    exec .encEnd s =
      .next (encView.put { u.atPix (k + padCount u.capacity k) with ctl := { u.ctl with state := .idle } }
        (mappedPixels u.rows u.cols k (List.replicate (padCount u.capacity k) (pix false))) s) :=
  onEnc_active (act := encEndAct s.enc) hu hs (hs ▸ encEndAct_atPix hu k)

@[simp] theorem length_byteBits (b : Byte) : (byteBits b).length = 8 := by
  simp [byteBits]

@[simp] theorem length_bitsOf (bs : List Byte) : (bitsOf bs).length = 8 * bs.length := by
  induction bs with
  | nil => rfl
  | cons b bs ih =>
    calc (bitsOf (b :: bs)).length = (byteBits b).length + (bitsOf bs).length := List.length_append
      _ = 8 * (bs.length + 1) := by rw [length_byteBits, ih]; omega

/-- The bytes of a transaction from event number `k` on. -/
theorem execAll_encBytes_atPix {u : Enc} (hu : u.Encoding) (bs : List Byte) {s : State} {k : Nat}
    (hs : s.enc = u.atPix k) :
    execAll (encBytes bs) s =
      .next (encView.put (u.atPix (k + 8 * bs.length)) (mappedPixels u.rows u.cols k ((bitsOf bs).map pix)) s) := by
  induction bs generalizing s k with
  | nil => exact congrArg _ (encView.put_of_get_eq (s := { s with enc := u.atPix k }) hs).symm
  | cons b bs ih =>
    refine execAll_cons.2 ⟨_, exec_encByte_atPix hu hs b, (ih (encView.get_put ..)).trans ?_⟩
    rw [encView.put_put]
    have hpixels : (bitsOf (b :: bs)).map pix = (byteBits b).map pix ++ (bitsOf bs).map pix := List.map_append
    rw [hpixels, mappedPixels_append, List.length_map, length_byteBits, List.length_cons,
      show k + 8 + 8 * bs.length = k + 8 * (bs.length + 1) by omega]

/-! ## The padding of the reference encoder (R141) -/

/-- The pixels of the bytes and of the padding fill `ceil(L / C)` rasters. -/
theorem add_padCount {c : Nat} (hc : 0 < c) (l : Nat) : l + padCount c l = rasterCount l c * c := by
  have hdm : c * (l / c) + l % c = l := Nat.div_add_mod l c
  have hlt : l % c < c := Nat.mod_lt l hc
  unfold padCount rasterCount
  by_cases hz : l % c = 0
  · have hdiv : (l + c - 1) / c = l / c := by
      rw [show l + c - 1 = (c - 1) + c * (l / c) by omega, Nat.add_mul_div_left _ _ hc, Nat.div_eq_of_lt (by omega),
        Nat.zero_add]
    rw [hz, Nat.sub_zero, Nat.mod_self, hdiv, Nat.mul_comm]
    omega
  · have hdiv : (l + c - 1) / c = l / c + 1 := by
      rw [show l + c - 1 = (l % c - 1) + c * (l / c + 1) by rw [Nat.mul_succ]; omega, Nat.add_mul_div_left _ _ hc,
        Nat.div_eq_of_lt (by omega), Nat.zero_add]
    rw [Nat.mod_eq_of_lt (by omega), hdiv, Nat.mul_comm, Nat.mul_succ]
    omega

theorem encodePixels_eq {c : Nat} (hc : 0 < c) (bs : List Byte) :
    encodePixels bs c = (bitsOf bs).map pix ++ List.replicate (padCount c (8 * bs.length)) (pix false) := by
  have hpad : rasterCount (8 * bs.length) c * c - 8 * bs.length = padCount c (8 * bs.length) := by
    rw [← add_padCount hc, Nat.add_sub_cancel_left]
  rw [encodePixels, hpad, List.map_append, List.map_replicate]

theorem length_encodePixels {c : Nat} (hc : 0 < c) (bs : List Byte) :
    (encodePixels bs c).length = rasterCount (8 * bs.length) c * c := by
  rw [encodePixels_eq hc, List.length_append, List.length_map, length_bitsOf, List.length_replicate, add_padCount hc]

/-! ## The whole transaction (R144, second case) -/

/-- The encoder after an encode transaction of `n` rasters. -/
def Enc.closed (rows cols : Dim) (n : Nat) : Enc :=
  { Enc.opened rows cols with ctl := { state := .idle, err := .none }, ras := BitVec.ofNat 32 n }

/-- R144: the commands of `ENCODE` emit the pixels of the reference encoder in the order of the row-major map. -/
theorem execAll_encodeCmds {rows cols : Dim} (bs : List Byte) {s : State} (hs : s.legal = true)
    (hst : s.enc.ctl.state = .idle) (hg : geomOk rows.toNat cols.toNat = true) :
    execAll (encodeCmds rows cols bs) s =
      .next (encView.put (.closed rows cols (rasterCount (8 * bs.length) (rows.toNat * cols.toNat)))
        (mappedPixels rows cols 0 (encodePixels bs (rows.toNat * cols.toNat))) s) := by
  have hc : 0 < rows.toNat * cols.toNat := capacity_pos (u := .opened rows cols) hg
  have hu : (Enc.opened rows cols).Encoding := ⟨rfl, hg, rfl⟩
  have hcfg := exec_encCfg_idle hst rows cols
  have hstart := exec_encStart_opens (exec_keeps_legal hcfg hs) hst hg
  have hend : { (Enc.opened rows cols).atPix (rasterCount (8 * bs.length) (rows.toNat * cols.toNat) *
      (rows.toNat * cols.toNat)) with ctl := { state := .idle, err := .none } } =
      Enc.closed rows cols (rasterCount (8 * bs.length) (rows.toNat * cols.toNat)) := by
    simp [Enc.atPix, Enc.capacity, Enc.opened, Enc.closed, Nat.mul_div_cancel _ hc]
  refine execAll_cons.2 ⟨_, hcfg, execAll_cons.2 ⟨_, hstart, execAll_append.2 ⟨_,
    execAll_encBytes_atPix hu bs (k := 0) (Enc.atPix_zero (.opened rows cols)).symm, execAll_cons.2 ⟨_,
      exec_encEnd_atPix hu (encView.get_put ..), ?_⟩⟩⟩⟩
  rw [encodePixels_eq hc, mappedPixels_append, List.length_map, length_bitsOf, ← hend, ← add_padCount hc]
  simp only [encView.put_put, List.nil_append, Nat.zero_add]
  rfl

/-! ## Stores at distinct addresses -/

/-- Where no address is written twice, each holds what its one event stored. -/
theorem rasterSpace_of_nodup {evs : List Pix} (hnodup : (evs.map Pix.address).Nodup) {e : Pix} (he : e ∈ evs) :
    rasterSpace evs e.address = some e.val ∧ evs.countP (fun f => f.address == e.address) = 1 := by
  constructor
  · have hsome : (evs.reverse.find? fun f => f.address == e.address).isSome :=
      List.find?_isSome.2 ⟨e, List.mem_reverse.2 he, beq_self_eq_true _⟩
    obtain ⟨f, hf⟩ := Option.isSome_iff_exists.1 hsome
    have hmem : f ∈ evs := List.mem_reverse.1 (List.mem_of_find?_eq_some hf)
    have haddr : f.address = e.address := by simpa using List.find?_some hf
    obtain rfl : f = e := List.inj_on_of_nodup_map hnodup hmem he haddr
    rw [rasterSpace, hf]
    rfl
  · have hcount := List.count_eq_one_of_mem hnodup (List.mem_map_of_mem he)
    rwa [List.count, List.countP_map] at hcount

/-! ## The row-major map hits every cell of the rasters once (R44) -/

/-- The address the unit is about to store to. -/
def Enc.address (u : Enc) : BitVec 32 × Dim × Dim := (u.ras, u.row, u.col)

/-- A unit in its first 2^32 rasters has the event number of its position. -/
theorem Enc.index_atPix {u : Enc} (hg : geomOk u.rows.toNat u.cols.toNat = true) {k : Nat}
    (hk : k / u.capacity < 2 ^ 32) : (u.atPix k).index = k := by
  have hras : (u.atPix k).ras.toNat = k / u.capacity := by
    rw [Enc.atPix, BitVec.toNat_ofNat, Nat.mod_eq_of_lt hk]
  rw [Enc.index, hras, Enc.atPix_capacity, Enc.atPix_pos hg, Nat.mul_comm, Nat.div_add_mod]

/-- Two event numbers of one geometry with one address are the same, in the first 2^32 rasters. -/
theorem Enc.atPix_address_inj {u : Enc} (hg : geomOk u.rows.toNat u.cols.toNat = true) {j k : Nat}
    (hj : j / u.capacity < 2 ^ 32) (hk : k / u.capacity < 2 ^ 32)
    (h : (u.atPix j).address = (u.atPix k).address) : j = k := by
  obtain ⟨hras, hrow, hcol⟩ : (u.atPix j).ras = (u.atPix k).ras ∧ (u.atPix j).row = (u.atPix k).row ∧
      (u.atPix j).col = (u.atPix k).col := by simpa [Enc.address] using h
  rw [← Enc.index_atPix hg hj, ← Enc.index_atPix hg hk, Enc.index, Enc.index, Enc.pos, Enc.pos, hras, hrow, hcol]
  rfl

theorem mappedPixels_address (rows cols : Dim) (k : Nat) (vs : List Byte) :
    (mappedPixels rows cols k vs).map Pix.address =
      (List.range' k vs.length).map fun j => ((Enc.opened rows cols).atPix j).address := by
  induction vs generalizing k with
  | nil => rfl
  | cons v vs ih =>
    rw [mappedPixels, List.map_cons, ih, List.length_cons, List.range'_succ, List.map_cons]
    rfl

/-- The events of fewer than 2^32 rasters are stores to distinct addresses. -/
theorem nodup_mappedPixels_address {rows cols : Dim} (hg : geomOk rows.toNat cols.toNat = true) {n : Nat}
    (hn : n ≤ 2 ^ 32) {vs : List Byte} (hlen : vs.length = n * (rows.toNat * cols.toNat)) :
    ((mappedPixels rows cols 0 vs).map Pix.address).Nodup := by
  have hbound : ∀ j ∈ List.range' 0 vs.length, j / (Enc.opened rows cols).capacity < 2 ^ 32 := by
    intro j hj
    have hlt : j < n * (rows.toNat * cols.toNat) := by simpa [hlen] using hj
    exact (Nat.div_lt_of_lt_mul (Nat.mul_comm n _ ▸ hlt)).trans_le hn
  rw [mappedPixels_address]
  exact List.Nodup.map_on (fun j hj k hk =>
    Enc.atPix_address_inj (u := .opened rows cols) hg (hbound j hj) (hbound k hk)) List.nodup_range'

theorem mappedPix_mem {rows cols : Dim} {k j : Nat} {vs : List Byte} {v : Byte} (h : vs[j]? = some v) :
    mappedPix rows cols (k + j) v ∈ mappedPixels rows cols k vs := by
  induction vs generalizing k j with
  | nil => cases h
  | cons w vs ih =>
    cases j with
    | zero => cases h; exact List.mem_cons_self
    | succ j =>
      have htail := ih (k := k + 1) (j := j) h
      rw [Nat.add_right_comm] at htail
      exact List.mem_cons_of_mem _ htail

/-- The event number of cell `(r, c)` of raster `n` has the address of that cell. -/
theorem mappedPix_address {rows cols : Dim} {n r c : Nat} (hn : n < 2 ^ 32) (hr : r < rows.toNat) (hc : c < cols.toNat)
    (v : Byte) : (mappedPix rows cols (n * (rows.toNat * cols.toNat) + r * cols.toNat + c) v).address =
      (BitVec.ofNat 32 n, BitVec.ofNat 12 r, BitVec.ofNat 12 c) := by
  have hrow : (BitVec.ofNat 12 r).toNat = r := Nat.mod_eq_of_lt (hr.trans rows.isLt)
  have hcol : (BitVec.ofNat 12 c).toNat = c := Nat.mod_eq_of_lt (hc.trans cols.isLt)
  have hras : (BitVec.ofNat 32 n).toNat = n := Nat.mod_eq_of_lt hn
  have hat := Enc.eq_atPix (hrow.trans_lt hr) (hcol.trans_lt hc)
    (u := { Enc.opened rows cols with ras := .ofNat 32 n, row := .ofNat 12 r, col := .ofNat 12 c })
  have haddr := congrArg Enc.address hat
  simp only [Enc.pos, hrow, hcol, hras, ← Nat.add_assoc] at haddr
  exact haddr.symm

/-! ## The rasters of the reference encoder (R141) -/

/-- What stands at a place of a tabulated list. -/
theorem getElem?_map_range {α : Type} {f : Nat → α} {n i : Nat} {x : α} (h : ((List.range n).map f)[i]? = some x) :
    i < n ∧ x = f i := by
  obtain ⟨hi, rfl⟩ := List.getElem?_eq_some_iff.1 h
  exact ⟨by simpa using hi, by simp⟩

/-- The cells of raster `n` of a pixel sequence. -/
theorem cutRaster_cell {rows cols n r c : Nat} {p cells : List Byte} {v : Byte}
    (hr : (cutRaster rows cols n p).grid[r]? = some cells) (hc : cells[c]? = some v) :
    r < rows ∧ c < cols ∧ v = p.getD (n * (rows * cols) + r * cols + c) 0 := by
  obtain ⟨hrlt, rfl⟩ := getElem?_map_range hr
  obtain ⟨hclt, rfl⟩ := getElem?_map_range hc
  exact ⟨hrlt, hclt, rfl⟩

/-- The place of a cell in the pixel sequence is inside it. -/
theorem cell_lt {rows cols total n r c : Nat} (hn : n < total) (hr : r < rows) (hc : c < cols) :
    n * (rows * cols) + r * cols + c < total * (rows * cols) :=
  calc n * (rows * cols) + r * cols + c < n * (rows * cols) + (r + 1) * cols := by rw [Nat.succ_mul]; omega
    _ ≤ n * (rows * cols) + rows * cols := Nat.add_le_add_left (Nat.mul_le_mul_right cols hr) _
    _ = (n + 1) * (rows * cols) := (Nat.succ_mul n _).symm
    _ ≤ total * (rows * cols) := Nat.mul_le_mul_right _ hn

/-- Settles O56: the transaction emits the pixels of the reference encoder (`execAll_encodeCmds`), at distinct addresses
(`nodup_mappedPixels_address`), and the event of each cell is among them. -/
theorem rasterSpaceHoldsTheRasters : Obligations.RasterSpaceHoldsTheRasters := by
  intro rows cols bs s hs hst hg hcount
  have hpos : 0 < rows.toNat * cols.toNat := capacity_pos (u := .opened rows cols) hg
  have hlen := length_encodePixels hpos bs
  have hnodup := nodup_mappedPixels_address hg hcount.le hlen
  refine ⟨_, _, _, execAll_encodeCmds bs hs hst hg, rfl, if_pos hg, fun n r c q cells v hq hcells hv => ?_⟩
  obtain ⟨hn, rfl⟩ := getElem?_map_range hq
  obtain ⟨hr, hc, hval⟩ := cutRaster_cell hcells hv
  have hlt : _ < (encodePixels bs (rows.toNat * cols.toNat)).length := hlen ▸ cell_lt hn hr hc
  have hget : (encodePixels bs (rows.toNat * cols.toNat))[n * (rows.toNat * cols.toNat) + r * cols.toNat + c]? =
      some v := by
    rw [hval, List.getD_eq_getElem _ _ hlt, List.getElem?_eq_getElem hlt]
  have hstored := rasterSpace_of_nodup hnodup (mappedPix_mem (k := 0) hget)
  rwa [Nat.zero_add, mappedPix_address (hn.trans hcount) hr hc] at hstored

end Sys2Proof.Machine
end

section
/-! PROOFS. The encoding (spec/30_encoding.md): decoding and encoding are inverse to each other (O1, O2), a word against
the rows of R67 (O3), and the illegal words of R69 (O4). -/

namespace Sys2Proof.Machine

/-! ## From a command to its word and back (R68) -/

theorem formatG_append (op : BitVec 8) (rows cols : Dim) (i : Dim → Dim → Instr) :
    formatG (op ++ rows ++ cols) i = .ok (i rows cols) := by
  rw [formatG, rowsField_g, colsField_g]

theorem formatB_append (op : BitVec 8) (imm8 : Byte) (i : Byte → Instr) :
    formatB (op ++ 0#16 ++ imm8) i = .ok (i imm8) := by
  rw [formatB, zero_b, ifZero_zero, imm8Field_b]

theorem formatI_append (op : BitVec 8) {idx : BitVec 4} (i : BitVec 4 → Instr)
    (hidx : idx.toNat < Config.statusRegs) : formatI (op ++ 0#20 ++ idx) i = .ok (i idx) := by
  rw [formatI, zero_i, ifZero_zero, idxField_i, if_pos hidx]

theorem formatM_append (op : BitVec 8) (mode : StripMode) (i : StripMode → Instr) :
    formatM (op ++ 0#23 ++ mode.toBit) i = .ok (i mode) := by
  rw [formatM, zero_m, ifZero_zero, modeField_m, StripMode.ofBit_toBit]

/-- The word of a well-formed command decodes to it: `op` selects the command's format, and the format's fields are the
operands. -/
theorem decode_encode {i : Instr} (hi : i.wellFormed = true) : decode (encode i) = .ok i := by
  cases i with
  | nop | sysReset | encStart | encEnd | encAbort | decStart | decEnd | decAbort => rfl
  | rdsr idx =>
    simp only [decode, encode, opField_i]
    exact formatI_append _ _ (of_decide_eq_true hi)
  | encCfg rows cols | decRaster rows cols =>
    simp only [decode, encode, opField_g]
    exact formatG_append _ _ _ _
  | encByte imm8 | decPix imm8 =>
    simp only [decode, encode, opField_b]
    exact formatB_append _ _ _
  | decCfg mode =>
    simp only [decode, encode, opField_m]
    exact formatM_append _ _ _

/-- Settles O1, format by format (`decode_encode`). -/
theorem decodeOfEncode : Obligations.DecodeOfEncode := fun _ => decode_encode

/-! ## From a word to its command and back (R68, R70) -/

theorem formatZ_ok {w : Word} {i j : Instr} (h : formatZ w i = .ok j) : j = i ∧ opField w ++ 0#24 = w := by
  obtain ⟨hzero, hj⟩ := ifZero_ok h
  exact ⟨(Except.ok.inj hj).symm, hzero ▸ append_parts (n := 8) (m := 24) w⟩

theorem formatG_ok {w : Word} {i : Dim → Dim → Instr} {j : Instr} (h : formatG w i = .ok j) :
    ∃ rows cols, j = i rows cols ∧ opField w ++ rows ++ cols = w :=
  ⟨_, _, (Except.ok.inj h).symm, append_three_parts (k := 8) (n := 12) (m := 12) w⟩

theorem formatB_ok {w : Word} {i : Byte → Instr} {j : Instr} (h : formatB w i = .ok j) :
    ∃ imm8, j = i imm8 ∧ opField w ++ 0#16 ++ imm8 = w := by
  obtain ⟨hzero, hj⟩ := ifZero_ok h
  exact ⟨_, (Except.ok.inj hj).symm, hzero ▸ append_three_parts (k := 8) (n := 16) (m := 8) w⟩

theorem formatI_ok {w : Word} {i : BitVec 4 → Instr} {j : Instr} (h : formatI w i = .ok j) :
    ∃ idx, j = i idx ∧ opField w ++ 0#20 ++ idx = w := by
  obtain ⟨hzero, hj⟩ := ifZero_ok h
  split at hj
  · exact ⟨_, (Except.ok.inj hj).symm, hzero ▸ append_three_parts (k := 8) (n := 20) (m := 4) w⟩
  · cases hj

theorem formatM_ok {w : Word} {i : StripMode → Instr} {j : Instr} (h : formatM w i = .ok j) :
    ∃ mode, j = i mode ∧ opField w ++ 0#23 ++ mode.toBit = w := by
  obtain ⟨hzero, hj⟩ := ifZero_ok h
  refine ⟨_, (Except.ok.inj hj).symm, ?_⟩
  rw [StripMode.toBit_ofBit]
  exact hzero ▸ append_three_parts (k := 8) (n := 23) (m := 1) w

/-- A word that decodes is the word of what it decodes to: its `op` and the fields of the format make up the word. -/
theorem encode_of_decode {w : Word} {i : Instr} (h : decode w = .ok i) : encode i = w := by
  unfold decode at h
  split at h
  -- the cases are the rows in order: third format I, fourth and eleventh G, sixth and twelfth B, ninth M, the others Z
  case h_3 hop =>
    obtain ⟨idx, rfl, hw⟩ := formatI_ok h
    rwa [hop] at hw
  case h_4 hop | h_11 hop =>
    obtain ⟨rows, cols, rfl, hw⟩ := formatG_ok h
    rwa [hop] at hw
  case h_6 hop | h_12 hop =>
    obtain ⟨imm8, rfl, hw⟩ := formatB_ok h
    rwa [hop] at hw
  case h_9 hop =>
    obtain ⟨mode, rfl, hw⟩ := formatM_ok h
    rwa [hop] at hw
  case h_15 => cases h
  all_goals
    obtain ⟨rfl, hw⟩ := formatZ_ok h
    rwa [‹opField w = _›] at hw

/-- Settles O2: the fields of the word give it back (`encode_of_decode`), and a status register index is tested. -/
theorem encodeOfDecode : Obligations.EncodeOfDecode :=
  fun _ _ h => ⟨wellFormed_of_decode h, encode_of_decode h⟩

theorem decode_eq_ok_iff {w : Word} {i : Instr} : decode w = .ok i ↔ i.wellFormed = true ∧ encode i = w := by
  constructor
  · exact encodeOfDecode w i
  · rintro ⟨hi, rfl⟩
    exact decode_encode hi

/-! ## A word against the rows of the opcode table (R67) -/

/-- The encoder's word shows the fixed bits of the command's row. -/
theorem encode_matches_row (i : Instr) : Laws.RowFixed.Statement i := by
  cases i with
  | nop => exact Laws.RowFixed.nop
  | sysReset => exact Laws.RowFixed.sysReset
  | rdsr idx => exact Laws.RowFixed.rdsr idx
  | encCfg rows cols => exact Laws.RowFixed.encCfg rows cols
  | encStart => exact Laws.RowFixed.encStart
  | encByte imm8 => exact Laws.RowFixed.encByte imm8
  | encEnd => exact Laws.RowFixed.encEnd
  | encAbort => exact Laws.RowFixed.encAbort
  | decCfg mode => exact Laws.RowFixed.decCfg mode
  | decStart => exact Laws.RowFixed.decStart
  | decRaster rows cols => exact Laws.RowFixed.decRaster rows cols
  | decPix imm8 => exact Laws.RowFixed.decPix imm8
  | decEnd => exact Laws.RowFixed.decEnd
  | decAbort => exact Laws.RowFixed.decAbort

/-- The rows of R67 are the rows of the commands. -/
theorem mem_opcodeTable_iff {row : OpcodeRow} : row ∈ opcodeTable ↔ ∃ i : Instr, i.row = row := by
  constructor
  · intro h
    obtain ⟨i, -, hi⟩ := List.mem_map.1 (show row ∈
      [.nop, .sysReset, .rdsr 0, .encCfg 0 0, .encStart, .encByte 0, .encEnd, .encAbort, .decCfg .trailing, .decStart,
        .decRaster 0 0, .decPix 0, .decEnd, .decAbort].map Instr.row from h)
    exact ⟨i, hi⟩
  · rintro ⟨i, rfl⟩
    cases i <;> simp [opcodeTable, Instr.row]

/-- The constraint of the `RDSR` row is what makes a command well formed. -/
theorem wellFormed_iff_row_constraint (i : Instr) :
    i.wellFormed = true ↔ (i.row.mnemonic = "RDSR" → ((encode i).extractLsb' 0 4).toNat ≤ 8) := by
  cases i with
  | rdsr idx =>
    have hidx : (encode (.rdsr idx)).extractLsb' 0 4 = idx := idxField_i 0x02#8 0#20 idx
    simp [hidx, Instr.wellFormed, Instr.row, Nat.lt_succ_iff]
  | _ => simp [Instr.wellFormed, Instr.row]

/-- The upper bits of a word that shows `p` under a mask of its upper bits. -/
theorem extract_of_and_mask {n m : Nat} {w : BitVec (n + m)} {p : BitVec n}
    (h : w &&& (BitVec.allOnes n ++ 0#m) = p ++ 0#m) : w.extractLsb' m n = p := by
  have hmask : w &&& (BitVec.allOnes n ++ 0#m) = w.extractLsb' m n ++ 0#m := by
    conv_lhs => rw [← append_parts w]
    rw [Laws.RowFixed.append_and, BitVec.and_allOnes, BitVec.and_zero]
  calc w.extractLsb' m n
    _ = (w.extractLsb' m n ++ 0#m).extractLsb' m n := (extract_high _ _).symm
    _ = (p ++ 0#m).extractLsb' m n := by rw [← hmask, h]
    _ = p := extract_high _ _

/-- A word that shows `p` under a mask of its upper bits is `p` above its own lower bits. -/
theorem append_of_and_mask {n m : Nat} {w : BitVec (n + m)} {p : BitVec n}
    (h : w &&& (BitVec.allOnes n ++ 0#m) = p ++ 0#m) : p ++ w.extractLsb' 0 m = w :=
  extract_of_and_mask h ▸ append_parts w

/-- A word that shows `op` under the mask of format G is `op` above its own `rows` and `cols`. -/
theorem append_fields_of_and_mask {w : Word} {op : BitVec 8}
    (h : w &&& (BitVec.allOnes 8 ++ 0#24) = op ++ 0#24) : op ++ rowsField w ++ colsField w = w := by
  obtain rfl : opField w = op := extract_of_and_mask h
  exact append_three_parts (k := 8) (n := 12) (m := 12) w

/-- A word that shows a row's fixed bits is the word of a command of that row, the operands being its other bits. -/
theorem exists_encode_of_matches {w : Word} (k : Instr) (h : w &&& k.row.mask = k.row.pattern) :
    ∃ i : Instr, i.row = k.row ∧ encode i = w := by
  cases k with
  | nop | sysReset | encStart | encEnd | encAbort | decStart | decEnd | decAbort =>
    exact ⟨_, rfl, ((BitVec.and_allOnes (x := w)).symm.trans h).symm⟩
  | rdsr _ => exact ⟨.rdsr (idxField w), rfl, append_of_and_mask (m := 4) (p := 0x0200000#28) h⟩
  | encCfg _ _ => exact ⟨.encCfg (rowsField w) (colsField w), rfl, append_fields_of_and_mask (op := 0x10#8) h⟩
  | decRaster _ _ => exact ⟨.decRaster (rowsField w) (colsField w), rfl, append_fields_of_and_mask (op := 0x22#8) h⟩
  | encByte _ => exact ⟨.encByte (imm8Field w), rfl, append_of_and_mask (m := 8) (p := 0x120000#24) h⟩
  | decPix _ => exact ⟨.decPix (imm8Field w), rfl, append_of_and_mask (m := 8) (p := 0x230000#24) h⟩
  | decCfg _ =>
    refine ⟨.decCfg (.ofBit (modeField w)), rfl, ?_⟩
    rw [encode, StripMode.toBit_ofBit]
    exact append_of_and_mask (m := 1) (p := 0x10000000#31) h

/-- A word matches a row exactly when it is the word of a command of the row, well formed or not. -/
theorem matches_iff_exists_encode {w : Word} {row : OpcodeRow} :
    (row ∈ opcodeTable ∧ w &&& row.mask = row.pattern) ↔ ∃ i : Instr, encode i = w ∧ i.row = row := by
  constructor
  · rintro ⟨hrow, hmatch⟩
    obtain ⟨k, rfl⟩ := mem_opcodeTable_iff.1 hrow
    obtain ⟨i, hi, hw⟩ := exists_encode_of_matches k hmatch
    exact ⟨i, hw, hi⟩
  · rintro ⟨i, rfl, rfl⟩
    exact ⟨mem_opcodeTable_iff.2 ⟨i, rfl⟩, (encode_matches_row i).1⟩

/-- R67: the commands of a row are the words that match it and meet its constraint. -/
theorem decodes_in_row_iff {w : Word} {row : OpcodeRow} :
    (∃ i, decode w = .ok i ∧ i.row = row) ↔
      row ∈ opcodeTable ∧ w &&& row.mask = row.pattern ∧
        (row.mnemonic = "RDSR" → (w.extractLsb' 0 4).toNat ≤ 8) := by
  rw [← and_assoc, matches_iff_exists_encode]
  constructor
  · rintro ⟨i, hdec, rfl⟩
    obtain ⟨hi, rfl⟩ := decode_eq_ok_iff.1 hdec
    exact ⟨⟨i, rfl, rfl⟩, (wellFormed_iff_row_constraint i).1 hi⟩
  · rintro ⟨⟨i, rfl, rfl⟩, hidx⟩
    exact ⟨i, decode_encode ((wellFormed_iff_row_constraint i).2 hidx), rfl⟩

/-- The fixed bits of a row hold its `op`. -/
theorem opField_of_matches {w : Word} {row : OpcodeRow} (hrow : row ∈ opcodeTable)
    (hmatch : w &&& row.mask = row.pattern) : opField w = opField row.pattern := by
  obtain ⟨i, rfl, rfl⟩ := matches_iff_exists_encode.1 ⟨hrow, hmatch⟩
  exact (encode_matches_row i).2

/-- The rows of R67 have different `op` values. -/
theorem row_eq_of_opField_eq :
    ∀ r ∈ opcodeTable, ∀ q ∈ opcodeTable, opField r.pattern = opField q.pattern → r = q := by
  decide

/-- Settles O3: the commands of a row by `decodes_in_row_iff`, and two rows that one word matches have the
word's `op`. -/
theorem decodeAgreesWithOpcodeTable : Obligations.DecodeAgreesWithOpcodeTable :=
  ⟨fun _ _ => decodes_in_row_iff, fun _ r q hr hq hwr hwq => row_eq_of_opField_eq r hr q hq
    ((opField_of_matches hr hwr).symm.trans (opField_of_matches hq hwq))⟩

/-! ## The illegal words (R69) -/

theorem ifZero_error_iff {n : Nat} {zero : BitVec n} {w : Word} {r : Except Illegal Instr} :
    (∃ e, ifZero zero w r = .error e) ↔ zero ≠ 0#n ∨ ∃ e, r = .error e := by
  unfold ifZero
  split
  case isTrue hzero => simp [hzero]
  case isFalse hzero => simp [hzero]

/-- R69 (b): what makes a word of format Z illegal. -/
theorem formatZ_error_iff {w : Word} {i : Instr} : (∃ e, formatZ w i = .error e) ↔ w.extractLsb' 0 24 ≠ 0#24 := by
  simp [formatZ, ifZero_error_iff]

/-- R69 (c): what makes a word of format B illegal. -/
theorem formatB_error_iff {w : Word} {i : Byte → Instr} :
    (∃ e, formatB w i = .error e) ↔ w.extractLsb' 8 16 ≠ 0#16 := by
  simp [formatB, ifZero_error_iff]

/-- R69 (d): what makes a word of format I illegal. -/
theorem formatI_error_iff {w : Word} {i : BitVec 4 → Instr} :
    (∃ e, formatI w i = .error e) ↔ w.extractLsb' 4 20 ≠ 0#20 ∨ 9 ≤ (w.extractLsb' 0 4).toNat := by
  rw [formatI, ifZero_error_iff]
  refine or_congr_right ?_
  rw [← not_lt]
  split
  case isTrue hidx => exact iff_of_false (fun ⟨_, h⟩ => nomatch h) (not_not_intro hidx)
  case isFalse hidx => exact iff_of_true ⟨_, rfl⟩ hidx

/-- R69 (e): what makes a word of format M illegal. -/
theorem formatM_error_iff {w : Word} {i : StripMode → Instr} :
    (∃ e, formatM w i = .error e) ↔ w.extractLsb' 1 23 ≠ 0#23 := by
  simp [formatM, ifZero_error_iff]

/-- R80 step 1, R162: a step that takes an illegal word. -/
theorem step_of_illegal_word {s : State} {w : Word} {e : Illegal} {rest : List PortItem} (hs : s.legal = true)
    (hin : s.input = .word w :: rest) (hdec : decode w = .error e) : step s = .next (s.setInput rest).markIllegal := by
  simp only [step, hs, takeInput, hin, present, acceptWord, hdec, if_true]

/-- Settles O4: an assigned `op` leaves the zero bits of its format and the index to be tested, the other values of `op`
are the ranges of (a); what an illegal word does is `step_of_illegal_word`. -/
theorem illegalWordsSetIllOnly : Obligations.IllegalWordsSetIllOnly := by
  refine ⟨fun w => ?_, fun s w e rest hs hin hdec => step_of_illegal_word hs hin hdec⟩
  simp only [show w.extractLsb' 24 8 = opField w from rfl]
  unfold decode
  split
  -- the cases as in `encode_of_decode`; a word of format G is never illegal, and the last case is no row
  case h_3 hop => simp [formatI_error_iff, hop]
  case h_4 hop | h_11 hop => simp [formatG, hop]
  case h_6 hop | h_12 hop => simp [formatB_error_iff, hop]
  case h_9 hop => simp [formatM_error_iff, hop]
  case h_15 =>
    simp only [imp_false] at *
    exact iff_of_true ⟨_, rfl⟩ (.inl (by bv_omega))
  all_goals simp [formatZ_error_iff, ‹opField w = _›]

/-! ## Words written out (R67, R72) -/

/-- Settles O5: a legal word is the word of its command (`decode_encode`), the illegal ones are evaluated. -/
theorem writtenWordsDecode : Obligations.WrittenWordsDecode :=
  ⟨decode_encode (i := .nop) rfl, decode_encode (i := .sysReset) rfl, decode_encode (i := .rdsr 8) rfl,
    decode_encode (i := .encCfg 4 4) rfl, decode_encode (i := .encCfg 2 12) rfl,
    decode_encode (i := .encByte 0x48) rfl, decode_encode (i := .decCfg .all) rfl,
    decode_encode (i := .decRaster 0 5) rfl, decode_encode (i := .decPix 0xFF) rfl,
    decode_encode (i := .decAbort) rfl, rfl, rfl, rfl⟩

end Sys2Proof.Machine
end

section
/-! PROOFS. The system commands (spec/40_system_commands.md): `NOP` (R81, O8), `SYS_RESET` (R82, O9) and `RDSR` (R83,
O10), and the step that takes a word and executes its command (R80 step 1, O35). -/

namespace Sys2Proof.Machine

/-! ## A step that takes a word (R80 step 1, R41) -/

theorem acceptWord_of_decode {w : Word} {i : Instr} (hdec : decode w = .ok i) (s : State) :
    acceptWord w s = exec i s := by
  rw [acceptWord, hdec]

/-- The next word presented is taken off the input and acted on. -/
theorem step_of_word {s : State} {w : Word} {rest : List PortItem} (hs : s.legal = true)
    (hin : s.input = .word w :: rest) : step s = acceptWord w (s.setInput rest) := by
  simp only [step, hs, takeInput, hin, present, if_true]

/-- Settles O35: the step takes the word (`step_of_word`), and the word is its command (`acceptWord_of_decode`). -/
theorem stepRunsDecodedCommand : Obligations.StepRunsDecodedCommand :=
  fun _ _ _ _ hs hin hdec => (step_of_word hs hin).trans (acceptWord_of_decode hdec _)

/-! ## `NOP` and `SYS_RESET` (R81, R82) -/

theorem exec_nop (s : State) : exec .nop s = .next s := rfl

theorem exec_sysReset (s : State) : exec .sysReset s = .next s.resetRegisters := rfl

/-- Settles O8: the word is the command's (`decode_encode`), which does nothing (`exec_nop`). -/
theorem nopDoesNothing : Obligations.NopDoesNothing := ⟨decode_encode (i := .nop) rfl, exec_nop⟩

/-- Settles O9: the word is the command's (`decode_encode`), which resets the three groups (`exec_sysReset`); their
reset values written out are those of R191. -/
theorem sysResetResetsEveryField : Obligations.SysResetResetsEveryField :=
  ⟨decode_encode (i := .sysReset) rfl, exec_sysReset⟩

/-! ## `RDSR` (R83) -/

theorem ifZero_of_ne_zero {n : Nat} {zero : BitVec n} (hzero : zero ≠ 0#n) (w : Word) (r : Except Illegal Instr) :
    ifZero zero w r = .error (.mustBeZero (opField w)) :=
  if_neg hzero

theorem decode_rdsr_word (mid : BitVec 20) (idx : BitVec 4) :
    decode (0x02#8 ++ mid ++ idx) = formatI (0x02#8 ++ mid ++ idx) .rdsr := by
  simp only [decode, opField_i]

theorem decode_rdsr {idx : BitVec 4} (hidx : idx.toNat < Config.statusRegs) :
    decode (0x02#8 ++ 0#20 ++ idx) = .ok (.rdsr idx) :=
  (decode_rdsr_word 0#20 idx).trans (formatI_append _ _ hidx)

/-- R69 (d): an index above 8 names no status register. -/
theorem decode_rdsr_reserved {idx : BitVec 4} (hidx : ¬ idx.toNat < Config.statusRegs) :
    decode (0x02#8 ++ 0#20 ++ idx) = .error (.reservedIndex idx) := by
  rw [decode_rdsr_word, formatI, zero_i, ifZero_zero, idxField_i, if_neg hidx]

/-- R69 (d): the bits between `op` and `idx` must be zero, whatever the index. -/
theorem decode_rdsr_mustBeZero {mid : BitVec 20} (hmid : mid ≠ 0#20) (idx : BitVec 4) :
    decode (0x02#8 ++ mid ++ idx) = .error (.mustBeZero 0x02#8) := by
  rw [decode_rdsr_word, formatI, zero_i, ifZero_of_ne_zero hmid, opField_i]

theorem exec_rdsr_of_statusReg {idx : BitVec 4} {s : State} {v : Word} (hv : statusReg idx s = some v) :
    exec (.rdsr idx) s = .next (s.emitRsp v) := by
  simp only [exec, execRdsr, hv]

/-- A status register is a view of the registers (10_state.md R30), which a response does not change. -/
@[simp] theorem statusReg_emitRsp (idx : BitVec 4) (v : Word) (s : State) :
    statusReg idx (s.emitRsp v) = statusReg idx s := rfl

/-- Settles O10: a well-formed index names a register (`statusReg_ne_none`), whose value is sent and stays as it is
(`statusReg_emitRsp`); the other words fail one of the two tests of format I. -/
theorem rdsrEmitsStatusRegister : Obligations.RdsrEmitsStatusRegister := by
  refine ⟨fun idx s hidx => ?_, fun idx hidx => decode_rdsr_reserved (not_lt.2 hidx),
    fun mid idx hmid => decode_rdsr_mustBeZero hmid idx⟩
  have hlt : idx.toNat < Config.statusRegs := Nat.lt_succ_of_le hidx
  obtain ⟨v, hv⟩ := Option.ne_none_iff_exists'.1 (statusReg_ne_none (decide_eq_true hlt) s)
  exact ⟨decode_rdsr hlt, v, hv, exec_rdsr_of_statusReg hv, (statusReg_emitRsp idx v s).trans hv⟩

end Sys2Proof.Machine
end

section
/-! PROOFS. The encoder's commands (spec/41_encoder_commands.md): each command in each state of the unit (R91 to R96; O13
to O17), the encoder group and `PIX_OUT` as all they touch (R90, O41), and the rasters and the padding of a whole
transaction (R97, R98; O55). -/

namespace Sys2Proof.Machine

/-! ## The dispatch of a command in each state of the unit (R80 steps 4 to 7) -/

theorem exec_encCfg (rows cols : Dim) (s : State) :
    exec (.encCfg rows cols) s = onEnc s.enc.ctl.isIdle (encCfgAct rows cols s.enc) s := rfl

theorem exec_encStart (s : State) : exec .encStart s = onEnc s.enc.ctl.isIdle (encStartAct s.enc) s := rfl

theorem exec_encByte (b : Byte) (s : State) :
    exec (.encByte b) s = onEnc s.enc.ctl.isActive (encByteAct b s.enc) s := rfl

theorem exec_encEnd (s : State) : exec .encEnd s = onEnc s.enc.ctl.isActive (encEndAct s.enc) s := rfl

theorem onEnc_of_fault {s : State} (hst : s.enc.ctl.state = .fault) (accepts : Bool) (act : Act Enc Pix) :
    onEnc accepts act s = .next s :=
  if_pos hst

/-- A command that asks for `IDLE` is out of sequence in `ACTIVE` (R167). -/
theorem onEnc_isIdle_of_active {s : State} (hst : s.enc.ctl.state = .active) (act : Act Enc Pix) :
    onEnc s.enc.ctl.isIdle act s = .next (s.raiseEnc .seq) := by
  simp [onEnc, Ctl.isIdle, hst]

/-- A command that asks for `ACTIVE` is out of sequence in `IDLE` (R167). -/
theorem onEnc_isActive_of_idle {s : State} (hst : s.enc.ctl.state = .idle) (act : Act Enc Pix) :
    onEnc s.enc.ctl.isActive act s = .next (s.raiseEnc .seq) := by
  simp [onEnc, Ctl.isActive, hst]

theorem onEnc_idle_does {s : State} {u : Enc} {evs : List Pix} {act : Act Enc Pix} (hst : s.enc.ctl.state = .idle)
    (hact : act = .does u evs) : onEnc s.enc.ctl.isIdle act s = .next (encView.put u evs s) := by
  rw [(Ctl.isIdle_iff _).2 hst, hact]
  exact onEnc_does (by rw [hst]; decide)

theorem onEnc_idle_raises {s : State} {e : ErrCode} {act : Act Enc Pix} (hst : s.enc.ctl.state = .idle)
    (hact : act = .raises e) : onEnc s.enc.ctl.isIdle act s = .next (s.raiseEnc e) := by
  simp [onEnc, Ctl.isIdle, hst, hact]

/-! ## `ENC_CFG`, `ENC_START` and `ENC_ABORT` (R91, R92, R96) -/

/-- Settles O13: the word is the command's (`decode_encode`), and the three states of the unit are the three ways the
dispatch takes. -/
theorem encCfgStoresGeometry : Obligations.EncCfgStoresGeometry := by
  intro rows cols s
  rw [exec_encCfg]
  exact ⟨decode_encode (i := .encCfg rows cols) rfl,
    fun hst => (exec_encCfg_idle hst rows cols).trans (congrArg _ (State.emitPix_nil _)),
    fun hst => onEnc_isIdle_of_active hst _,
    fun hst => onEnc_of_fault hst _ _⟩

/-- `geom_ok` of two dimension fields (00_scope.md R5). -/
theorem geomOk_dims_iff (rows cols : Dim) : geomOk rows.toNat cols.toNat = true ↔
    rows ≠ 0#12 ∧ cols ≠ 0#12 ∧ rows.toNat * cols.toNat % 8 = 0 := by
  have hpos : ∀ d : Dim, 1 ≤ d.toNat ↔ d ≠ 0#12 := fun d => by
    rw [Nat.one_le_iff_ne_zero, ne_eq, ne_eq, ← BitVec.toNat_inj]
    rfl
  rw [geomOk_iff, hpos, hpos]

/-- Settles O14: the geometry check (`geomOk_dims_iff`) decides between opening and `ERR_CONFIG`; outside `IDLE` the
dispatch decides. -/
theorem encStartOpensOrRefuses : Obligations.EncStartOpensOrRefuses := by
  refine ⟨decode_encode (i := .encStart) rfl, fun s => ?_⟩
  rw [exec_encStart]
  refine ⟨fun hst hr hc hmul => ?_, fun hst hbad => ?_, fun hst => onEnc_isIdle_of_active hst _,
    fun hst => onEnc_of_fault hst _ _⟩
  · have hg := (geomOk_dims_iff s.enc.rows s.enc.cols).2 ⟨hr, hc, hmul⟩
    exact (onEnc_idle_does hst (if_pos hg)).trans (congrArg _ (State.emitPix_nil _))
  · have hg : ¬ geomOk s.enc.rows.toNat s.enc.cols.toNat = true := by
      rw [geomOk_dims_iff]
      tauto
    exact onEnc_idle_raises hst (if_neg hg)

theorem exec_encAbort (s : State) : exec .encAbort s = .next (s.setEnc s.enc.abort) := rfl

/-- Settles O17: the word is the command's (`decode_encode`), accepted in every state (`exec_encAbort`). -/
theorem encAbortClearsTransaction : Obligations.EncAbortClearsTransaction :=
  ⟨decode_encode (i := .encAbort) rfl, exec_encAbort⟩

/-! ## The position inside the raster (I-4, I-5) -/

/-- The position is the event number in its raster. -/
theorem Enc.Invariants.index_mod {u : Enc} (hu : u.Invariants) (hst : u.ctl.state = .active) :
    u.index % u.capacity = u.pos := by
  obtain ⟨henc, hat⟩ := hu.encoding hst
  exact (Enc.atPix_pos henc.geom _).symm.trans (congrArg Enc.pos hat).symm

theorem Enc.Invariants.pos_lt {u : Enc} (hu : u.Invariants) (hst : u.ctl.state = .active) : u.pos < u.capacity := by
  obtain ⟨henc, -⟩ := hu.encoding hst
  rw [← hu.index_mod hst]
  exact Nat.mod_lt _ (capacity_pos henc.geom)

/-- The position and the raster's end are byte boundaries. -/
theorem Enc.Invariants.byte_boundaries {u : Enc} (hu : u.Invariants) (hst : u.ctl.state = .active) :
    u.pos % 8 = 0 ∧ u.capacity % 8 = 0 := by
  obtain ⟨-, -, hmul, -, -, hpos⟩ := hu.inRaster hst
  exact ⟨hpos, hmul⟩

/-- The open raster has room for a byte. -/
theorem Enc.Invariants.pos_add_eight_le {u : Enc} (hu : u.Invariants) (hst : u.ctl.state = .active) :
    u.pos + 8 ≤ u.capacity := by
  have hlt := hu.pos_lt hst
  obtain ⟨hpos, hcap⟩ := hu.byte_boundaries hst
  omega

/-! ## The pixels up to the end of the open raster (R44, R93) -/

theorem Enc.index_add_mod (u : Enc) (j : Nat) : (u.index + j) % u.capacity = (u.pos + j) % u.capacity := by
  rw [Enc.index, Nat.add_assoc, Nat.add_comm, Nat.add_mul_mod_self_right]

theorem Enc.index_add_div {u : Enc} (hc : 0 < u.capacity) (j : Nat) :
    (u.index + j) / u.capacity = (u.pos + j) / u.capacity + u.ras.toNat := by
  rw [Enc.index, Nat.add_assoc, Nat.add_comm, Nat.add_mul_div_right _ _ hc]

/-- The unit `j` pixels on, the open raster not being exceeded: the raster counter moves with its last pixel. -/
theorem Enc.atPix_index_add {u : Enc} {j : Nat} (hc : 0 < u.capacity) (hj : u.pos + j ≤ u.capacity) :
    u.atPix (u.index + j) =
      { u with row := BitVec.ofNat 12 ((u.pos + j) % u.capacity / u.cols.toNat)
               col := BitVec.ofNat 12 ((u.pos + j) % u.capacity % u.cols.toNat)
               ras := if u.pos + j = u.capacity then u.ras + 1#32 else u.ras } := by
  have hras : BitVec.ofNat 32 ((u.pos + j) / u.capacity + u.ras.toNat) =
      if u.pos + j = u.capacity then u.ras + 1#32 else u.ras := by
    split
    case isTrue hend =>
      rw [hend, Nat.div_self hc, Nat.add_comm, BitVec.ofNat_add, BitVec.ofNat_toNat, BitVec.setWidth_eq]
    case isFalse hin => rw [Nat.div_eq_of_lt (by omega), Nat.zero_add, BitVec.ofNat_toNat, BitVec.setWidth_eq]
  rw [Enc.atPix, Enc.index_add_mod, Enc.index_add_div hc, hras]

/-- The event that carries `v` as the `j`-th pixel from here in the open raster. -/
def Enc.pixAhead (u : Enc) (j : Nat) (v : Byte) : Pix :=
  { val := v, ras := u.ras, row := BitVec.ofNat 12 ((u.pos + j) / u.cols.toNat)
    col := BitVec.ofNat 12 ((u.pos + j) % u.cols.toNat), eor := u.pos + j + 1 == u.capacity }

theorem mappedPix_index_add {u : Enc} {j : Nat} (hj : u.pos + j < u.capacity) (v : Byte) :
    mappedPix u.rows u.cols (u.index + j) v = u.pixAhead j v := by
  have hmod : (u.index + j) % (u.rows.toNat * u.cols.toNat) = u.pos + j :=
    (u.index_add_mod j).trans (Nat.mod_eq_of_lt hj)
  have hdiv : (u.index + j) / (u.rows.toNat * u.cols.toNat) = u.ras.toNat := by
    rw [← Enc.capacity, Enc.index_add_div (by omega), Nat.div_eq_of_lt hj, Nat.zero_add]
  simp only [mappedPix, hmod, hdiv, BitVec.ofNat_toNat, BitVec.setWidth_eq]
  rfl

theorem mappedPixels_map_range (rows cols : Dim) (k n : Nat) (f : Nat → Byte) :
    mappedPixels rows cols k ((List.range n).map f) =
      (List.range n).map fun j => mappedPix rows cols (k + j) (f j) := by
  induction n with
  | zero => rfl
  | succ n ih =>
    rw [List.range_succ, List.map_append, List.map_append, mappedPixels_append, ih, List.length_map, List.length_range]
    rfl

/-- The next `n` events where they fall in the open raster. -/
theorem mappedPixels_index {u : Enc} {n : Nat} (hn : u.pos + n ≤ u.capacity) (f : Nat → Byte) :
    mappedPixels u.rows u.cols u.index ((List.range n).map f) = (List.range n).map fun j => u.pixAhead j (f j) := by
  rw [mappedPixels_map_range]
  refine List.map_congr_left fun j hj => mappedPix_index_add ?_ (f j)
  have := List.mem_range.1 hj
  omega

/-! ## `ENC_BYTE` (R94) -/

/-- R94 in `ACTIVE`, in the terms of the position. -/
theorem exec_encByte_active {s : State} (hu : s.enc.Invariants) (hst : s.enc.ctl.state = .active) (b : Byte) :
    exec (.encByte b) s = .next (encView.put
      { s.enc with row := BitVec.ofNat 12 ((s.enc.pos + 8) % s.enc.capacity / s.enc.cols.toNat)
                   col := BitVec.ofNat 12 ((s.enc.pos + 8) % s.enc.capacity % s.enc.cols.toNat)
                   ras := if s.enc.pos + 8 = s.enc.capacity then s.enc.ras + 1#32 else s.enc.ras
                   sr := 0#8 }
      ((List.range 8).map fun j => s.enc.pixAhead j (pix (b.getLsbD (7 - j)))) s) := by
  obtain ⟨henc, hat⟩ := hu.encoding hst
  have hroom := hu.pos_add_eight_le hst
  rw [exec_encByte_atPix henc hat, Enc.atPix_index_add (by omega) hroom, byteBits, List.map_map,
    mappedPixels_index hroom, henc.srEmpty]
  rfl

/-- Settles O15: room for a byte is `Enc.Invariants.pos_add_eight_le`, the eight pixels and the new position are
`exec_encByte_active`; outside `ACTIVE` the dispatch decides. -/
theorem encByteEmitsEightPixels : Obligations.EncByteEmitsEightPixels := by
  intro imm8 s
  rw [exec_encByte]
  refine ⟨decode_encode (i := .encByte imm8) rfl, fun hs hst => ?_,
    fun hst => onEnc_isActive_of_idle hst _, fun hst => onEnc_of_fault hst _ _⟩
  have hu := (s.legal_iff.1 hs).1
  exact ⟨hu.pos_add_eight_le hst, exec_encByte_active hu hst imm8⟩

/-! ## `ENC_END` (R95) -/

/-- R95 in `ACTIVE` at (0, 0): there is nothing to pad. -/
theorem exec_encEnd_origin {s : State} (hu : s.enc.Invariants) (hst : s.enc.ctl.state = .active)
    (hpos : s.enc.pos = 0) :
    exec .encEnd s = .next (s.setEnc { s.enc with ctl := { s.enc.ctl with state := .idle } }) := by
  obtain ⟨henc, hat⟩ := hu.encoding hst
  have hpad : padCount s.enc.capacity s.enc.index = 0 := by
    rw [padCount, hu.index_mod hst, hpos, Nat.sub_zero, Nat.mod_self]
  rw [exec_encEnd_atPix henc hat, hpad, Nat.add_zero, ← hat]
  exact congrArg _ (State.emitPix_nil _)

/-- R95 in `ACTIVE` inside a raster: pixels of value 0x00 complete it. -/
theorem exec_encEnd_pads {s : State} (hu : s.enc.Invariants) (hst : s.enc.ctl.state = .active)
    (hpos : s.enc.pos ≠ 0) :
    exec .encEnd s = .next (encView.put
      { s.enc with row := 0#12, col := 0#12, ras := s.enc.ras + 1#32, ctl := { s.enc.ctl with state := .idle } }
      ((List.range (s.enc.capacity - s.enc.pos)).map fun j => s.enc.pixAhead j (pix false)) s) := by
  obtain ⟨henc, hat⟩ := hu.encoding hst
  have hlt := hu.pos_lt hst
  have hend : s.enc.pos + (s.enc.capacity - s.enc.pos) = s.enc.capacity := by omega
  have hpad : padCount s.enc.capacity s.enc.index = s.enc.capacity - s.enc.pos := by
    rw [padCount, hu.index_mod hst, Nat.mod_eq_of_lt (by omega)]
  have hzeros : List.replicate (s.enc.capacity - s.enc.pos) (pix false) =
      (List.range (s.enc.capacity - s.enc.pos)).map fun _ => pix false := by
    rw [List.map_const', List.length_range]
  rw [exec_encEnd_atPix henc hat, hpad, Enc.atPix_index_add (by omega) hend.le, hzeros, mappedPixels_index hend.le,
    if_pos hend, hend, Nat.mod_self, Nat.zero_div, Nat.zero_mod]

/-- Settles O16: `exec_encEnd_origin` and `exec_encEnd_pads`, the count of pixels being that between two byte
boundaries; outside `ACTIVE` the dispatch decides. -/
theorem encEndPadsTheRaster : Obligations.EncEndPadsTheRaster := by
  refine ⟨decode_encode (i := .encEnd) rfl, fun s => ?_⟩
  rw [exec_encEnd]
  refine ⟨fun hs hst hpos => ?_, fun hs hst hpos => ?_, fun hst => onEnc_isActive_of_idle hst _,
    fun hst => onEnc_of_fault hst _ _⟩
  · exact exec_encEnd_origin (s.legal_iff.1 hs).1 hst hpos
  · have hu := (s.legal_iff.1 hs).1
    have hroom := hu.pos_add_eight_le hst
    obtain ⟨hpos8, hcap8⟩ := hu.byte_boundaries hst
    exact ⟨by omega, by omega, by omega, exec_encEnd_pads hu hst hpos⟩

/-! ## What an encoder command touches (R90, R28) -/

/-- A command whose performed action has no events emits nothing. -/
theorem onEnc_silent {accepts : Bool} {act : Act Enc Pix} {s t : State} (h : onEnc accepts act s = .next t)
    (hact : ∀ u evs, act = .does u evs → evs = []) : t.pixOut = s.pixOut := by
  obtain ⟨-, rfl⟩ | ⟨-, -, u, evs, hdoes, rfl⟩ | ⟨-, -, e, -, rfl⟩ | ⟨-, -, rfl⟩ := onEnc_cases h
  case inr.inl => rw [hact u evs hdoes]; exact List.append_nil _
  all_goals rfl

/-- Of the encoder's commands, `ENC_BYTE` and `ENC_END` alone emit. -/
theorem exec_silent_of_forEnc {i : Instr} {s t : State} (hi : forEnc i = true) (h : exec i s = .next t)
    (hbyte : ∀ b, i ≠ .encByte b) (hend : i ≠ .encEnd) : t.pixOut = s.pixOut := by
  cases i with
  | nop | sysReset | rdsr _ | decCfg _ | decStart | decRaster _ _ | decPix _ | decEnd | decAbort => cases hi
  | encCfg rows cols =>
    refine onEnc_silent (act := encCfgAct rows cols s.enc) h fun u evs hact => ?_
    cases hact
    rfl
  | encStart =>
    refine onEnc_silent (act := encStartAct s.enc) h fun u evs hact => ?_
    unfold encStartAct at hact
    split at hact <;> cases hact
    rfl
  | encByte b => exact absurd rfl (hbyte b)
  | encEnd => exact absurd rfl hend
  | encAbort => cases h; rfl

/-- Settles O41: an encoder command is confined to the encoder (`exec_confined_of_forEnc`), and only two of them emit
(`exec_silent_of_forEnc`). -/
theorem encoderCommandsStayInEncoder : Obligations.EncoderCommandsStayInEncoder := by
  intro i hi s t h
  have hsilent := exec_silent_of_forEnc hi h
  obtain ⟨u, evs, rfl, halike⟩ := exec_confined_of_forEnc hi s t h
  exact ⟨⟨rfl, rfl, rfl, rfl, rfl⟩, hsilent, evs, rfl, halike⟩

/-! ## The rasters and the padding of a transaction (R97, R98) -/

theorem mappedPixels_val (rows cols : Dim) (k : Nat) (vs : List Byte) :
    (mappedPixels rows cols k vs).map Pix.val = vs := by
  induction vs generalizing k with
  | nil => rfl
  | cons v vs ih => rw [mappedPixels, List.map_cons, ih]; rfl

theorem length_mappedPixels (rows cols : Dim) (k : Nat) (vs : List Byte) :
    (mappedPixels rows cols k vs).length = vs.length := by
  rw [← List.length_map (f := Pix.val), mappedPixels_val]

/-- Every multiple of the capacity passed is one event with `eor` 1. -/
theorem count_eor_mappedPixels {rows cols : Dim} (hc : 0 < rows.toNat * cols.toNat) (k : Nat) (vs : List Byte) :
    k / (rows.toNat * cols.toNat) + ((mappedPixels rows cols k vs).filter Pix.eor).length =
      (k + vs.length) / (rows.toNat * cols.toNat) := by
  induction vs generalizing k with
  | nil => rfl
  | cons v vs ih =>
    have hlt := Nat.mod_lt k hc
    have hnext := ih (k + 1)
    rw [List.length_cons, Nat.add_comm vs.length, ← Nat.add_assoc, ← hnext, mappedPixels, List.filter_cons]
    by_cases hlast : k % (rows.toNat * cols.toNat) + 1 = rows.toNat * cols.toNat
    · have heor : (mappedPix rows cols k v).eor = true := beq_iff_eq.2 hlast
      rw [if_pos heor, (mod_succ_of_eq hlast).2, List.length_cons]
      omega
    · have heor : ¬ (mappedPix rows cols k v).eor = true := fun h => hlast (beq_iff_eq.1 h)
      rw [if_neg heor, (mod_succ_of_lt (by omega)).2]

/-- The commands of `ENCODE` before `ENC_END`: the bits of the bytes are events 0 on. -/
theorem execAll_encode_data {rows cols : Dim} (bs : List Byte) {s : State} (hs : s.legal = true)
    (hst : s.enc.ctl.state = .idle) (hg : geomOk rows.toNat cols.toNat = true) :
    execAll (.encCfg rows cols :: .encStart :: encBytes bs) s =
      .next (encView.put ((Enc.opened rows cols).atPix (8 * bs.length))
        (mappedPixels rows cols 0 ((bitsOf bs).map pix)) s) := by
  have hu : (Enc.opened rows cols).Encoding := ⟨rfl, hg, rfl⟩
  have hcfg := exec_encCfg_idle hst rows cols
  have hstart := exec_encStart_opens (exec_keeps_legal hcfg hs) hst hg
  refine execAll_cons.2 ⟨_, hcfg, execAll_cons.2 ⟨_, hstart,
    (execAll_encBytes_atPix hu bs (k := 0) (Enc.atPix_zero (.opened rows cols)).symm).trans ?_⟩⟩
  simp only [encView.put_put, List.nil_append, Nat.zero_add]
  rfl

/-- Settles O55: the bytes' events (`execAll_encode_data`) and the padding's (`exec_encEnd_atPix`) are numbered on from
0 and fill `ceil(L / C)` rasters (`add_padCount`), each ending in one event with `eor` 1 (`count_eor_mappedPixels`). -/
theorem rasterAndPaddingCount : Obligations.RasterAndPaddingCount := by
  intro rows cols bs s hs hst hg c l
  have hc : 0 < c := capacity_pos (u := .opened rows cols) hg
  have hu : (Enc.opened rows cols).Encoding := ⟨rfl, hg, rfl⟩
  have hend := exec_encEnd_atPix hu (s := encView.put ((Enc.opened rows cols).atPix l)
    (mappedPixels rows cols 0 ((bitsOf bs).map pix)) s) rfl
  have hall : mappedPixels rows cols 0 ((bitsOf bs).map pix) ++
      mappedPixels rows cols l (List.replicate (padCount c l) (pix false)) =
      mappedPixels rows cols 0 (encodePixels bs c) := by
    rw [encodePixels_eq hc, mappedPixels_append, List.length_map, length_bitsOf, Nat.zero_add]
  have hlen : (encodePixels bs c).length = rasterCount l c * c := length_encodePixels hc bs
  refine ⟨_, _, _, execAll_encode_data bs hs hst hg, hend, rfl, mappedPixels_val .., _, rfl, mappedPixels_val .., ?_⟩
  constructor
  · have hcount := count_eor_mappedPixels hc 0 (encodePixels bs c)
    rw [Nat.zero_div, Nat.zero_add, Nat.zero_add, hlen, Nat.mul_div_cancel _ hc] at hcount
    exact (congrArg (fun evs => (evs.filter Pix.eor).length) hall).trans hcount
  · exact (congrArg List.length hall).trans ((length_mappedPixels ..).trans hlen)

end Sys2Proof.Machine
end

section
/-! PROOFS. The decoder's commands (spec/42_decoder_commands.md): each command in each state of the unit (R111 to R117;
O18 to O23), and the decoder group and `BYTE_OUT` as all they touch (R110, O42). -/

namespace Sys2Proof.Machine

/-! ## The dispatch of a command in each state of the unit (R80 steps 4 to 7) -/

theorem exec_decCfg (mode : StripMode) (s : State) :
    exec (.decCfg mode) s = onDec s.dec.ctl.isIdle (decCfgAct mode s.dec) s := rfl

theorem exec_decStart (s : State) : exec .decStart s = onDec s.dec.ctl.isIdle (decStartAct s.dec) s := rfl

theorem exec_decRaster (rows cols : Dim) (s : State) :
    exec (.decRaster rows cols) s = onDec s.dec.betweenRasters (decRasterAct rows cols s.dec) s := rfl

theorem exec_decPix (v : Byte) (s : State) :
    exec (.decPix v) s = onDec s.dec.owesPixel (decPixAct v s.dec) s := rfl

theorem exec_decEnd (s : State) : exec .decEnd s = onDec s.dec.betweenRasters (decEndAct s.dec) s := rfl

theorem exec_decAbort (s : State) : exec .decAbort s = .next (s.setDec s.dec.abort) := rfl

theorem onDec_of_fault {s : State} (hst : s.dec.ctl.state = .fault) (accepts : Bool) (act : Act Dec Byte) :
    onDec accepts act s = .next s :=
  if_pos hst

/-- A command outside its precondition is out of sequence (R167). -/
theorem onDec_of_not_accepts {accepts : Bool} {s : State} (hf : s.dec.ctl.state ≠ .fault) (ha : ¬ accepts = true)
    (act : Act Dec Byte) : onDec accepts act s = .next (s.raiseDec .seq) :=
  (if_neg hf).trans (if_neg ha)

theorem onDec_of_raises {accepts : Bool} {e : ErrCode} {act : Act Dec Byte} {s : State}
    (hf : s.dec.ctl.state ≠ .fault) (ha : accepts = true) (hact : act = .raises e) :
    onDec accepts act s = .next (s.raiseDec e) := by
  subst hact
  exact (if_neg hf).trans (if_pos ha)

/-- An accepted command that emits nothing replaces the decoder's registers. -/
theorem onDec_of_does_nil {accepts : Bool} {u : Dec} {act : Act Dec Byte} {s : State}
    (hf : s.dec.ctl.state ≠ .fault) (ha : accepts = true) (hact : act = .does u []) :
    onDec accepts act s = .next (s.setDec u) := by
  subst ha hact
  exact (onDec_does hf).trans (congrArg _ (State.emitBytes_nil _))

theorem Ctl.ne_fault_of_idle {c : Ctl} (hst : c.state = .idle) : c.state ≠ .fault :=
  fun hf => nomatch hst.symm.trans hf

theorem Ctl.ne_fault_of_active {c : Ctl} (hst : c.state = .active) : c.state ≠ .fault :=
  fun hf => nomatch hst.symm.trans hf

theorem Ctl.ne_active_of_idle {c : Ctl} (hst : c.state = .idle) : c.state ≠ .active :=
  fun ha => nomatch hst.symm.trans ha

/-- A command that asks for `IDLE` is out of sequence in `ACTIVE`. -/
theorem onDec_isIdle_of_active {s : State} (hst : s.dec.ctl.state = .active) (act : Act Dec Byte) :
    onDec s.dec.ctl.isIdle act s = .next (s.raiseDec .seq) :=
  onDec_of_not_accepts (Ctl.ne_fault_of_active hst)
    (fun ha => Ctl.ne_active_of_idle ((Ctl.isIdle_iff _).1 ha) hst) act

/-- A command that asks for no pixel to be owed is out of sequence while one is. -/
theorem onDec_betweenRasters_of_owed {s : State} (hst : s.dec.ctl.state = .active) (hrem : s.dec.rem ≠ 0#24)
    (act : Act Dec Byte) : onDec s.dec.betweenRasters act s = .next (s.raiseDec .seq) :=
  onDec_of_not_accepts (Ctl.ne_fault_of_active hst) (fun ha => hrem ((Dec.betweenRasters_iff _).1 ha).2) act

theorem onDec_betweenRasters_of_idle {s : State} (hst : s.dec.ctl.state = .idle) (act : Act Dec Byte) :
    onDec s.dec.betweenRasters act s = .next (s.raiseDec .seq) :=
  onDec_of_not_accepts (Ctl.ne_fault_of_idle hst)
    (fun ha => Ctl.ne_active_of_idle hst ((Dec.betweenRasters_iff _).1 ha).1) act

/-- A pixel that no raster owes is out of sequence. -/
theorem onDec_owesPixel_of_none_owed {s : State} (hst : s.dec.ctl.state = .active) (hrem : s.dec.rem = 0#24)
    (act : Act Dec Byte) : onDec s.dec.owesPixel act s = .next (s.raiseDec .seq) :=
  onDec_of_not_accepts (Ctl.ne_fault_of_active hst) (fun ha => ((Dec.owesPixel_iff _).1 ha).2 hrem) act

theorem onDec_owesPixel_of_idle {s : State} (hst : s.dec.ctl.state = .idle) (act : Act Dec Byte) :
    onDec s.dec.owesPixel act s = .next (s.raiseDec .seq) :=
  onDec_of_not_accepts (Ctl.ne_fault_of_idle hst)
    (fun ha => Ctl.ne_active_of_idle hst ((Dec.owesPixel_iff _).1 ha).1) act

/-! ## `DEC_CFG`, `DEC_START` and `DEC_ABORT` (R111, R112, R117) -/

/-- Settles O18: the two words are the command's (`decode_encode`), and the three states of the unit are the three ways
the dispatch takes. -/
theorem decCfgSetsMode : Obligations.DecCfgSetsMode := by
  refine ⟨decode_encode (i := .decCfg .trailing) rfl, decode_encode (i := .decCfg .all) rfl, fun mode s => ?_⟩
  rw [exec_decCfg]
  exact ⟨fun hst => onDec_of_does_nil (Ctl.ne_fault_of_idle hst) ((Ctl.isIdle_iff _).2 hst) rfl,
    fun hst => onDec_isIdle_of_active hst _,
    fun hst => onDec_of_fault hst _ _⟩

/-- Settles O19: in `IDLE` the start has no check to fail; outside it the dispatch decides. -/
theorem decStartOpens : Obligations.DecStartOpens := by
  refine ⟨decode_encode (i := .decStart) rfl, fun s => ?_⟩
  rw [exec_decStart]
  exact ⟨fun hst => onDec_of_does_nil (Ctl.ne_fault_of_idle hst) ((Ctl.isIdle_iff _).2 hst) rfl,
    fun hst => onDec_isIdle_of_active hst _,
    fun hst => onDec_of_fault hst _ _⟩

/-- Settles O23: the word is the command's (`decode_encode`), accepted in every state (`exec_decAbort`). -/
theorem decAbortClearsTransaction : Obligations.DecAbortClearsTransaction :=
  ⟨decode_encode (i := .decAbort) rfl, exec_decAbort⟩

/-! ## `DEC_RASTER` and `DEC_END` (R113, R116) -/

theorem Dec.shapeDiffers_iff (rows cols : Dim) (u : Dec) :
    u.shapeDiffers rows cols = true ↔ u.haveShape = true ∧ (rows ≠ u.rows ∨ cols ≠ u.cols) := by
  simp only [Dec.shapeDiffers, Bool.and_eq_true, Bool.or_eq_true, bne_iff_ne]

/-- The first raster of a transaction latches its shape. -/
theorem decRasterAct_first {u : Dec} (hhave : u.haveShape = false) (rows cols : Dim) :
    decRasterAct rows cols u =
      .does { u with rows := rows, cols := cols, haveShape := true, rem := area rows cols } [] := by
  have hsame : ¬ u.shapeDiffers rows cols = true := fun hd =>
    Bool.false_ne_true (hhave.symm.trans ((Dec.shapeDiffers_iff rows cols u).1 hd).1)
  exact (if_neg hsame).trans (if_neg (ne_true_of_eq_false hhave))

/-- A later raster of the latched shape. -/
theorem decRasterAct_agrees {u : Dec} (hhave : u.haveShape = true) :
    decRasterAct u.rows u.cols u = .does { u with rem := area u.rows u.cols } [] := by
  have hsame : ¬ u.shapeDiffers u.rows u.cols = true := fun hd =>
    ((Dec.shapeDiffers_iff _ _ u).1 hd).2.elim (absurd rfl) (absurd rfl)
  exact (if_neg hsame).trans (if_pos hhave)

theorem decRasterAct_differs {u : Dec} {rows cols : Dim} (hhave : u.haveShape = true)
    (hne : rows ≠ u.rows ∨ cols ≠ u.cols) : decRasterAct rows cols u = .raises .shape :=
  if_pos ((Dec.shapeDiffers_iff rows cols u).2 ⟨hhave, hne⟩)

/-- Settles O20: between two rasters the latch and the shape check decide (`decRasterAct_first`, `decRasterAct_agrees`,
`decRasterAct_differs`), the count being the exact product (`area_toNat`); elsewhere the dispatch decides. -/
theorem decRasterLatchesShape : Obligations.DecRasterLatchesShape := by
  intro rows cols s
  rw [exec_decRaster]
  refine ⟨decode_encode (i := .decRaster rows cols) rfl,
    ⟨area rows cols, area_toNat rows cols, fun hst hrem hhave => ?_, fun hst hrem hhave hrows hcols => ?_⟩,
    fun hst hrem hhave hne => ?_, fun hst hrem => onDec_betweenRasters_of_owed hst hrem _,
    fun hst => onDec_betweenRasters_of_idle hst _, fun hst => onDec_of_fault hst _ _⟩
  · exact onDec_of_does_nil (Ctl.ne_fault_of_active hst) ((Dec.betweenRasters_iff _).2 ⟨hst, hrem⟩)
      (decRasterAct_first hhave rows cols)
  · subst hrows hcols
    exact onDec_of_does_nil (Ctl.ne_fault_of_active hst) ((Dec.betweenRasters_iff _).2 ⟨hst, hrem⟩)
      (decRasterAct_agrees hhave)
  · exact onDec_of_raises (Ctl.ne_fault_of_active hst) ((Dec.betweenRasters_iff _).2 ⟨hst, hrem⟩)
      (decRasterAct_differs hhave hne)

/-- Settles O22: between two rasters the end has no check to fail; elsewhere the dispatch decides. -/
theorem decEndDropsAndCloses : Obligations.DecEndDropsAndCloses := by
  refine ⟨decode_encode (i := .decEnd) rfl, fun s => ?_⟩
  rw [exec_decEnd]
  exact ⟨fun hst hrem =>
      onDec_of_does_nil (Ctl.ne_fault_of_active hst) ((Dec.betweenRasters_iff _).2 ⟨hst, hrem⟩) rfl,
    fun hst hrem => onDec_betweenRasters_of_owed hst hrem _,
    fun hst => onDec_betweenRasters_of_idle hst _,
    fun hst => onDec_of_fault hst _ _⟩

/-! ## `DEC_PIX` (R114, R115, R121, R122) -/

theorem Dec.shiftIn_false (u : Dec) : u.shiftIn false = u.sr <<< 1 := BitVec.or_zero

theorem Dec.shiftIn_true (u : Dec) : u.shiftIn true = u.sr <<< 1 ||| 1#8 := rfl

/-- The two pixel values and the group each makes, in the terms of the pixel's bit (R6). -/
theorem Dec.exists_bit_of_pixel {u : Dec} {v nsr : Byte}
    (h : (v = 0x00#8 ∧ nsr = u.sr <<< 1) ∨ (v = 0xFF#8 ∧ nsr = u.sr <<< 1 ||| 1#8)) :
    ∃ b, v = pix b ∧ nsr = u.shiftIn b := by
  obtain ⟨rfl, rfl⟩ | ⟨rfl, rfl⟩ := h
  · exact ⟨false, rfl, u.shiftIn_false.symm⟩
  · exact ⟨true, rfl, u.shiftIn_true.symm⟩

/-- Completing the group with `nsr` would hold one zero byte more than `DEC.ZRUN` can count (R122). -/
def Dec.HeldFull (u : Dec) (nsr : Byte) : Prop :=
  u.bc = 7#3 ∧ nsr = 0x00#8 ∧ u.mode = .trailing ∧ u.zrun = 0xFFFFFFFF#32

theorem Dec.zeroOverflows_iff (nsr : Byte) (u : Dec) : u.zeroOverflows nsr = true ↔ u.HeldFull nsr := by
  simp only [Dec.HeldFull, Dec.zeroOverflows, Dec.groupFull, Bool.and_eq_true, beq_iff_eq, and_assoc]

/-- The registers of a unit whose group is complete, before the deliver step. -/
def Dec.groupTaken (u : Dec) : Dec := { u with rem := u.rem - 1#24, sr := 0#8, bc := 0#3 }

theorem Dec.takeBit_of_open {u : Dec} (hbc : u.bc ≠ 7#3) (b : Bool) :
    u.takeBit b = ({ u with rem := u.rem - 1#24, sr := u.shiftIn b, bc := u.bc + 1#3 }, []) :=
  (Dec.takeBit_eq b u).trans (if_neg hbc)

theorem Dec.takeBit_of_complete {u : Dec} (hbc : u.bc = 7#3) (b : Bool) :
    u.takeBit b = u.groupTaken.deliver (u.shiftIn b) :=
  (Dec.takeBit_eq b u).trans (if_pos hbc)

/-- A pixel owed that passes both checks gives its bit to the group. -/
theorem exec_decPix_takes {s : State} {b : Bool} {r : Dec × List Byte} (hst : s.dec.ctl.state = .active)
    (hrem : s.dec.rem ≠ 0#24) (hroom : ¬ s.dec.HeldFull (s.dec.shiftIn b)) (hr : s.dec.takeBit b = r) :
    exec (.decPix (pix b)) s = .next (decView.put r.1 r.2 s) := by
  have hact : decPixAct (pix b) s.dec = .does r.1 r.2 := by
    rw [decPixAct, bit?_pix, ← hr]
    exact if_neg (mt (Dec.zeroOverflows_iff _ _).1 hroom)
  rw [exec_decPix, (Dec.owesPixel_iff _).2 ⟨hst, hrem⟩, hact]
  exact onDec_does (Ctl.ne_fault_of_active hst)

/-- The same where no byte is complete or the byte is not sent. -/
theorem exec_decPix_takes_silently {s : State} {b : Bool} {u : Dec} (hst : s.dec.ctl.state = .active)
    (hrem : s.dec.rem ≠ 0#24) (hroom : ¬ s.dec.HeldFull (s.dec.shiftIn b))
    (hu : s.dec.takeBit b = (u, [])) : exec (.decPix (pix b)) s = .next (s.setDec u) :=
  (exec_decPix_takes hst hrem hroom hu).trans (congrArg _ (State.emitBytes_nil _))

theorem exec_decPix_bad_pixel {s : State} {v : Byte} (hst : s.dec.ctl.state = .active) (hrem : s.dec.rem ≠ 0#24)
    (hv : bit? v = none) : exec (.decPix v) s = .next (s.raiseDec .pixel) := by
  rw [exec_decPix]
  exact onDec_of_raises (Ctl.ne_fault_of_active hst) ((Dec.owesPixel_iff _).2 ⟨hst, hrem⟩) (by rw [decPixAct, hv])

theorem exec_decPix_overflows {s : State} {b : Bool} (hst : s.dec.ctl.state = .active) (hrem : s.dec.rem ≠ 0#24)
    (hfull : s.dec.HeldFull (s.dec.shiftIn b)) :
    exec (.decPix (pix b)) s = .next (s.raiseDec .overflow) := by
  have hact : decPixAct (pix b) s.dec = .raises .overflow := by
    rw [decPixAct, bit?_pix]
    exact if_pos ((Dec.zeroOverflows_iff _ _).2 hfull)
  rw [exec_decPix]
  exact onDec_of_raises (Ctl.ne_fault_of_active hst) ((Dec.owesPixel_iff _).2 ⟨hst, hrem⟩) hact

/-- Settles O21: the pixel's value names its bit (`Dec.exists_bit_of_pixel`); an open group takes it
(`Dec.takeBit_of_open`), a complete one is delivered (`Dec.takeBit_of_complete`) by the rule of R115 for its byte and
mode, where `Dec.HeldFull` tells the hold from `ERR_OVERFLOW`. -/
theorem decPixTakesOnePixel : Obligations.DecPixTakesOnePixel := by
  intro v s
  refine ⟨decode_encode (i := .decPix v) rfl,
    fun hst hrem h0 h1 => exec_decPix_bad_pixel hst hrem (bit?_eq_none_iff.2 ⟨h0, h1⟩), fun nsr hv hst hrem => ?_,
    fun hst hrem => onDec_owesPixel_of_none_owed hst hrem _, fun hst => onDec_owesPixel_of_idle hst _,
    fun hst => onDec_of_fault hst _ _⟩
  obtain ⟨b, rfl, rfl⟩ := Dec.exists_bit_of_pixel hv
  refine ⟨fun hbc => ?_, fun hbc hne => ?_, fun hbc hzero hmode hz => ?_, fun hbc hzero hmode hz => ?_,
    fun hbc hzero hmode => ?_⟩
  · exact exec_decPix_takes_silently hst hrem (fun ⟨hfull, _⟩ => hbc hfull) (Dec.takeBit_of_open hbc b)
  · exact exec_decPix_takes hst hrem (fun ⟨_, hzero, _⟩ => hne hzero)
      ((Dec.takeBit_of_complete hbc b).trans (Dec.deliver_of_ne hne _))
  · have hheld := (Dec.takeBit_of_complete hbc b).trans
      (hzero ▸ Dec.deliver_zero_trailing (u := s.dec.groupTaken) hmode)
    exact exec_decPix_takes_silently hst hrem (fun ⟨_, _, _, hmax⟩ => hz hmax) hheld
  · exact exec_decPix_overflows hst hrem ⟨hbc, hzero, hmode, hz⟩
  · have hdropped := (Dec.takeBit_of_complete hbc b).trans
      (hzero ▸ Dec.deliver_zero_all (u := s.dec.groupTaken) hmode)
    exact exec_decPix_takes_silently hst hrem (fun ⟨_, _, htrailing, _⟩ => nomatch hmode.symm.trans htrailing) hdropped

/-! ## What a decoder command touches (R110, R28) -/

/-- A command whose performed action has no events emits nothing. -/
theorem onDec_silent {accepts : Bool} {act : Act Dec Byte} {s t : State} (h : onDec accepts act s = .next t)
    (hact : ∀ u evs, act = .does u evs → evs = []) : t.byteOut = s.byteOut := by
  obtain ⟨-, rfl⟩ | ⟨-, -, u, evs, hdoes, rfl⟩ | ⟨-, -, e, -, rfl⟩ | ⟨-, -, rfl⟩ := onDec_cases h
  case inr.inl => rw [hact u evs hdoes]; exact List.append_nil _
  all_goals rfl

/-- Announcing a raster emits nothing, whether its shape is latched or agrees (R113). -/
theorem decRasterAct_silent {rows cols : Dim} {u v : Dec} {evs : List Byte}
    (h : decRasterAct rows cols u = .does v evs) : evs = [] := by
  obtain hact | ⟨-, -, -, hact⟩ | ⟨-, hact⟩ := decRasterAct_cases rows cols u
  · exact nomatch hact.symm.trans h
  · cases hact.symm.trans h; rfl
  · cases hact.symm.trans h; rfl

/-- Of the decoder's commands, `DEC_PIX` alone emits. -/
theorem exec_silent_of_forDec {i : Instr} {s t : State} (hi : forDec i = true) (h : exec i s = .next t)
    (hpix : ∀ v, i ≠ .decPix v) : t.byteOut = s.byteOut := by
  cases i with
  | nop | sysReset | rdsr _ | encCfg _ _ | encStart | encByte _ | encEnd | encAbort => cases hi
  | decCfg mode => exact onDec_silent (act := decCfgAct mode s.dec) h fun u evs hact => by cases hact; rfl
  | decStart => exact onDec_silent (act := decStartAct s.dec) h fun u evs hact => by cases hact; rfl
  | decRaster rows cols =>
    exact onDec_silent (act := decRasterAct rows cols s.dec) h fun _ _ => decRasterAct_silent
  | decPix v => exact absurd rfl (hpix v)
  | decEnd => exact onDec_silent (act := decEndAct s.dec) h fun u evs hact => by cases hact; rfl
  | decAbort => cases h; rfl

/-- Settles O42: a decoder command is confined to the decoder (`exec_confined_of_forDec`), and only one of them emits
(`exec_silent_of_forDec`). -/
theorem decoderCommandsStayInDecoder : Obligations.DecoderCommandsStayInDecoder := by
  intro i hi s t h
  have hsilent := exec_silent_of_forDec hi h
  obtain ⟨u, evs, rfl, halike⟩ := exec_confined_of_forDec hi s t h
  exact ⟨⟨rfl, rfl, rfl, rfl, rfl⟩, hsilent, evs, rfl, halike⟩

end Sys2Proof.Machine
end

section
/-! PROOFS. The reference functions of spec/43_transactions.md: bits and bytes (R140, O48), the strip (R143, O49), the
rasters of the reference encoder (R141, R147, R149, O50), and the round trip on bytes (R146, O51, O52). -/

namespace Sys2Proof.Machine

/-! ## A byte and its group of eight bits (R140; 20_memory.md R49) -/

/-- One more bit of a group comes in at bit 0. -/
theorem byteOfBits_concat (g : List Bool) (b : Bool) :
    byteOfBits (g ++ [b]) = byteOfBits g <<< 1 ||| (BitVec.ofBool b).setWidth 8 :=
  List.foldl_append

/-- Bit `i` of a group's byte is the `i`-th bit of the group from its end. -/
theorem byteOfBits_getLsbD (g : List Bool) {i : Nat} (hi : i < 8) :
    (byteOfBits g).getLsbD i = g.reverse.getD i false := by
  induction g using List.reverseRecOn generalizing i with
  | nil => simp [byteOfBits]
  | append_singleton g b ih =>
    rw [byteOfBits_concat, List.reverse_append, BitVec.getLsbD_or, BitVec.getLsbD_shiftLeft]
    cases i with
    | zero => cases b <;> rfl
    | succ i =>
      have hlow : ((BitVec.ofBool b).setWidth 8).getLsbD (i + 1) = false := by simp
      rw [hlow, Nat.add_sub_cancel, ih (by omega)]
      simp [hi]

theorem byteBits_getElem? (b : Byte) {j : Nat} (hj : j < 8) : (byteBits b)[j]? = some (b.getLsbD (7 - j)) := by
  simp [byteBits, hj]

theorem byteBits_byteOfBits {g : List Bool} (hg : g.length = 8) : byteBits (byteOfBits g) = g := by
  refine List.ext_getElem? fun j => ?_
  by_cases hj : j < 8
  · rw [byteBits_getElem? _ hj, byteOfBits_getLsbD g (by omega), List.getD_eq_getElem?_getD,
      List.getElem?_reverse (by omega), hg, show 8 - 1 - (7 - j) = j by omega,
      List.getElem?_eq_getElem (hg ▸ hj)]
    rfl
  · rw [List.getElem?_eq_none (by simpa using hj), List.getElem?_eq_none (by omega)]

theorem byteOfBits_byteBits (b : Byte) : byteOfBits (byteBits b) = b := by
  refine BitVec.eq_of_getLsbD_eq fun i hi => ?_
  rw [byteOfBits_getLsbD _ hi, List.getD_eq_getElem?_getD, List.getElem?_reverse (by simpa using hi), length_byteBits,
    byteBits_getElem? b (by omega), show 7 - (8 - 1 - i) = i by omega]
  rfl

/-! ## Bit streams and byte sequences (R140) -/

theorem bitsOf_cons (b : Byte) (bs : List Byte) : bitsOf (b :: bs) = byteBits b ++ bitsOf bs := rfl

theorem bitsOf_append (as bs : List Byte) : bitsOf (as ++ bs) = bitsOf as ++ bitsOf bs := List.flatMap_append

theorem bytesOf_of_short {bits : List Bool} (h : bits.length < 8) : bytesOf bits = [] := by
  unfold bytesOf
  split
  · simp only [List.length_cons] at h
    omega
  · rfl

/-- The first eight bits of a stream are its first byte. -/
theorem bytesOf_group {g : List Bool} (hg : g.length = 8) (rest : List Bool) :
    bytesOf (g ++ rest) = byteOfBits g :: bytesOf rest := by
  match g, hg with
  | [_, _, _, _, _, _, _, _], _ => rfl

/-- Whole bytes in front of a bit stream are the first bytes of its byte sequence. -/
theorem bytesOf_bitsOf_append (bs : List Byte) (bits : List Bool) :
    bytesOf (bitsOf bs ++ bits) = bs ++ bytesOf bits := by
  induction bs with
  | nil => rfl
  | cons b bs ih =>
    rw [bitsOf_cons, List.append_assoc, bytesOf_group (length_byteBits b), ih, byteOfBits_byteBits, List.cons_append]

theorem bytesOf_bitsOf (bs : List Byte) : bytesOf (bitsOf bs) = bs := by
  simpa [bytesOf_of_short] using bytesOf_bitsOf_append bs []

/-- The bits after the last whole group of eight, which `bytes_of` ignores. -/
def openGroup (bits : List Bool) : List Bool := bits.drop (8 * (bits.length / 8))

theorem length_openGroup (bits : List Bool) : (openGroup bits).length = bits.length % 8 := by
  rw [openGroup, List.length_drop]
  omega

/-- A bit stream is the bits of its byte sequence and then the open group. -/
theorem bitsOf_bytesOf_append_openGroup (bits : List Bool) : bitsOf (bytesOf bits) ++ openGroup bits = bits := by
  induction hn : bits.length / 8 generalizing bits with
  | zero => simp [bytesOf_of_short (show bits.length < 8 by omega), openGroup, hn, bitsOf]
  | succ n ih =>
    have hg : (bits.take 8).length = 8 := by rw [List.length_take]; omega
    have hrest := ih (bits.drop 8) (by rw [List.length_drop]; omega)
    have hopen : openGroup (bits.drop 8) = openGroup bits := by
      rw [openGroup, openGroup, List.drop_drop, List.length_drop]
      congr 1
      omega
    calc bitsOf (bytesOf bits) ++ openGroup bits
      _ = bitsOf (bytesOf (bits.take 8 ++ bits.drop 8)) ++ openGroup bits := by rw [List.take_append_drop]
      _ = bits.take 8 ++ (bitsOf (bytesOf (bits.drop 8)) ++ openGroup (bits.drop 8)) := by
        rw [bytesOf_group hg, bitsOf_cons, byteBits_byteOfBits hg, List.append_assoc, hopen]
      _ = bits := by rw [hrest, List.take_append_drop]

theorem length_bytesOf (bits : List Bool) : (bytesOf bits).length = bits.length / 8 := by
  have h := congrArg List.length (bitsOf_bytesOf_append_openGroup bits)
  rw [List.length_append, length_bitsOf, length_openGroup] at h
  omega

theorem bitsOf_getElem? (bs : List Byte) {i j : Nat} (hi : i < bs.length) (hj : j < 8) :
    (bitsOf bs)[8 * i + j]? = some (bs[i].getLsbD (7 - j)) := by
  induction bs generalizing i with
  | nil => cases hi
  | cons b bs ih =>
    rw [bitsOf_cons]
    cases i with
    | zero => rw [List.getElem?_append_left (by simp; omega), Nat.mul_zero, Nat.zero_add, byteBits_getElem? b hj]; rfl
    | succ i =>
      rw [List.getElem?_append_right (by simp; omega), length_byteBits,
        show 8 * (i + 1) + j - 8 = 8 * i + j by omega, ih (Nat.lt_of_succ_lt_succ hi)]
      rfl

/-- Settles O48: the bits of bytes place by place (`bitsOf_getElem?`); those of `bytes_of` through
`bitsOf_bytesOf_append_openGroup`. -/
theorem bitsAndBytes : Obligations.BitsAndBytes := by
  refine ⟨fun bs => ⟨length_bitsOf bs, fun i j => bitsOf_getElem? bs, bytesOf_bitsOf bs⟩,
    fun bits => ⟨length_bytesOf bits, fun i j hi hj => ?_⟩⟩
  calc bits[8 * i + j]?
    _ = (bitsOf (bytesOf bits) ++ openGroup bits)[8 * i + j]? := by rw [bitsOf_bytesOf_append_openGroup]
    _ = (bitsOf (bytesOf bits))[8 * i + j]? := List.getElem?_append_left (by rw [length_bitsOf]; omega)
    _ = some ((bytesOf bits)[i].getLsbD (7 - j)) := bitsOf_getElem? _ hi hj

/-! ## The strip (R143) -/

/-- The strip of trailing zero bytes is the library's `rdropWhile`. -/
theorem stripTrailing_eq_rdropWhile (bs : List Byte) : stripTrailing bs = bs.rdropWhile (· == 0x00#8) := by
  induction bs with
  | nil => rfl
  | cons b bs ih =>
    rw [stripTrailing, ih, List.rdropWhile, List.rdropWhile, List.reverse_cons, List.dropWhile_append]
    cases hkept : bs.reverse.dropWhile (· == 0x00#8) with
    | nil => by_cases hb : b = 0x00#8 <;> simp [hb]
    | cons c cs => simp

theorem stripTrailing_concat_zero (bs : List Byte) : stripTrailing (bs ++ [0x00#8]) = stripTrailing bs := by
  rw [stripTrailing_eq_rdropWhile, stripTrailing_eq_rdropWhile, List.rdropWhile_concat_pos _ _ _ (by simp)]

theorem stripTrailing_concat_ne {b : Byte} (hb : b ≠ 0x00#8) (bs : List Byte) :
    stripTrailing (bs ++ [b]) = bs ++ [b] := by
  rw [stripTrailing_eq_rdropWhile, List.rdropWhile_concat_neg _ _ _ (by simpa using hb)]

theorem heldZeros_concat_zero (n : Nat) (bs : List Byte) : heldZeros n (bs ++ [0x00#8]) = heldZeros n bs + 1 := by
  induction bs generalizing n with
  | nil => rfl
  | cons b bs ih => simp only [List.cons_append, heldZeros, ih]; split <;> rfl

theorem heldZeros_concat_ne {b : Byte} (hb : b ≠ 0x00#8) (n : Nat) (bs : List Byte) :
    heldZeros n (bs ++ [b]) = 0 := by
  induction bs generalizing n with
  | nil => simp [heldZeros, hb]
  | cons c bs ih => simp only [List.cons_append, heldZeros, ih, ite_self]

/-- What the strip takes away is the zero bytes at the end. -/
theorem stripTrailing_append_heldZeros (bs : List Byte) :
    stripTrailing bs ++ List.replicate (heldZeros 0 bs) 0x00#8 = bs := by
  induction bs using List.reverseRecOn with
  | nil => rfl
  | append_singleton bs b ih =>
    by_cases hb : b = 0x00#8
    · rw [hb, stripTrailing_concat_zero, heldZeros_concat_zero, List.replicate_succ', ← List.append_assoc, ih]
    · rw [stripTrailing_concat_ne hb, heldZeros_concat_ne hb, List.replicate_zero, List.append_nil]

theorem length_stripTrailing_le (bs : List Byte) : (stripTrailing bs).length ≤ bs.length := by
  have h := congrArg List.length (stripTrailing_append_heldZeros bs)
  rw [List.length_append] at h
  omega

theorem take_length_stripTrailing (bs : List Byte) : bs.take (stripTrailing bs).length = stripTrailing bs := by
  have h := congrArg (List.take (stripTrailing bs).length) (stripTrailing_append_heldZeros bs)
  rw [List.take_left] at h
  exact h.symm

theorem drop_length_stripTrailing (bs : List Byte) :
    bs.drop (stripTrailing bs).length = List.replicate (heldZeros 0 bs) 0x00#8 := by
  have h := congrArg (List.drop (stripTrailing bs).length) (stripTrailing_append_heldZeros bs)
  rw [List.drop_left] at h
  exact h.symm

theorem getLast_stripTrailing_ne {bs : List Byte} (h : stripTrailing bs ≠ []) :
    (stripTrailing bs).getLast h ≠ 0x00#8 := by
  simp only [stripTrailing_eq_rdropWhile] at h ⊢
  simpa using List.rdropWhile_last_not (· == 0x00#8) bs h

/-- Beyond any place before the end of the strip there is a byte that is not zero. -/
theorem exists_ne_zero_of_lt_stripTrailing {bs : List Byte} {k : Nat} (hk : k < (stripTrailing bs).length) :
    ∃ b ∈ bs.drop k, b ≠ 0x00#8 := by
  have hne : (stripTrailing bs).drop k ≠ [] := List.drop_eq_nil_iff.not.2 (by omega)
  have hlast := getLast_stripTrailing_ne (List.ne_nil_of_length_pos (by omega : 0 < (stripTrailing bs).length))
  refine ⟨_, ?_, hlast⟩
  rw [← List.getLast_drop hne]
  have hmem := List.mem_append_left (List.replicate (heldZeros 0 bs) 0x00#8) (List.getLast_mem hne)
  rwa [← List.drop_append_of_le_length hk.le, stripTrailing_append_heldZeros] at hmem

theorem strip_append_zeros (mode : StripMode) (bs : List Byte) (n : Nat) :
    strip mode (bs ++ List.replicate n 0x00#8) = strip mode bs := by
  cases mode with
  | trailing =>
    induction n with
    | zero => rw [List.replicate_zero, List.append_nil]
    | succ n ih =>
      rw [List.replicate_succ', ← List.append_assoc]
      exact (stripTrailing_concat_zero _).trans ih
  | all => simp [strip]

/-- In mode `ALL` it makes no difference to strip the zero bytes at the end first. -/
theorem strip_all_stripTrailing (bs : List Byte) : strip .all (stripTrailing bs) = strip .all bs := by
  conv_rhs => rw [← stripTrailing_append_heldZeros bs]
  exact (strip_append_zeros .all _ _).symm

theorem strip_strip (mode : StripMode) (bs : List Byte) : strip mode (strip mode bs) = strip mode bs := by
  cases mode with
  | trailing => simp only [strip, stripTrailing_eq_rdropWhile, List.rdropWhile_idempotent]
  | all => simp [strip]

/-- Settles O49: `TRAILING` by the zero bytes it takes away (`stripTrailing_append_heldZeros`) and the byte it ends in
(`exists_ne_zero_of_lt_stripTrailing`), `ALL` as the library's `filter`. -/
theorem stripLaws : Obligations.StripLaws := by
  refine ⟨fun bs => ⟨_, length_stripTrailing_le bs, (take_length_stripTrailing bs).symm, fun b hb => ?_, fun k =>
      exists_ne_zero_of_lt_stripTrailing⟩,
    fun bs => ⟨List.filter_sublist, fun b hb => ?_, fun b hb => List.count_filter (by simpa using hb)⟩,
    strip_strip, strip_all_stripTrailing, strip_append_zeros⟩
  · rw [drop_length_stripTrailing] at hb
    exact List.eq_of_mem_replicate hb
  · simpa using (List.mem_filter.1 hb).2

/-! ## The rasters of the reference encoder (R141) -/

/-- Numbering `c` cells in each of `n` rows numbers `n * c` cells. -/
theorem flatMap_range_mul {α : Type} (f : Nat → α) (n c : Nat) :
    ((List.range n).flatMap fun i => (List.range c).map fun j => f (i * c + j)) = (List.range (n * c)).map f := by
  induction n with
  | zero => rw [Nat.zero_mul]; rfl
  | succ n ih =>
    rw [List.range_succ, List.flatMap_append, ih, Nat.succ_mul, List.range_add, List.map_append, List.map_map]
    simp

theorem map_getD_range {α : Type} (d : α) (p : List α) : (List.range p.length).map (p.getD · d) = p :=
  List.ext_getElem (by simp) fun i _ hi => by
    rw [List.getElem_map, List.getElem_range, List.getD_eq_getElem _ _ hi]

/-- The cells of raster `n` are the pixels from `n C` on. -/
theorem cutRaster_flat (rows cols n : Nat) (p : List Byte) :
    (cutRaster rows cols n p).flat = (List.range (rows * cols)).map fun k => p.getD (n * (rows * cols) + k) 0 := by
  rw [← flatMap_range_mul]
  simp [Raster.flat, cutRaster, List.flatMap_def, Nat.add_assoc]

/-- The rasters of a pixel sequence hold its pixels in order. -/
theorem flatMap_flat_cutRaster {rows cols n : Nat} {p : List Byte} (hp : p.length = n * (rows * cols)) :
    ((List.range n).map fun i => cutRaster rows cols i p).flatMap Raster.flat = p := by
  rw [List.flatMap_map]
  simp only [cutRaster_flat]
  rw [flatMap_range_mul (fun k => p.getD k 0), ← hp, map_getD_range]

theorem cutRaster_wellShaped (rows cols n : Nat) (bits : List Bool) :
    (cutRaster rows cols n (bits.map pix)).wellShaped = true := by
  have hcell : ∀ k, bit? ((bits.map pix).getD k 0) = some (bits.getD k false) := fun k =>
    (congrArg bit? (List.getD_map bits false pix)).trans (bit?_pix _)
  rw [Raster.wellShaped, cutRaster_flat]
  simp only [Bool.and_eq_true, List.all_eq_true, List.mem_map, beq_iff_eq]
  refine ⟨⟨by simp [cutRaster], fun line hline => ?_⟩, ?_⟩
  · obtain ⟨r, -, rfl⟩ := List.mem_map.1 hline
    simp [cutRaster]
  · rintro v ⟨k, -, rfl⟩
    rw [hcell]
    rfl

/-- The rasters that the reference encoder gives for a legal geometry. -/
def encodedRasters (bs : List Byte) (rows cols : Nat) : List Raster :=
  (List.range (rasterCount (8 * bs.length) (rows * cols))).map fun n =>
    cutRaster rows cols n (encodePixels bs (rows * cols))

theorem encodeRef_of_geomOk {rows cols : Nat} (hg : geomOk rows cols = true) (bs : List Byte) :
    encodeRef bs rows cols = .ok (encodedRasters bs rows cols) :=
  if_pos hg

theorem encodeRef_of_not_geomOk {rows cols : Nat} (hg : ¬ geomOk rows cols = true) (bs : List Byte) :
    encodeRef bs rows cols = .error .configuration :=
  if_neg hg

theorem length_encodedRasters (bs : List Byte) (rows cols : Nat) :
    (encodedRasters bs rows cols).length = rasterCount (8 * bs.length) (rows * cols) := by
  rw [encodedRasters, List.length_map, List.length_range]

theorem of_mem_encodedRasters {bs : List Byte} {rows cols : Nat} {q : Raster} (hq : q ∈ encodedRasters bs rows cols) :
    q.wellShaped = true ∧ q.rows = rows ∧ q.cols = cols := by
  obtain ⟨n, -, rfl⟩ := List.mem_map.1 hq
  exact ⟨cutRaster_wellShaped rows cols n _, rfl, rfl⟩

theorem sameShapes_encodedRasters (bs : List Byte) (rows cols : Nat) :
    sameShapes (encodedRasters bs rows cols) = true := by
  have hshape := fun q => of_mem_encodedRasters (bs := bs) (rows := rows) (cols := cols) (q := q)
  cases hqs : encodedRasters bs rows cols with
  | nil => rfl
  | cons q qs =>
    rw [hqs] at hshape
    obtain ⟨-, hrows, hcols⟩ := hshape q List.mem_cons_self
    refine List.all_eq_true.2 fun q' hq' => ?_
    obtain ⟨-, hrows', hcols'⟩ := hshape q' (List.mem_cons_of_mem q hq')
    simp [hrows, hcols, hrows', hcols']

theorem flatMap_flat_encodedRasters {rows cols : Nat} (hg : geomOk rows cols = true) (bs : List Byte) :
    (encodedRasters bs rows cols).flatMap Raster.flat = encodePixels bs (rows * cols) := by
  obtain ⟨hr, hc, -⟩ := (geomOk_iff _ _).1 hg
  exact flatMap_flat_cutRaster (length_encodePixels (Nat.mul_pos hr hc) bs)

/-- Settles O50: the rasters are cut from the pixel sequence (`flatMap_flat_cutRaster`), whose padding is 0 bits. -/
theorem referenceEncoderShape : Obligations.ReferenceEncoderShape := by
  refine fun bs rows cols => ⟨fun hg => encodeRef_of_not_geomOk (ne_true_of_eq_false hg) bs, fun hg =>
    ⟨_, encodeRef_of_geomOk hg bs, length_encodedRasters bs rows cols, fun q => of_mem_encodedRasters, ?_⟩⟩
  rw [flatMap_flat_encodedRasters hg, encodePixels, length_encodedRasters, List.map_append, List.map_replicate]
  rfl

/-! ## The round trip on bytes (R146) -/

/-- Reading pixels as bits is the inverse of the pixel mapping. -/
theorem bitsOfPixels_eq_some_iff {vs : List Byte} {bits : List Bool} :
    bitsOfPixels vs = some bits ↔ vs = bits.map pix := by
  induction vs generalizing bits with
  | nil => cases bits <;> simp [bitsOfPixels]
  | cons v vs ih =>
    cases bits with
    | nil => simp only [bitsOfPixels]; split <;> simp
    | cons b bits =>
      rw [List.map_cons, List.cons.injEq, ← ih, ← bit?_eq_some_iff, bitsOfPixels]
      split
      case h_1 hb hbs => simp [hb, hbs]
      case h_2 hnone => exact iff_of_false nofun fun ⟨hb, hbs⟩ => hnone _ _ hb hbs

theorem decodeRef_of_bits {qs : List Raster} {bits : List Bool} (hshape : sameShapes qs = true)
    (hbits : bitsOfPixels (qs.flatMap Raster.flat) = some bits) (mode : StripMode) :
    decodeRef qs mode = .ok (strip mode (bytesOf bits)) := by
  rw [decodeRef, if_pos hshape, hbits]

theorem bitsOf_zeros (m : Nat) : bitsOf (List.replicate m 0x00#8) = List.replicate (8 * m) false := by
  induction m with
  | zero => rfl
  | succ m ih =>
    rw [List.replicate_succ, bitsOf_cons, ih, Nat.mul_succ, Nat.add_comm, List.replicate_add]
    rfl

/-- The bytes that the rasters of the reference encoder hold: the input and the padding (R149). -/
def paddedBytes (bs : List Byte) (rows cols : Nat) : List Byte :=
  bs ++ List.replicate ((encodedRasters bs rows cols).length * (rows * cols) / 8 - bs.length) 0x00#8

/-- The capacity being a multiple of 8, the padding is whole bytes. -/
theorem encodePixels_eq_paddedBytes {rows cols : Nat} (hg : geomOk rows cols = true) (bs : List Byte) :
    encodePixels bs (rows * cols) = (bitsOf (paddedBytes bs rows cols)).map pix := by
  obtain ⟨-, -, hmul⟩ := (geomOk_iff _ _).1 hg
  have hdvd : 8 ∣ rasterCount (8 * bs.length) (rows * cols) * (rows * cols) :=
    Dvd.dvd.mul_left (Nat.dvd_of_mod_eq_zero hmul) _
  rw [encodePixels, paddedBytes, bitsOf_append, bitsOf_zeros, length_encodedRasters]
  congr 3
  omega

theorem bitsOfPixels_encodedRasters {rows cols : Nat} (hg : geomOk rows cols = true) (bs : List Byte) :
    bitsOfPixels ((encodedRasters bs rows cols).flatMap Raster.flat) = some (bitsOf (paddedBytes bs rows cols)) :=
  bitsOfPixels_eq_some_iff.2 ((flatMap_flat_encodedRasters hg bs).trans (encodePixels_eq_paddedBytes hg bs))

/-- R146. -/
theorem decodeRef_encodedRasters {rows cols : Nat} (hg : geomOk rows cols = true) (bs : List Byte) (mode : StripMode) :
    decodeRef (encodedRasters bs rows cols) mode = .ok (strip mode bs) := by
  rw [decodeRef_of_bits (sameShapes_encodedRasters bs rows cols) (bitsOfPixels_encodedRasters hg bs), bytesOf_bitsOf,
    paddedBytes, strip_append_zeros]

/-- Settles O51: the rasters hold the bytes and zero bytes after them (`bitsOfPixels_encodedRasters`), which the strip
does not see. -/
theorem roundTripIsStrip : Obligations.RoundTripIsStrip :=
  fun bs _ _ mode hg => ⟨_, encodeRef_of_geomOk hg bs, decodeRef_encodedRasters hg bs mode⟩

theorem strip_trailing_eq_self_iff (bs : List Byte) :
    strip .trailing bs = bs ↔ bs = [] ∨ ∃ b, bs.getLast? = some b ∧ b ≠ 0x00#8 := by
  rw [strip, stripTrailing_eq_rdropWhile, List.rdropWhile_eq_self_iff]
  cases bs using List.reverseRecOn with
  | nil => simp
  | append_singleton bs b => simp

theorem strip_all_eq_self_iff (bs : List Byte) : strip .all bs = bs ↔ ∀ b ∈ bs, b ≠ 0x00#8 := by
  simp only [strip, List.filter_eq_self, bne_iff_ne]

/-- Settles O52: the round trip is the strip (`decodeRef_encodedRasters`), and each strip leaves the bytes as they are
just when it has nothing to take away. -/
theorem roundTripExactWhen : Obligations.RoundTripExactWhen := by
  intro bs rows cols hg
  have hexact : ∀ mode, decodeRef (encodedRasters bs rows cols) mode = .ok bs ↔ strip mode bs = bs := fun mode => by
    rw [decodeRef_encodedRasters hg, Except.ok.injEq]
  exact ⟨_, encodeRef_of_geomOk hg bs, hexact, (hexact .trailing).trans (strip_trailing_eq_self_iff bs),
    (hexact .all).trans (strip_all_eq_self_iff bs)⟩

end Sys2Proof.Machine
end

section
/-! PROOFS. Encode transactions (spec/43_transactions.md R144): the events and the end of an accepted one (O53), and one
whose geometry is refused (O54). -/

namespace Sys2Proof.Machine

/-! ## A legal geometry (R144, second case) -/

/-- Settles O53: `execAll_encodeCmds`, with the events numbered as a range. -/
theorem encodeTransactionRefines : Obligations.EncodeTransactionRefines := by
  intro rows cols bs s hs hst hg c n p
  have hc : 0 < c := capacity_pos (u := .opened rows cols) hg
  have hlen : p.length = n * c := length_encodePixels hc bs
  have hevents : mappedPixels rows cols 0 p = (List.range (n * c)).map fun k =>
      { val := p.getD k 0, ras := BitVec.ofNat 32 (k / c), row := BitVec.ofNat 12 (k % c / cols.toNat)
        col := BitVec.ofNat 12 (k % c % cols.toNat), eor := k % c == c - 1 } := by
    conv_lhs => rw [← map_getD_range 0 p, mappedPixels_map_range, hlen]
    refine List.map_congr_left fun k _ => ?_
    have heor : (k % c + 1 == c) = (k % c == c - 1) := Bool.eq_iff_iff.2 (by simp only [beq_iff_eq]; omega)
    rw [Nat.zero_add, mappedPix, ← heor]
  refine ⟨hlen, (execAll_encodeCmds bs hs hst hg).trans ?_⟩
  rw [← hevents]
  rfl

/-! ## An illegal geometry (R144, first case) -/

/-- Commands that leave the state as it is. -/
theorem execAll_of_ignored {is : List Instr} {s : State} (h : ∀ i ∈ is, exec i s = .next s) :
    execAll is s = .next s := by
  induction is with
  | nil => rfl
  | cons i is ih =>
    exact execAll_cons.2 ⟨s, h i List.mem_cons_self, ih fun j hj => h j (List.mem_cons_of_mem i hj)⟩

/-- R164: the start refuses an illegal geometry. -/
theorem exec_encStart_refused {s : State} (hst : s.enc.ctl.state = .idle)
    (hg : geomOk s.enc.rows.toNat s.enc.cols.toNat = false) : exec .encStart s = .next (s.raiseEnc .config) :=
  onEnc_idle_raises (act := encStartAct s.enc) hst (if_neg (ne_true_of_eq_false hg))

/-- Settles O54: the start raises `ERR_CONFIG` (`exec_encStart_refused`), and in `FAULT` the other commands are ignored
(R172). -/
theorem encodeTransactionRefused : Obligations.EncodeTransactionRefused := by
  intro rows cols bs s hs hst hg
  have herr := (s.legal_iff.1 hs).1.err_eq_none (by rw [hst]; decide)
  have hrest : ∀ t : State, t.enc.ctl.state = .fault → execAll (encBytes bs ++ [.encEnd]) t = .next t := by
    refine fun t ht => execAll_of_ignored fun i hi => ?_
    obtain hi | hi := List.mem_append.1 hi
    · obtain ⟨b, -, rfl⟩ := List.mem_map.1 hi
      exact onEnc_of_fault ht _ (encByteAct b t.enc)
    · obtain rfl := List.mem_singleton.1 hi
      exact onEnc_of_fault ht _ (encEndAct t.enc)
  have hraise : s.enc.ctl.raise .config = { state := .fault, err := .config } := by rw [Ctl.raise, if_pos herr]
  have hcfg : exec (.encCfg rows cols) s = .next (s.setEnc { s.enc with rows := rows, cols := cols }) :=
    (exec_encCfg_idle hst rows cols).trans (congrArg _ (State.emitPix_nil _))
  refine execAll_cons.2 ⟨_, hcfg, execAll_cons.2 ⟨_, exec_encStart_refused hst hg, ?_⟩⟩
  rw [hrest _ rfl, ← hraise]
  rfl

end Sys2Proof.Machine
end

section
/-! PROOFS. Decode transactions (spec/43_transactions.md R145): the registers and the bytes after any bits taken, the
commands of `DECODE` over rasters of one shape (O57), the first raster of another shape (O58), and the round trip
through the machine (R146, O59). -/

namespace Sys2Proof.Machine

/-! ## The bits taken, one more (R140) -/

/-- Bits in front of a bit stream: their whole bytes come first, the open group goes on. -/
theorem bytesOf_append (as bs : List Bool) : bytesOf (as ++ bs) = bytesOf as ++ bytesOf (openGroup as ++ bs) := by
  conv_lhs => rw [← bitsOf_bytesOf_append_openGroup as, List.append_assoc, bytesOf_bitsOf_append]

/-- A bit that leaves the group open. -/
theorem concat_bit_of_open {bits : List Bool} (h : bits.length % 8 ≠ 7) (b : Bool) :
    bytesOf (bits ++ [b]) = bytesOf bits ∧ openGroup (bits ++ [b]) = openGroup bits ++ [b] := by
  have hdiv : (bits ++ [b]).length / 8 = bits.length / 8 := by rw [List.length_append, List.length_singleton]; omega
  constructor
  · have hshort : (openGroup bits ++ [b]).length < 8 := by
      rw [List.length_append, length_openGroup, List.length_singleton]
      omega
    rw [bytesOf_append, bytesOf_of_short hshort, List.append_nil]
  · rw [openGroup, hdiv, List.drop_append_of_le_length (by omega), ← openGroup]

/-- A bit that completes the group. -/
theorem concat_bit_of_complete {bits : List Bool} (h : bits.length % 8 = 7) (b : Bool) :
    bytesOf (bits ++ [b]) = bytesOf bits ++ [byteOfBits (openGroup bits ++ [b])] ∧ openGroup (bits ++ [b]) = [] := by
  have hlen : (bits ++ [b]).length = bits.length + 1 := by rw [List.length_append, List.length_singleton]
  constructor
  · have hg : (openGroup bits ++ [b]).length = 8 := by
      rw [List.length_append, length_openGroup, List.length_singleton, h]
    have hbyte := bytesOf_group hg []
    rw [List.append_nil] at hbyte
    have hnil : bytesOf [] = [] := rfl
    rw [bytesOf_append, hbyte, hnil]
  · refine List.eq_nil_of_length_eq_zero ?_
    rw [length_openGroup, hlen]
    omega

/-! ## The zero bytes held back (R115, R120) -/

/-- How many zero bytes the decoder holds back after the bytes of a transaction. -/
def heldAfter : StripMode → List Byte → Nat
  | .trailing, bs => heldZeros 0 bs
  | .all, _ => 0

/-- `DEC.ZRUN` can count every run of zero bytes among the bytes of a bit stream (the proviso of R145). -/
def RunsFit (mode : StripMode) (bits : List Bool) : Prop :=
  mode = .trailing → longestZeroRun 0 (bytesOf bits) < 2 ^ 32

theorem heldZeros_le_longestZeroRun (n : Nat) (bs : List Byte) : heldZeros n bs ≤ longestZeroRun n bs := by
  induction bs generalizing n with
  | nil => exact Nat.le_refl n
  | cons b bs ih =>
    simp only [heldZeros, longestZeroRun]
    split
    · exact ih (n + 1)
    · exact (ih 0).trans (Nat.le_max_right _ _)

theorem longestZeroRun_le_append (n : Nat) (as bs : List Byte) :
    longestZeroRun n as ≤ longestZeroRun n (as ++ bs) := by
  induction as generalizing n with
  | nil => exact le_longestZeroRun n bs
  | cons a as ih =>
    simp only [List.cons_append, longestZeroRun]
    split
    · exact ih (n + 1)
    · exact max_le_max_left n (ih 0)

theorem RunsFit.of_append {mode : StripMode} {as bs : List Bool} (h : RunsFit mode (as ++ bs)) : RunsFit mode as := by
  intro hm
  have hlt := h hm
  rw [bytesOf_append] at hlt
  exact (longestZeroRun_le_append 0 _ _).trans_lt hlt

theorem RunsFit.held_lt {mode : StripMode} {bits : List Bool} (h : RunsFit mode bits) :
    heldAfter mode (bytesOf bits) < 2 ^ 32 := by
  cases mode with
  | trailing => exact (heldZeros_le_longestZeroRun 0 _).trans_lt (h rfl)
  | all => exact Nat.two_pow_pos 32

/-- One byte more: the deliver step counts the zeros held, and sends what the strip has more to give. -/
theorem Dec.deliver_held {u : Dec} {mode : StripMode} {bs : List Byte} (hm : u.mode = mode)
    (hz : u.zrun = BitVec.ofNat 32 (heldAfter mode bs)) (hlt : heldAfter mode bs < 2 ^ 32) (b : Byte) :
    ∃ out, u.deliver b = ({ u with zrun := BitVec.ofNat 32 (heldAfter mode (bs ++ [b])) }, out) ∧
      strip mode (bs ++ [b]) = strip mode bs ++ out := by
  have hcount : u.zrun.toNat = heldAfter mode bs := by rw [hz, BitVec.toNat_ofNat, Nat.mod_eq_of_lt hlt]
  by_cases hb : b = 0x00#8
  · refine ⟨[], ?_, hb ▸ (strip_append_zeros mode bs 1).trans (List.append_nil _).symm⟩
    cases mode with
    | trailing =>
      rw [hb, Dec.deliver_zero_trailing hm, hz, heldAfter, heldAfter, heldZeros_concat_zero, BitVec.ofNat_add]
    | all => rw [hb, Dec.deliver_zero_all hm, show BitVec.ofNat 32 (heldAfter .all (bs ++ [0#8])) = u.zrun from hz.symm]
  · refine ⟨List.replicate (heldAfter mode bs) 0x00#8 ++ [b], ?_, ?_⟩
    · have hnone : heldAfter mode (bs ++ [b]) = 0 := by
        cases mode with
        | trailing => exact heldZeros_concat_ne hb 0 bs
        | all => rfl
      rw [Dec.deliver_of_ne hb, hcount, hnone]
    · cases mode with
      | trailing =>
        rw [← List.append_assoc]
        exact (stripTrailing_concat_ne hb bs).trans (congrArg (· ++ [b]) (stripTrailing_append_heldZeros bs).symm)
      | all => simp [strip, heldAfter, hb]

/-! ## The decoder after the bits of a transaction

`u.holding bits` is the unit `u` once it has taken `bits` since its start (R114, R118): the open group stands in
`DEC.SR` and `DEC.BC`, the zero bytes held back in `DEC.ZRUN`. -/

/-- The unit with its group and held zeros where they stand after `bits`. -/
def Dec.holding (u : Dec) (bits : List Bool) : Dec :=
  { u with sr := byteOfBits (openGroup bits), bc := BitVec.ofNat 3 bits.length
           zrun := BitVec.ofNat 32 (heldAfter u.mode (bytesOf bits)) }

/-- The unit with `n` pixels of its raster owed. -/
def Dec.owing (u : Dec) (n : PixCount) : Dec := { u with rem := n }

@[simp] theorem Dec.owing_owing (u : Dec) (m n : PixCount) : (u.owing m).owing n = u.owing n := rfl

theorem Dec.owing_rem {u : Dec} {n : PixCount} (h : u.rem = n) : u.owing n = u := h ▸ rfl

theorem Dec.holding_bc_eq_iff (u : Dec) (bits : List Bool) : (u.holding bits).bc = 7#3 ↔ bits.length % 8 = 7 := by
  rw [← BitVec.toNat_inj]
  rfl

theorem Dec.holding_shiftIn (u : Dec) (bits : List Bool) (b : Bool) :
    (u.holding bits).shiftIn b = byteOfBits (openGroup bits ++ [b]) :=
  (byteOfBits_concat _ b).symm

/-- The bit step takes the unit from `bits` to one bit more, and sends what the strip has more to give (R114, R115). -/
theorem Dec.takeBit_holding {u : Dec} {bits : List Bool} (hfit : RunsFit u.mode bits) (b : Bool) :
    ∃ out, (u.holding bits).takeBit b = ((u.owing (u.rem - 1#24)).holding (bits ++ [b]), out) ∧
      strip u.mode (bytesOf (bits ++ [b])) = strip u.mode (bytesOf bits) ++ out := by
  by_cases hfull : bits.length % 8 = 7
  · obtain ⟨hbytes, hopen⟩ := concat_bit_of_complete hfull b
    obtain ⟨out, hdeliver, hout⟩ := Dec.deliver_held (u := (u.holding bits).groupTaken) (bs := bytesOf bits) rfl rfl
      hfit.held_lt (byteOfBits (openGroup bits ++ [b]))
    have hbc : BitVec.ofNat 3 (bits ++ [b]).length = 0#3 := by
      refine BitVec.eq_of_toNat_eq (show (bits ++ [b]).length % 8 = 0 from ?_)
      rw [List.length_append, List.length_singleton]
      omega
    refine ⟨out, ?_, hbytes ▸ hout⟩
    rw [Dec.takeBit_of_complete ((u.holding_bc_eq_iff bits).2 hfull), Dec.holding_shiftIn, hdeliver]
    simp only [Dec.holding, hopen, hbc, hbytes]
    rfl
  · obtain ⟨hbytes, hopen⟩ := concat_bit_of_open hfull b
    refine ⟨[], ?_, by rw [hbytes, List.append_nil]⟩
    rw [Dec.takeBit_of_open (mt (u.holding_bc_eq_iff bits).1 hfull), Dec.holding_shiftIn]
    simp only [Dec.holding, hopen, hbytes, List.length_append, List.length_singleton, BitVec.ofNat_add]
    rfl

/-! ## The machine in a decode transaction -/

/-- The machine that was `s` at the start of a decode transaction, the decoder having taken `bits` since (R145): it
holds them and has sent the strip of their bytes, and nothing else has changed. -/
def State.decoding (s : State) (u : Dec) (bits : List Bool) : State :=
  decView.put (u.holding bits) (strip u.mode (bytesOf bits)) s

/-- R112: the start opens a transaction of no bits. -/
theorem exec_decStart_decoding {s : State} (hs : s.legal = true) (hst : s.dec.ctl.state = .idle) :
    exec .decStart s = .next (s.decoding (.opened s.dec.mode) []) := by
  rw [exec_decStart_opens hs hst]
  cases s.dec.mode with
  | trailing => rfl
  | all => rfl

/-- Where one zero byte more still fits, the counter is not full (R122). -/
theorem Dec.not_heldFull_holding {u : Dec} {bits : List Bool} {b : Bool}
    (hfit : RunsFit u.mode (bits ++ [b])) : ¬ (u.holding bits).HeldFull ((u.holding bits).shiftIn b) := by
  rintro ⟨hbc, hzero, hmode, hmax⟩
  obtain ⟨hbytes, -⟩ := concat_bit_of_complete ((u.holding_bc_eq_iff bits).1 hbc) b
  rw [u.holding_shiftIn] at hzero
  have hlt := hfit.held_lt
  have hmode : u.mode = .trailing := hmode
  have hmax : (BitVec.ofNat 32 (heldAfter u.mode (bytesOf bits))).toNat = 2 ^ 32 - 1 := congrArg BitVec.toNat hmax
  rw [hbytes, hzero, hmode, heldAfter, heldZeros_concat_zero] at hlt
  rw [hmode, heldAfter, BitVec.toNat_ofNat, Nat.mod_eq_of_lt (by omega)] at hmax
  omega

/-- A pixel owed gives its bit to the transaction (R114). -/
theorem exec_decPix_decoding {s : State} {u : Dec} {bits : List Bool} {b : Bool} (hst : u.ctl.state = .active)
    (hrem : u.rem ≠ 0#24) (hfit : RunsFit u.mode (bits ++ [b])) :
    exec (.decPix (pix b)) (s.decoding u bits) =
      .next (s.decoding (u.owing (u.rem - 1#24)) (bits ++ [b])) := by
  obtain ⟨out, htake, hout⟩ := Dec.takeBit_holding hfit.of_append b
  rw [exec_decPix_takes (s := s.decoding u bits) hst hrem (Dec.not_heldFull_holding hfit) htake, State.decoding,
    decView.put_put, ← hout]
  rfl

/-- All the pixels that a raster owes (R75, R114). -/
theorem execAll_decPixels {s : State} (bits : List Bool) {u : Dec} {done : List Bool} (hst : u.ctl.state = .active)
    (hrem : u.rem.toNat = bits.length) (hfit : RunsFit u.mode (done ++ bits)) :
    execAll (decPixels (bits.map pix)) (s.decoding u done) =
      .next (s.decoding (u.owing 0#24) (done ++ bits)) := by
  induction bits generalizing u done with
  | nil =>
    rw [List.append_nil, Dec.owing_rem (BitVec.eq_of_toNat_eq hrem)]
    rfl
  | cons b bits ih =>
    rw [List.append_cons] at hfit ⊢
    rw [List.length_cons] at hrem
    have hfirst : RunsFit u.mode (done ++ [b]) := hfit.of_append
    refine execAll_cons.2 ⟨_, exec_decPix_decoding hst (fun h0 => ?_) hfirst,
      ih (u := u.owing (u.rem - 1#24)) hst ?_ hfit⟩
    · rw [h0] at hrem
      cases hrem
    · show (u.rem - 1#24).toNat = bits.length
      bv_omega

/-! ## The rasters of a transaction (R76, R113, R118) -/

/-- The unit with the shape of the raster `q` latched. -/
def Dec.shapedAs (u : Dec) (q : Raster) : Dec :=
  { u with rows := .ofNat 12 q.rows, cols := .ofNat 12 q.cols, haveShape := true }

/-- The unit with the shape latched that a transaction of these rasters latches: that of the first. -/
def Dec.shapedBy (u : Dec) : List Raster → Dec
  | [] => u
  | q :: _ => u.shapedAs q

@[simp] theorem Dec.shapedBy_ctl (u : Dec) (qs : List Raster) : (u.shapedBy qs).ctl = u.ctl := by cases qs <;> rfl
@[simp] theorem Dec.shapedBy_mode (u : Dec) (qs : List Raster) : (u.shapedBy qs).mode = u.mode := by cases qs <;> rfl
@[simp] theorem Dec.shapedBy_rem (u : Dec) (qs : List Raster) : (u.shapedBy qs).rem = u.rem := by cases qs <;> rfl

theorem dimOfNat_eq_some_iff {n : Nat} {d : Dim} : dimOfNat n = some d ↔ n < 4096 ∧ d = .ofNat 12 n := by
  unfold dimOfNat
  split
  case isTrue h => simp only [Option.some.injEq, h, true_and, eq_comm]
  case isFalse h => simp only [reduceCtorEq, h, false_and]

/-- A count that fits a dimension is the dimension's value. -/
theorem toNat_ofNat_dim {n : Nat} (h : n < 4096) : (BitVec.ofNat 12 n : Dim).toNat = n := Nat.mod_eq_of_lt h

theorem ofNat_dim_ne {m n : Nat} (hm : m < 4096) (hn : n < 4096) (h : m ≠ n) :
    (BitVec.ofNat 12 m : Dim) ≠ .ofNat 12 n := by
  rwa [ne_eq, ← BitVec.toNat_inj, toNat_ofNat_dim hm, toNat_ofNat_dim hn]

/-- Everything that a raster with commands is (R75, R76). -/
theorem rasterCmds_cases {q : Raster} {is : List Instr} (h : rasterCmds q = some is) :
    q.rows < 4096 ∧ q.cols < 4096 ∧ q.flat.length = q.rows * q.cols ∧
      is = .decRaster (.ofNat 12 q.rows) (.ofNat 12 q.cols) :: decPixels q.flat := by
  unfold rasterCmds at h
  split at h
  case h_2 => cases h
  case h_1 rows cols hrows hcols =>
    obtain ⟨hr, rfl⟩ := dimOfNat_eq_some_iff.1 hrows
    obtain ⟨hc, rfl⟩ := dimOfNat_eq_some_iff.1 hcols
    unfold decRasterData at h
    split at h
    case isFalse => cases h
    case isTrue hlen =>
      rw [toNat_ofNat_dim hr, toNat_ofNat_dim hc] at hlen
      exact ⟨hr, hc, hlen, (Option.some.inj h).symm⟩

theorem rastersCmds_cons {q : Raster} {qs : List Raster} {is : List Instr} (h : rastersCmds (q :: qs) = some is) :
    ∃ own rest, rasterCmds q = some own ∧ rastersCmds qs = some rest ∧ is = own ++ rest := by
  unfold rastersCmds at h
  split at h
  case h_1 own rest hown hrest => exact ⟨own, rest, hown, hrest, (Option.some.inj h).symm⟩
  case h_2 => cases h

theorem rastersCmds_append {qs ps : List Raster} {is : List Instr} (h : rastersCmds (qs ++ ps) = some is) :
    ∃ front back, rastersCmds qs = some front ∧ rastersCmds ps = some back ∧ is = front ++ back := by
  induction qs generalizing is with
  | nil => exact ⟨[], is, rfl, h, rfl⟩
  | cons q qs ih =>
    obtain ⟨own, rest, hown, hrest, rfl⟩ := rastersCmds_cons h
    obtain ⟨front, back, hfront, hback, rfl⟩ := ih hrest
    exact ⟨own ++ front, back, by rw [rastersCmds, hown, hfront], hback, (List.append_assoc ..).symm⟩

theorem decodeCmds_cases {qs : List Raster} {cmds : List Instr} (h : decodeCmds qs = some cmds) :
    ∃ is, rastersCmds qs = some is ∧ cmds = .decStart :: (is ++ [.decEnd]) := by
  obtain ⟨is, his, rfl⟩ := Option.map_eq_some_iff.1 h
  exact ⟨is, his, rfl⟩

/-- A raster announced, the first or one of the latched shape (R113, R118). -/
theorem exec_decRaster_decoding {s : State} {u : Dec} {bits : List Bool} {q : Raster} (hst : u.ctl.state = .active)
    (hrem : u.rem = 0#24) (hshape : u.haveShape = false ∨ u.shapedAs q = u) :
    exec (.decRaster (.ofNat 12 q.rows) (.ofNat 12 q.cols)) (s.decoding u bits) =
      .next (s.decoding ((u.shapedAs q).owing (area (.ofNat 12 q.rows) (.ofNat 12 q.cols))) bits) := by
  have hact : decRasterAct (.ofNat 12 q.rows) (.ofNat 12 q.cols) (u.holding bits) =
      .does (((u.shapedAs q).owing (area (.ofNat 12 q.rows) (.ofNat 12 q.cols))).holding bits) [] := by
    obtain hfirst | hagrees := hshape
    · exact decRasterAct_first (u := u.holding bits) hfirst _ _
    · rw [← hagrees]
      exact decRasterAct_agrees (u := (u.shapedAs q).holding bits) rfl
  exact onDec_of_does_nil (s := s.decoding u bits) (Ctl.ne_fault_of_active hst)
    ((Dec.betweenRasters_iff _).2 ⟨hst, hrem⟩) hact

/-- One raster with all its pixels. -/
theorem execAll_rasterCmds {s : State} {u : Dec} {done bits : List Bool} {q : Raster} {is : List Instr}
    (his : rasterCmds q = some is) (hbits : q.flat = bits.map pix) (hst : u.ctl.state = .active)
    (hrem : u.rem = 0#24) (hshape : u.haveShape = false ∨ u.shapedAs q = u) (hfit : RunsFit u.mode (done ++ bits)) :
    execAll is (s.decoding u done) = .next (s.decoding (u.shapedAs q) (done ++ bits)) := by
  obtain ⟨hr, hc, hlen, rfl⟩ := rasterCmds_cases his
  rw [hbits, List.length_map] at hlen
  have harea : (area (.ofNat 12 q.rows) (.ofNat 12 q.cols)).toNat = bits.length := by
    rw [area_toNat, toNat_ofNat_dim hr, toNat_ofNat_dim hc, hlen]
  have hpixels := execAll_decPixels (s := s)
    (u := (u.shapedAs q).owing (area (.ofNat 12 q.rows) (.ofNat 12 q.cols))) bits hst harea hfit
  rw [← hbits, Dec.owing_owing, Dec.owing_rem (u := u.shapedAs q) hrem] at hpixels
  exact execAll_cons.2 ⟨_, exec_decRaster_decoding hst hrem hshape, hpixels⟩

/-- The cells of a first raster and of the rest, as bits. -/
theorem flatMap_flat_cons_bits {q : Raster} {qs : List Raster} {bits : List Bool}
    (h : (q :: qs).flatMap Raster.flat = bits.map pix) :
    ∃ own rest, q.flat = own.map pix ∧ qs.flatMap Raster.flat = rest.map pix ∧ bits = own ++ rest := by
  obtain ⟨own, rest, rfl, hown, hrest⟩ := List.map_eq_append_iff.1 h.symm
  exact ⟨own, rest, hown.symm, hrest.symm, rfl⟩

/-- Rasters of the latched shape. -/
theorem execAll_rastersCmds_agree {s : State} {u : Dec} (hst : u.ctl.state = .active) (hrem : u.rem = 0#24)
    {qs : List Raster} (hshape : ∀ q ∈ qs, u.shapedAs q = u) {done bits : List Bool} {is : List Instr}
    (his : rastersCmds qs = some is) (hbits : qs.flatMap Raster.flat = bits.map pix)
    (hfit : RunsFit u.mode (done ++ bits)) :
    execAll is (s.decoding u done) = .next (s.decoding u (done ++ bits)) := by
  induction qs generalizing done bits is with
  | nil =>
    cases his
    rw [List.map_eq_nil_iff.1 hbits.symm, List.append_nil]
    rfl
  | cons q qs ih =>
    obtain ⟨own, rest, hown, hrest, rfl⟩ := rastersCmds_cons his
    obtain ⟨ownBits, restBits, hownBits, hrestBits, rfl⟩ := flatMap_flat_cons_bits hbits
    rw [← List.append_assoc] at hfit ⊢
    have hsame := hshape q List.mem_cons_self
    have hraster := execAll_rasterCmds (s := s) hown hownBits hst hrem (.inr hsame) hfit.of_append
    rw [hsame] at hraster
    exact execAll_append.2 ⟨_, hraster, ih (fun q' hq' => hshape q' (List.mem_cons_of_mem q hq')) hrest hrestBits hfit⟩

/-- The rasters of a transaction that has just opened, all of one shape: the first latches it. -/
theorem execAll_rastersCmds {s : State} {mode : StripMode} {qs : List Raster} {bits : List Bool} {is : List Instr}
    (his : rastersCmds qs = some is) (hshape : sameShapes qs = true) (hbits : qs.flatMap Raster.flat = bits.map pix)
    (hfit : RunsFit mode bits) :
    execAll is (s.decoding (.opened mode) []) = .next (s.decoding ((Dec.opened mode).shapedBy qs) bits) := by
  cases qs with
  | nil => exact execAll_rastersCmds_agree rfl rfl (List.forall_mem_nil _) his hbits hfit
  | cons q qs =>
    obtain ⟨own, rest, hown, hrest, rfl⟩ := rastersCmds_cons his
    obtain ⟨ownBits, restBits, hownBits, hrestBits, rfl⟩ := flatMap_flat_cons_bits hbits
    have hagree : ∀ q' ∈ qs, ((Dec.opened mode).shapedAs q).shapedAs q' = (Dec.opened mode).shapedAs q := by
      intro q' hq'
      have hsame := List.all_eq_true.1 hshape q' hq'
      simp only [Bool.and_eq_true, beq_iff_eq] at hsame
      rw [Dec.shapedAs, hsame.1, hsame.2]
      rfl
    exact execAll_append.2 ⟨_, execAll_rasterCmds (u := .opened mode) (done := []) hown hownBits rfl rfl (.inl rfl)
        (RunsFit.of_append (bs := restBits) hfit),
      execAll_rastersCmds_agree rfl rfl hagree hrest hrestBits hfit⟩

/-! ## The whole transaction (R145, second case) -/

/-- The decoder after an accepted `DEC_END` (R116). -/
def Dec.closed (u : Dec) : Dec :=
  { u with sr := 0#8, bc := 0#3, zrun := 0#32, ctl := { u.ctl with state := .idle } }

/-- R116: the end between two rasters sends nothing more; the open group and the zero bytes held are dropped. -/
theorem exec_decEnd_decoding {s : State} {u : Dec} {bits : List Bool} (hst : u.ctl.state = .active)
    (hrem : u.rem = 0#24) :
    exec .decEnd (s.decoding u bits) = .next (decView.put u.closed (strip u.mode (bytesOf bits)) s) :=
  onDec_of_does_nil (s := s.decoding u bits) (Ctl.ne_fault_of_active hst) ((Dec.betweenRasters_iff _).2 ⟨hst, hrem⟩) rfl

/-- R145: the commands of `DECODE` send the strip of the bytes of the rasters and end the transaction. -/
theorem execAll_decodeCmds {qs : List Raster} {cmds : List Instr} {bits : List Bool} {s : State} (hs : s.legal = true)
    (hst : s.dec.ctl.state = .idle) (hcmds : decodeCmds qs = some cmds) (hshape : sameShapes qs = true)
    (hbits : qs.flatMap Raster.flat = bits.map pix) (hfit : RunsFit s.dec.mode bits) :
    execAll cmds s =
      .next (decView.put ((Dec.opened s.dec.mode).shapedBy qs).closed (strip s.dec.mode (bytesOf bits)) s) := by
  obtain ⟨is, his, rfl⟩ := decodeCmds_cases hcmds
  have hend := exec_decEnd_decoding (s := s) (u := (Dec.opened s.dec.mode).shapedBy qs) (bits := bits)
    (by rw [Dec.shapedBy_ctl]; rfl) (Dec.shapedBy_rem _ qs)
  rw [Dec.shapedBy_mode] at hend
  exact execAll_cons.2 ⟨_, exec_decStart_decoding hs hst, execAll_append.2
    ⟨_, execAll_rastersCmds his hshape hbits hfit, execAll_cons.2 ⟨_, hend, rfl⟩⟩⟩

/-- Settles O57: the machine sends what the reference decoder gives (`execAll_decodeCmds`, `decodeRef_of_bits`). -/
theorem decodeTransactionRefines : Obligations.DecodeTransactionRefines := by
  intro qs cmds bits s hs hst hcmds hshape hbits hfit
  refine ⟨_, _, decodeRef_of_bits hshape hbits _,
    execAll_decodeCmds hs hst hcmds hshape (bitsOfPixels_eq_some_iff.1 hbits) hfit, ?_⟩
  simp [Dec.closed, Dec.opened]

/-! ## A raster of another shape (R145, first case) -/

/-- R172: a decoder in `FAULT` ignores every command but its abort. -/
theorem exec_of_decFault {i : Instr} {s : State} (hst : s.dec.ctl.state = .fault) (hi : forDec i = true)
    (habort : i ≠ .decAbort) : exec i s = .next s := by
  cases i with
  | nop | sysReset | rdsr _ | encCfg _ _ | encStart | encByte _ | encEnd | encAbort => cases hi
  | decCfg mode => exact onDec_of_fault hst _ (decCfgAct mode s.dec)
  | decStart => exact onDec_of_fault hst _ (decStartAct s.dec)
  | decRaster rows cols => exact onDec_of_fault hst _ (decRasterAct rows cols s.dec)
  | decPix v => exact onDec_of_fault hst _ (decPixAct v s.dec)
  | decEnd => exact onDec_of_fault hst _ (decEndAct s.dec)
  | decAbort => exact absurd rfl habort

theorem execAll_decPixels_of_decFault {s : State} (hst : s.dec.ctl.state = .fault) (vs : List Byte) :
    execAll (decPixels vs) s = .next s := by
  refine execAll_of_ignored fun i hi => ?_
  obtain ⟨v, -, rfl⟩ := List.mem_map.1 hi
  exact exec_of_decFault hst rfl nofun

theorem execAll_rastersCmds_of_decFault {s : State} (hst : s.dec.ctl.state = .fault) {qs : List Raster}
    {is : List Instr} (his : rastersCmds qs = some is) : execAll is s = .next s := by
  induction qs generalizing is with
  | nil => cases his; rfl
  | cons q qs ih =>
    obtain ⟨own, rest, hown, hrest, rfl⟩ := rastersCmds_cons his
    obtain ⟨-, -, -, rfl⟩ := rasterCmds_cases hown
    exact execAll_append.2 ⟨s, execAll_cons.2 ⟨s, exec_of_decFault hst rfl nofun, execAll_decPixels_of_decFault hst _⟩,
      ih hrest⟩

/-- A raster of another shape than the latched one raises `ERR_SHAPE` (R165), and its pixels are ignored. -/
theorem execAll_rasterCmds_mismatch {s : State} {u : Dec} {bits : List Bool} {first bad : Raster}
    {own other : List Instr} (hfirst : rasterCmds first = some own) (hbad : rasterCmds bad = some other)
    (hst : u.ctl.state = .active) (hrem : u.rem = 0#24) (hne : bad.rows ≠ first.rows ∨ bad.cols ≠ first.cols) :
    execAll other (s.decoding (u.shapedAs first) bits) =
      .next ((s.decoding (u.shapedAs first) bits).raiseDec .shape) := by
  obtain ⟨hr, hc, -, -⟩ := rasterCmds_cases hfirst
  obtain ⟨hr', hc', -, rfl⟩ := rasterCmds_cases hbad
  have hdiffers := decRasterAct_differs (u := (u.shapedAs first).holding bits) rfl
    (hne.imp (ofNat_dim_ne hr' hr) (ofNat_dim_ne hc' hc))
  have hraise := onDec_of_raises (s := s.decoding (u.shapedAs first) bits) (Ctl.ne_fault_of_active hst)
    ((Dec.betweenRasters_iff _).2 ⟨hst, hrem⟩) hdiffers
  exact execAll_cons.2 ⟨_, hraise, execAll_decPixels_of_decFault rfl _⟩

theorem sameShapes_of_mismatch {first bad : Raster} (before rest : List Raster)
    (hne : bad.rows ≠ first.rows ∨ bad.cols ≠ first.cols) : sameShapes (first :: before ++ bad :: rest) = false := by
  refine eq_false_of_ne_true fun hsame => ?_
  have hbad := List.all_eq_true.1 hsame bad (List.mem_append_right before List.mem_cons_self)
  simp only [Bool.and_eq_true, beq_iff_eq] at hbad
  exact hne.elim (absurd hbad.1) (absurd hbad.2)

/-- Settles O58: the rasters of the first shape are taken (`execAll_rastersCmds`), the next raises
(`execAll_rasterCmds_mismatch`), and in `FAULT` what follows is ignored. -/
theorem decodeTransactionShapeMismatch : Obligations.DecodeTransactionShapeMismatch := by
  intro first bad before rest cmds bits s hs hst hcmds hshape hne hbits hfit
  refine ⟨if_neg (ne_true_of_eq_false (sameShapes_of_mismatch before rest hne)), ?_⟩
  obtain ⟨is, his, rfl⟩ := decodeCmds_cases hcmds
  obtain ⟨front, back, hfront, hback, rfl⟩ := rastersCmds_append his
  obtain ⟨own, -, hown, -, -⟩ := rastersCmds_cons hfront
  obtain ⟨other, after, hother, hafter, rfl⟩ := rastersCmds_cons hback
  have htaken := execAll_rastersCmds (s := s) hfront hshape (bitsOfPixels_eq_some_iff.1 hbits) hfit
  have hraised := execAll_rasterCmds_mismatch (s := s) (u := .opened s.dec.mode) (bits := bits) hown hother rfl rfl hne
  have hfault : ((s.decoding ((Dec.opened s.dec.mode).shapedAs first) bits).raiseDec .shape).dec.ctl.state = .fault :=
    rfl
  have hignored := execAll_rastersCmds_of_decFault hfault hafter
  have hend := exec_of_decFault (i := .decEnd) hfault rfl nofun
  exact ⟨_, _, execAll_cons.2 ⟨_, exec_decStart_decoding hs hst, execAll_append.2
    ⟨_, execAll_append.2 ⟨_, htaken, execAll_append.2 ⟨_, hraised, hignored⟩⟩, execAll_cons.2 ⟨_, hend, rfl⟩⟩⟩, rfl⟩

/-! ## The round trip through the machine (R146) -/

/-- Every command list keeps the invariant. -/
theorem execAll_keeps_legal {is : List Instr} {s t : State} (h : execAll is s = .next t) (hs : s.legal = true) :
    t.legal = true := by
  induction is generalizing s with
  | nil => cases h; exact hs
  | cons i is ih =>
    obtain ⟨u, hu, hrest⟩ := execAll_cons.1 h
    exact ih hrest (exec_keeps_legal hu hs)

/-- Settles O59: the encoder sends the cells of the reference rasters (`execAll_encodeCmds`), and the decoder, which the
encoder's commands left alone, sends the strip of the bytes they hold (`execAll_decodeCmds`). -/
theorem machineRoundTrip : Obligations.MachineRoundTrip := by
  intro rows cols bs qs cmds s hs henc hdec hqs hcmds hfit
  have hg : geomOk rows.toNat cols.toNat = true := by
    by_contra hg
    rw [encodeRef_of_not_geomOk hg] at hqs
    cases hqs
  obtain rfl := Except.ok.inj ((encodeRef_of_geomOk hg bs).symm.trans hqs)
  have hencode := execAll_encodeCmds bs hs henc hg
  have hfit : RunsFit s.dec.mode (bitsOf (paddedBytes bs rows.toNat cols.toNat)) := by
    rw [RunsFit, bytesOf_bitsOf]
    exact hfit
  have hdecode := execAll_decodeCmds (execAll_keeps_legal hencode hs) hdec hcmds (sameShapes_encodedRasters ..)
    (bitsOfPixels_eq_some_iff.1 (bitsOfPixels_encodedRasters hg bs)) hfit
  refine ⟨_, execAll_append.2 ⟨_, hencode, hdecode⟩, ?_, ?_, rfl, ?_⟩
  · rw [flatMap_flat_encodedRasters hg]
    exact (congrArg (List.map Pix.val) List.drop_left).trans (mappedPixels_val ..)
  · rw [bytesOf_bitsOf, paddedBytes, strip_append_zeros]
    rfl
  · show (Dec.closed _).ctl = _
    rw [Dec.closed, Dec.shapedBy_ctl]
    rfl

end Sys2Proof.Machine
end

section
/-! PROOFS. Faults and the unit state machines (spec/60_exceptions.md): one table per unit of the code that each command
raises in each state (R164 to R168), every command held against it and against the table of R180, and from these the
statements on fault entry (O24), on the cause of each error (O25, O26), on a faulted unit (O27) and on the state machines
(O28). -/

namespace Sys2Proof.Machine

/-! ## The codes raised (R164 to R168) -/

/-- One row of a table over the states of a unit (R167, R180). -/
def Ctl.row {α : Type} (idle active fault : α) (c : Ctl) : α :=
  match c.state with
  | .idle => idle
  | .active => active
  | .fault => fault

section
variable {α : Type} {c : Ctl} (idle active fault : α)

theorem Ctl.row_of_idle (hst : c.state = .idle) : c.row idle active fault = idle := by rw [Ctl.row, hst]

theorem Ctl.row_of_active (hst : c.state = .active) : c.row idle active fault = active := by rw [Ctl.row, hst]

theorem Ctl.row_of_fault (hst : c.state = .fault) : c.row idle active fault = fault := by rw [Ctl.row, hst]

end

/-- No code is raised in `FAULT` (R172). -/
abbrev Ctl.errorIn (idle active : ErrCode) (c : Ctl) : ErrCode := c.row idle active .none

theorem Ctl.errorIn_eq_iff {c : Ctl} {idle active e : ErrCode} (he : e ≠ .none) :
    c.errorIn idle active = e ↔ c.state = .idle ∧ idle = e ∨ c.state = .active ∧ active = e := by
  cases hst : c.state with
  | idle => simp [Ctl.row_of_idle _ _ _ hst]
  | active => simp [Ctl.row_of_active _ _ _ hst]
  | fault => simp [Ctl.row_of_fault _ _ _ hst, he.symm]

/-! The table of each unit, tied to the model by `exec_encMove` and `exec_decMove` below. -/

/-- The code that a command raises on the encoder, `ERR_NONE` where it raises none (R164, R167). -/
def encError (i : Instr) (u : Enc) : ErrCode :=
  match i with
  | .encCfg _ _ => u.ctl.errorIn .none .seq
  | .encStart => u.ctl.errorIn (if geomOk u.rows.toNat u.cols.toNat then .none else .config) .seq
  | .encByte _ | .encEnd => u.ctl.errorIn .seq .none
  | .encAbort | .nop | .sysReset | .rdsr _ => .none
  | .decCfg _ | .decStart | .decRaster _ _ | .decPix _ | .decEnd | .decAbort => .none

/-- The code that the checks of an accepted `DEC_PIX` raise (R166, R168). -/
def pixError (v : Byte) (u : Dec) : ErrCode :=
  if v ≠ 0x00#8 ∧ v ≠ 0xFF#8 then .pixel
  else if v = 0x00#8 ∧ u.zeroOverflows (u.sr <<< 1) = true then .overflow
  else .none

/-- The code that a command raises on the decoder, `ERR_NONE` where it raises none (R165 to R168). -/
def decError (i : Instr) (u : Dec) : ErrCode :=
  match i with
  | .decCfg _ | .decStart => u.ctl.errorIn .none .seq
  | .decRaster rows cols =>
    u.ctl.errorIn .seq (if u.rem = 0#24 then if u.shapeDiffers rows cols then .shape else .none else .seq)
  | .decPix v => u.ctl.errorIn .seq (if u.rem = 0#24 then .seq else pixError v u)
  | .decEnd => u.ctl.errorIn .seq (if u.rem = 0#24 then .none else .seq)
  | .decAbort | .nop | .sysReset | .rdsr _ => .none
  | .encCfg _ _ | .encStart | .encByte _ | .encEnd | .encAbort => .none

/-! Where each code stands in the tables, command by command. -/

/-- R164: `ERR_CONFIG` has one cause. -/
theorem encError_eq_config_iff (i : Instr) (u : Enc) : encError i u = .config ↔
    i = .encStart ∧ u.ctl.state = .idle ∧ ¬ geomOk u.rows.toNat u.cols.toNat = true := by
  cases i <;> simp [encError, Ctl.errorIn_eq_iff]

/-- The encoder's rows of the table of R167. -/
theorem encError_eq_seq_iff (i : Instr) (u : Enc) : encError i u = .seq ↔
    (u.ctl.state = .idle ∧ ((∃ b, i = .encByte b) ∨ i = .encEnd)) ∨
    (u.ctl.state = .active ∧ ((∃ r c, i = .encCfg r c) ∨ i = .encStart)) := by
  cases i <;> simp [encError, Ctl.errorIn_eq_iff, ite_eq_iff]

theorem decError_ne_config (i : Instr) (u : Dec) : decError i u ≠ .config := by
  cases i <;> simp [decError, pixError, Ctl.errorIn_eq_iff, ite_eq_iff]

/-- R165: `ERR_SHAPE` has one cause. -/
theorem decError_eq_shape_iff (i : Instr) (u : Dec) : decError i u = .shape ↔
    ∃ rows cols, i = .decRaster rows cols ∧ u.ctl.state = .active ∧ u.rem = 0#24 ∧
      u.shapeDiffers rows cols = true := by
  cases i <;> simp [decError, pixError, Ctl.errorIn_eq_iff, ite_eq_iff]

/-- R166: `ERR_PIXEL` has one cause. -/
theorem decError_eq_pixel_iff (i : Instr) (u : Dec) : decError i u = .pixel ↔
    ∃ v, i = .decPix v ∧ u.ctl.state = .active ∧ u.rem ≠ 0#24 ∧ v ≠ 0x00#8 ∧ v ≠ 0xFF#8 := by
  cases i <;> simp [decError, pixError, Ctl.errorIn_eq_iff, ite_eq_iff]

/-- R168: `ERR_OVERFLOW` has one cause. -/
theorem decError_eq_overflow_iff (i : Instr) (u : Dec) : decError i u = .overflow ↔
    i = .decPix 0x00#8 ∧ u.ctl.state = .active ∧ u.rem ≠ 0#24 ∧ u.HeldFull (u.sr <<< 1) := by
  cases i with
  | decPix v => by_cases hv : v = 0x00#8 <;>
      simp [decError, pixError, Ctl.errorIn_eq_iff, ite_eq_iff, ← Dec.zeroOverflows_iff, hv]
  | _ => simp [decError, Ctl.errorIn_eq_iff, ite_eq_iff]

/-- The decoder's rows of the table of R167. -/
theorem decError_eq_seq_iff (i : Instr) (u : Dec) : decError i u = .seq ↔
    (u.ctl.state = .idle ∧ ((∃ r c, i = .decRaster r c) ∨ (∃ v, i = .decPix v) ∨ i = .decEnd)) ∨
    (u.ctl.state = .active ∧
      ((∃ m, i = .decCfg m) ∨ i = .decStart ∨ ((∃ r c, i = .decRaster r c) ∧ u.rem ≠ 0#24) ∨
        ((∃ v, i = .decPix v) ∧ u.rem = 0#24) ∨ (i = .decEnd ∧ u.rem ≠ 0#24))) := by
  cases i <;> simp [decError, pixError, Ctl.errorIn_eq_iff, ite_eq_iff]

/-! ## What a command does to the control registers of a unit -/

/-- How the control registers of a unit go from `c` to `d` where the tables name the code `e` and the next state `st`: a
code is raised, which gives the state `entered`; or none is, and `FAULT` is not entered. -/
inductive UnitMove (e : ErrCode) (st : UnitState) (c d : Ctl) (entered t : State) : Prop where
  /-- Fault entry (R163). -/
  | raised (he : e ≠ .none) (hst : st = .fault) (hd : d = c.raise e) (ht : t = entered)
  /-- The command is performed, ignored, or not for the unit. -/
  | passed (he : e = .none) (hmove : d.state = st) (herr : d.err = c.err) (hst : c.state ≠ .fault → st ≠ .fault)
  /-- The unit's abort or `SYS_RESET`. -/
  | cleared (he : e = .none) (hst : st = .idle) (hd : d = .reset)

section
variable {e : ErrCode} {st : UnitState} {c d : Ctl} {entered t : State}

theorem UnitMove.state_eq (h : UnitMove e st c d entered t) : d.state = st := by
  cases h with
  | raised _ hst hd => rw [hd, hst, Ctl.raise_state]
  | passed _ hmove => exact hmove
  | cleared _ hst hd => rw [hd, hst]; rfl

/-- R163: `FAULT` is entered by raising a code. -/
theorem UnitMove.fault_entry (h : UnitMove e st c d entered t) (hc : c.state ≠ .fault) (hd : d.state = .fault) :
    e ≠ .none ∧ t = entered := by
  cases h with
  | raised he _ _ ht => exact ⟨he, ht⟩
  | passed _ hmove _ hst => exact absurd (hmove.symm.trans hd) (hst hc)
  | cleared _ _ hreset => cases hreset; cases hd

/-- A code that the unit did not hold is the one raised. -/
theorem UnitMove.code_of_new {x : ErrCode} (h : UnitMove e st c d entered t) (hx : x ≠ .none) (hc : c.err ≠ x)
    (hd : d.err = x) : e = x := by
  cases h with
  | raised _ _ hraise =>
    rw [hraise] at hd
    by_cases hnone : c.err = .none
    · rwa [Ctl.raise_err_of_none e hnone] at hd
    · exact absurd ((Ctl.raise_err_of_some e hnone).symm.trans hd) hc
  | passed _ _ herr => exact absurd (herr.symm.trans hd) hc
  | cleared _ _ hreset => exact absurd ((congrArg Ctl.err hreset).symm.trans hd).symm hx

/-- A unit that held no code holds the one raised. -/
theorem UnitMove.err_eq (h : UnitMove e st c d entered t) (hc : c.err = .none) : d.err = e := by
  cases h with
  | raised _ _ hd => rw [hd, Ctl.raise_err_of_none e hc]
  | passed he _ herr => rw [herr, hc, he]
  | cleared he _ hd => rw [hd, he]; rfl

end

/-! ## The encoder -/

/-- What a command does to the encoder's control registers, by the tables of R164, R167 and R180. -/
def EncMove (i : Instr) (s t : State) : Prop :=
  UnitMove (encError i s.enc) (encTransition i s.enc) s.enc.ctl t.enc.ctl (s.raiseEnc (encError i s.enc)) t

/-- R172: an encoder in `FAULT` ignores every command but its abort. -/
theorem exec_of_encFault {i : Instr} {s : State} (hst : s.enc.ctl.state = .fault) (hi : forEnc i = true)
    (habort : i ≠ .encAbort) : exec i s = .next s := by
  cases i with
  | nop | sysReset | rdsr _ | decCfg _ | decStart | decRaster _ _ | decPix _ | decEnd | decAbort => cases hi
  | encCfg rows cols => exact onEnc_of_fault hst _ (encCfgAct rows cols s.enc)
  | encStart => exact onEnc_of_fault hst _ (encStartAct s.enc)
  | encByte b => exact onEnc_of_fault hst _ (encByteAct b s.enc)
  | encEnd => exact onEnc_of_fault hst _ (encEndAct s.enc)
  | encAbort => exact absurd rfl habort

/-! The rows of the encoder's table in R180. -/

theorem encTransition_encCfg (rows cols : Dim) (u : Enc) :
    encTransition (.encCfg rows cols) u = u.ctl.row .idle .fault .fault := by
  unfold encTransition Ctl.row
  cases u.ctl.state <;> rfl

theorem encTransition_encStart (u : Enc) : encTransition .encStart u =
    u.ctl.row (if geomOk u.rows.toNat u.cols.toNat then .active else .fault) .fault .fault := by
  unfold encTransition Ctl.row
  cases u.ctl.state <;> rfl

theorem encTransition_encByte (b : Byte) (u : Enc) :
    encTransition (.encByte b) u = u.ctl.row .fault .active .fault := by
  unfold encTransition Ctl.row
  cases u.ctl.state <;> rfl

theorem encTransition_encEnd (u : Enc) : encTransition .encEnd u = u.ctl.row .fault .idle .fault := by
  unfold encTransition Ctl.row
  cases u.ctl.state <;> rfl

theorem encEndAct_ne_raises (u : Enc) (e : ErrCode) : encEndAct u ≠ .raises e := by
  unfold encEndAct
  split <;> nofun

/-- Closing a transaction leaves the control registers at `IDLE`, the code kept (R95). -/
theorem encEndAct_ctl {u v : Enc} {evs : List Pix} (h : encEndAct u = .does v evs) :
    v.ctl = { u.ctl with state := .idle } := by
  cases hp : encPad u.capacity u with
  | none => simp [encEndAct, hp] at h
  | some r =>
    simp only [encEndAct, hp] at h
    obtain ⟨rfl, -⟩ := Act.does.inj h
    obtain ⟨-, ⟨-, -, hctl⟩, -⟩ := encPad_ends hp
    rw [hctl]

/-- What the tables leave out: a command for no encoder, and one ignored in `FAULT`. -/
theorem encTables_kept {i : Instr} {u : Enc} (hr : i ≠ .sysReset) (ha : i ≠ .encAbort)
    (hf : forEnc i = true → u.ctl.state = .fault) : encError i u = .none ∧ encTransition i u = u.ctl.state := by
  cases i with
  | nop | rdsr _ | decCfg _ | decStart | decRaster _ _ | decPix _ | decEnd | decAbort => exact ⟨rfl, rfl⟩
  | sysReset => exact absurd rfl hr
  | encAbort => exact absurd rfl ha
  | encCfg _ _ | encStart | encByte _ | encEnd =>
    have hst := hf rfl
    refine ⟨Ctl.row_of_fault _ _ _ hst, ?_⟩
    unfold encTransition
    rw [hst]

theorem EncMove.kept {i : Instr} {s t : State} (hr : i ≠ .sysReset) (ha : i ≠ .encAbort)
    (hf : forEnc i = true → s.enc.ctl.state = .fault) (ht : t.enc = s.enc) : EncMove i s t := by
  obtain ⟨herr, hst⟩ := encTables_kept hr ha hf
  exact .passed herr (by rw [ht, hst]) (by rw [ht]) fun hne => hst ▸ hne

/-- The dispatch of R80 against the tables: out of sequence, a failed check, a command performed. -/
theorem EncMove.of_onEnc {i : Instr} {accepts : Bool} {act : Act Enc Pix} {s t : State}
    (h : onEnc accepts act s = .next t) (hi : forEnc i = true) (ha : i ≠ .encAbort)
    (hseq : s.enc.ctl.state ≠ .fault → accepts = false → encError i s.enc = .seq ∧ encTransition i s.enc = .fault)
    (hraises : ∀ e, accepts = true → act = .raises e →
      encError i s.enc = e ∧ e ≠ .none ∧ encTransition i s.enc = .fault)
    (hdoes : ∀ u evs, accepts = true → act = .does u evs →
      encError i s.enc = .none ∧ u.ctl.state = encTransition i s.enc ∧ u.ctl.err = s.enc.ctl.err ∧
        encTransition i s.enc ≠ .fault) : EncMove i s t := by
  obtain ⟨hf, rfl⟩ | ⟨-, hacc, u, evs, hact, rfl⟩ | ⟨-, hacc, e, hact, rfl⟩ | ⟨hf, hacc, rfl⟩ := onEnc_cases h
  case inl => exact .kept (by rintro rfl; cases hi) ha (fun _ => hf) rfl
  case inr.inl =>
    obtain ⟨he, hst, herr, hne⟩ := hdoes u evs hacc hact
    exact .passed he hst herr fun _ => hne
  case inr.inr.inl =>
    obtain ⟨rfl, hne, hst⟩ := hraises e hacc hact
    exact .raised hne hst rfl rfl
  case inr.inr.inr =>
    obtain ⟨herr, hst⟩ := hseq hf hacc
    exact .raised (by rw [herr]; decide) hst (by rw [herr]; rfl) (by rw [herr])

/-- A unit not in `FAULT` that does not accept a command of `IDLE` is `ACTIVE`. -/
theorem Ctl.active_of_not_isIdle {c : Ctl} (hf : c.state ≠ .fault) (ha : c.isIdle = false) : c.state = .active := by
  cases hst : c.state with
  | idle => exact nomatch ha.symm.trans ((Ctl.isIdle_iff c).2 hst)
  | active => rfl
  | fault => exact absurd hst hf

theorem Ctl.idle_of_not_isActive {c : Ctl} (hf : c.state ≠ .fault) (ha : c.isActive = false) : c.state = .idle := by
  cases hst : c.state with
  | idle => rfl
  | active => exact nomatch ha.symm.trans ((Ctl.isActive_iff c).2 hst)
  | fault => exact absurd hst hf

/-- Every command moves the encoder's control registers as the tables say. -/
theorem exec_encMove {i : Instr} {s t : State} (h : exec i s = .next t) : EncMove i s t := by
  cases i with
  | nop => cases h; exact .kept nofun nofun nofun rfl
  | sysReset => cases h; exact .cleared rfl rfl rfl
  | rdsr idx => obtain ⟨v, -, rfl⟩ | ⟨-, rfl⟩ := execRdsr_cases h <;> exact .kept nofun nofun nofun rfl
  | encCfg rows cols =>
    refine .of_onEnc (i := .encCfg rows cols) (act := encCfgAct rows cols s.enc) h rfl nofun (fun hf ha => ?_) nofun
      (fun u evs ha hact => ?_)
    · have hst := Ctl.active_of_not_isIdle hf ha
      simp [encError, encTransition_encCfg, Ctl.row, hst]
    · cases hact
      have hst := (Ctl.isIdle_iff _).1 ha
      simp [encError, encTransition_encCfg, Ctl.row, hst]
  | encStart =>
    have hseq : s.enc.ctl.state ≠ .fault → s.enc.ctl.isIdle = false → _ := fun hf ha =>
      have hst := Ctl.active_of_not_isIdle hf ha
      show encError .encStart s.enc = .seq ∧ encTransition .encStart s.enc = .fault by
        simp [encError, encTransition_encStart, Ctl.row, hst]
    by_cases hg : geomOk s.enc.rows.toNat s.enc.cols.toNat = true
    · have hact : encStartAct s.enc = .does _ [] := if_pos hg
      rw [exec_encStart, hact] at h
      refine .of_onEnc h rfl nofun hseq nofun (fun u evs ha hact => ?_)
      cases hact
      have hst := (Ctl.isIdle_iff _).1 ha
      simp [encError, encTransition_encStart, Ctl.row, hst, hg]
    · have hact : encStartAct s.enc = .raises .config := if_neg hg
      rw [exec_encStart, hact] at h
      refine .of_onEnc h rfl nofun hseq (fun e ha hact => ?_) nofun
      cases hact
      have hst := (Ctl.isIdle_iff _).1 ha
      simp [encError, encTransition_encStart, Ctl.row, hst, hg]
  | encByte b =>
    refine .of_onEnc (i := .encByte b) (act := encByteAct b s.enc) h rfl nofun (fun hf ha => ?_) nofun
      (fun u evs ha hact => ?_)
    · have hst := Ctl.idle_of_not_isActive hf ha
      simp [encError, encTransition_encByte, Ctl.row, hst]
    · have hst := (Ctl.isActive_iff _).1 ha
      obtain ⟨rfl, -⟩ := Act.does.inj (show Act.does _ _ = Act.does u evs from hact)
      obtain ⟨⟨-, -, hctl⟩, -⟩ := encShifts_setup 8 { s.enc with sr := b }
      simp [encError, encTransition_encByte, Ctl.row, hst, hctl]
  | encEnd =>
    refine .of_onEnc (i := .encEnd) (act := encEndAct s.enc) h rfl nofun (fun hf ha => ?_) (fun e _ hact => ?_)
      (fun u evs ha hact => ?_)
    · have hst := Ctl.idle_of_not_isActive hf ha
      simp [encError, encTransition_encEnd, Ctl.row, hst]
    · exact absurd hact (encEndAct_ne_raises s.enc e)
    · have hst := (Ctl.isActive_iff _).1 ha
      have hctl := encEndAct_ctl hact
      simp [encError, encTransition_encEnd, Ctl.row, hst, hctl]
  | encAbort => cases h; exact .cleared rfl rfl rfl
  | decCfg _ | decStart | decRaster _ _ | decPix _ | decEnd | decAbort =>
    exact .kept nofun nofun nofun (exec_frame_of_forDec rfl h).1

/-! ## The decoder -/

/-- What a command does to the decoder's control registers, by the tables of R165 to R168 and R180. -/
def DecMove (i : Instr) (s t : State) : Prop :=
  UnitMove (decError i s.dec) (decTransition i s.dec) s.dec.ctl t.dec.ctl (s.raiseDec (decError i s.dec)) t

/-- A bit 1 leaves no zero byte to hold. -/
theorem Dec.not_zeroOverflows_true (u : Dec) : ¬ u.zeroOverflows (u.shiftIn true) = true := by
  rw [Dec.zeroOverflows_iff, Dec.shiftIn_true]
  rintro ⟨-, hzero, -⟩
  exact absurd (BitVec.or_eq_zero_iff.1 hzero).2 (by decide)

/-- `DEC_PIX` raises the code of `pixError`, or takes a bit (R114). -/
theorem decPixAct_by_error (v : Byte) (u : Dec) :
    (pixError v u ≠ .none ∧ decPixAct v u = .raises (pixError v u)) ∨
    (pixError v u = .none ∧ ∃ b, decPixAct v u = .does (u.takeBit b).1 (u.takeBit b).2) := by
  unfold decPixAct
  cases hv : bit? v with
  | none =>
    have herr : pixError v u = .pixel := if_pos (bit?_eq_none_iff.1 hv)
    rw [herr]
    exact .inl ⟨nofun, rfl⟩
  | some b =>
    obtain rfl := bit?_eq_some_iff.1 hv
    cases b with
    | true =>
      simp only [if_neg u.not_zeroOverflows_true]
      exact .inr ⟨rfl, true, rfl⟩
    | false =>
      have herr : pixError (pix false) u = if u.zeroOverflows (u.sr <<< 1) = true then .overflow else .none := by
        simp [pixError, pix, Config.pix0]
      simp only [herr, Dec.shiftIn_false]
      split_ifs
      · exact .inl ⟨nofun, rfl⟩
      · exact .inr ⟨rfl, false, rfl⟩

/-- A raster of no other shape leaves the control registers alone. -/
theorem decRasterAct_performed {rows cols : Dim} {u : Dec} (hd : ¬ u.shapeDiffers rows cols = true) :
    ∃ v, decRasterAct rows cols u = .does v [] ∧ v.ctl = u.ctl := by
  rw [decRasterAct, if_neg hd]
  split_ifs <;> exact ⟨_, rfl, rfl⟩

/-! The rows of the decoder's table in R180. -/

theorem decTransition_decCfg (mode : StripMode) (u : Dec) :
    decTransition (.decCfg mode) u = u.ctl.row .idle .fault .fault := by
  unfold decTransition Ctl.row
  cases u.ctl.state <;> rfl

theorem decTransition_decStart (u : Dec) : decTransition .decStart u = u.ctl.row .active .fault .fault := by
  unfold decTransition Ctl.row
  cases u.ctl.state <;> rfl

theorem decTransition_decRaster (rows cols : Dim) (u : Dec) : decTransition (.decRaster rows cols) u =
    u.ctl.row .fault (if u.rem = 0#24 then if u.shapeDiffers rows cols then .fault else .active else .fault)
      .fault := by
  simp only [Dec.shapeDiffers_iff]
  unfold decTransition Ctl.row
  cases u.ctl.state <;> rfl

theorem decTransition_decPix (v : Byte) (u : Dec) : decTransition (.decPix v) u =
    u.ctl.row .fault (if u.rem = 0#24 then .fault else if pixError v u = .none then .active else .fault) .fault := by
  have hactive : (if pixError v u = .none then UnitState.active else .fault) =
      if v ≠ 0x00#8 ∧ v ≠ 0xFF#8 then .fault
      else if v = 0x00#8 ∧ u.bc = 7#3 ∧ u.sr <<< 1 = 0x00#8 ∧ u.mode = .trailing ∧ u.zrun = Config.zrunMax then .fault
      else .active := by
    simp only [pixError, Dec.zeroOverflows_iff, Dec.HeldFull, Config.zrunMax]
    split_ifs <;> trivial
  rw [hactive]
  unfold decTransition Ctl.row
  cases u.ctl.state <;> rfl

theorem decTransition_decEnd (u : Dec) : decTransition .decEnd u =
    u.ctl.row .fault (if u.rem = 0#24 then .idle else .fault) .fault := by
  unfold decTransition Ctl.row
  cases u.ctl.state <;> rfl

/-- What the tables leave out: a command for no decoder, and one ignored in `FAULT`. -/
theorem decTables_kept {i : Instr} {u : Dec} (hr : i ≠ .sysReset) (ha : i ≠ .decAbort)
    (hf : forDec i = true → u.ctl.state = .fault) : decError i u = .none ∧ decTransition i u = u.ctl.state := by
  cases i with
  | nop | rdsr _ | encCfg _ _ | encStart | encByte _ | encEnd | encAbort => exact ⟨rfl, rfl⟩
  | sysReset => exact absurd rfl hr
  | decAbort => exact absurd rfl ha
  | decCfg _ | decStart | decRaster _ _ | decPix _ | decEnd =>
    have hst := hf rfl
    refine ⟨Ctl.row_of_fault _ _ _ hst, ?_⟩
    unfold decTransition
    rw [hst]

theorem DecMove.kept {i : Instr} {s t : State} (hr : i ≠ .sysReset) (ha : i ≠ .decAbort)
    (hf : forDec i = true → s.dec.ctl.state = .fault) (ht : t.dec = s.dec) : DecMove i s t := by
  obtain ⟨herr, hst⟩ := decTables_kept hr ha hf
  exact .passed herr (by rw [ht, hst]) (by rw [ht]) fun hne => hst ▸ hne

/-- The dispatch of R80 against the tables: out of sequence, a failed check, a command performed. -/
theorem DecMove.of_onDec {i : Instr} {accepts : Bool} {act : Act Dec Byte} {s t : State}
    (h : onDec accepts act s = .next t) (hi : forDec i = true) (ha : i ≠ .decAbort)
    (hseq : s.dec.ctl.state ≠ .fault → accepts = false → decError i s.dec = .seq ∧ decTransition i s.dec = .fault)
    (hraises : ∀ e, accepts = true → act = .raises e →
      decError i s.dec = e ∧ e ≠ .none ∧ decTransition i s.dec = .fault)
    (hdoes : ∀ u evs, accepts = true → act = .does u evs →
      decError i s.dec = .none ∧ u.ctl.state = decTransition i s.dec ∧ u.ctl.err = s.dec.ctl.err ∧
        decTransition i s.dec ≠ .fault) : DecMove i s t := by
  obtain ⟨hf, rfl⟩ | ⟨-, hacc, u, evs, hact, rfl⟩ | ⟨-, hacc, e, hact, rfl⟩ | ⟨hf, hacc, rfl⟩ := onDec_cases h
  case inl => exact .kept (by rintro rfl; cases hi) ha (fun _ => hf) rfl
  case inr.inl =>
    obtain ⟨he, hst, herr, hne⟩ := hdoes u evs hacc hact
    exact .passed he hst herr fun _ => hne
  case inr.inr.inl =>
    obtain ⟨rfl, hne, hst⟩ := hraises e hacc hact
    exact .raised hne hst rfl rfl
  case inr.inr.inr =>
    obtain ⟨herr, hst⟩ := hseq hf hacc
    exact .raised (by rw [herr]; decide) hst (by rw [herr]; rfl) (by rw [herr])

theorem Dec.of_not_betweenRasters {u : Dec} (hf : u.ctl.state ≠ .fault) (ha : u.betweenRasters = false) :
    u.ctl.state = .idle ∨ u.ctl.state = .active ∧ u.rem ≠ 0#24 := by
  cases hst : u.ctl.state with
  | idle => exact .inl rfl
  | active => exact .inr ⟨rfl, fun hrem => nomatch ha.symm.trans ((Dec.betweenRasters_iff u).2 ⟨hst, hrem⟩)⟩
  | fault => exact absurd hst hf

theorem Dec.of_not_owesPixel {u : Dec} (hf : u.ctl.state ≠ .fault) (ha : u.owesPixel = false) :
    u.ctl.state = .idle ∨ u.ctl.state = .active ∧ u.rem = 0#24 := by
  cases hst : u.ctl.state with
  | idle => exact .inl rfl
  | active => exact .inr ⟨rfl, not_not.1 fun hrem => nomatch ha.symm.trans ((Dec.owesPixel_iff u).2 ⟨hst, hrem⟩)⟩
  | fault => exact absurd hst hf

/-- Every command moves the decoder's control registers as the tables say. -/
theorem exec_decMove {i : Instr} {s t : State} (h : exec i s = .next t) : DecMove i s t := by
  cases i with
  | nop => cases h; exact .kept nofun nofun nofun rfl
  | sysReset => cases h; exact .cleared rfl rfl rfl
  | rdsr idx => obtain ⟨v, -, rfl⟩ | ⟨-, rfl⟩ := execRdsr_cases h <;> exact .kept nofun nofun nofun rfl
  | encCfg _ _ | encStart | encByte _ | encEnd | encAbort =>
    exact .kept nofun nofun nofun (exec_frame_of_forEnc rfl h).1
  | decCfg mode =>
    refine .of_onDec (i := .decCfg mode) (act := decCfgAct mode s.dec) h rfl nofun (fun hf ha => ?_) nofun
      (fun u evs ha hact => ?_)
    · have hst := Ctl.active_of_not_isIdle hf ha
      simp [decError, decTransition_decCfg, Ctl.row, hst]
    · cases hact
      have hst := (Ctl.isIdle_iff _).1 ha
      simp [decError, decTransition_decCfg, Ctl.row, hst]
  | decStart =>
    refine .of_onDec (i := .decStart) (act := decStartAct s.dec) h rfl nofun (fun hf ha => ?_) nofun
      (fun u evs ha hact => ?_)
    · have hst := Ctl.active_of_not_isIdle hf ha
      simp [decError, decTransition_decStart, Ctl.row, hst]
    · cases hact
      have hst := (Ctl.isIdle_iff _).1 ha
      simp [decError, decTransition_decStart, Ctl.row, hst]
  | decRaster rows cols =>
    refine .of_onDec (i := .decRaster rows cols) h rfl nofun (fun hf ha => ?_) (fun e ha hact => ?_)
      (fun u evs ha hact => ?_)
    · obtain hst | ⟨hst, hrem⟩ := Dec.of_not_betweenRasters hf ha
      · simp [decError, decTransition_decRaster, Ctl.row, hst]
      · simp [decError, decTransition_decRaster, Ctl.row, hst, hrem]
    · obtain ⟨hst, hrem⟩ := (Dec.betweenRasters_iff _).1 ha
      by_cases hd : s.dec.shapeDiffers rows cols = true
      · cases (if_pos hd : decRasterAct rows cols s.dec = .raises .shape).symm.trans hact
        simp [decError, decTransition_decRaster, Ctl.row, hst, hrem, hd]
      · obtain ⟨v, hv, -⟩ := decRasterAct_performed hd
        cases hv.symm.trans hact
    · obtain ⟨hst, hrem⟩ := (Dec.betweenRasters_iff _).1 ha
      by_cases hd : s.dec.shapeDiffers rows cols = true
      · cases (if_pos hd : decRasterAct rows cols s.dec = .raises .shape).symm.trans hact
      · obtain ⟨v, hv, hctl⟩ := decRasterAct_performed hd
        cases hv.symm.trans hact
        simp [decError, decTransition_decRaster, Ctl.row, hst, hrem, hd, hctl]
  | decPix v =>
    refine .of_onDec (i := .decPix v) h rfl nofun (fun hf ha => ?_) (fun e ha hact => ?_) (fun u evs ha hact => ?_)
    · obtain hst | ⟨hst, hrem⟩ := Dec.of_not_owesPixel hf ha
      · simp [decError, decTransition_decPix, Ctl.row, hst]
      · simp [decError, decTransition_decPix, Ctl.row, hst, hrem]
    · obtain ⟨hst, hrem⟩ := (Dec.owesPixel_iff _).1 ha
      obtain ⟨herr, hraise⟩ | ⟨-, b, htake⟩ := decPixAct_by_error v s.dec
      · cases hraise.symm.trans hact
        simp [decError, decTransition_decPix, Ctl.row, hst, hrem, herr]
      · cases htake.symm.trans hact
    · obtain ⟨hst, hrem⟩ := (Dec.owesPixel_iff _).1 ha
      obtain ⟨-, hraise⟩ | ⟨herr, b, htake⟩ := decPixAct_by_error v s.dec
      · cases hraise.symm.trans hact
      · cases htake.symm.trans hact
        obtain ⟨sr, bc, z, hunit, -, -⟩ := Dec.takeBit_unit b s.dec
        simp [decError, decTransition_decPix, Ctl.row, hst, hrem, herr, hunit]
  | decEnd =>
    refine .of_onDec (i := .decEnd) (act := decEndAct s.dec) h rfl nofun (fun hf ha => ?_) nofun
      (fun u evs ha hact => ?_)
    · obtain hst | ⟨hst, hrem⟩ := Dec.of_not_betweenRasters hf ha
      · simp [decError, decTransition_decEnd, Ctl.row, hst]
      · simp [decError, decTransition_decEnd, Ctl.row, hst, hrem]
    · cases hact
      obtain ⟨hst, hrem⟩ := (Dec.betweenRasters_iff _).1 ha
      simp [decError, decTransition_decEnd, Ctl.row, hst, hrem]
  | decAbort => cases h; exact .cleared rfl rfl rfl

/-! ## The statements -/

/-- Settles O28: the state after a command is the one its unit's table names (`exec_encMove`, `exec_decMove`). -/
theorem unitStateMachines : Obligations.UnitStateMachines :=
  fun _ _ _ h => ⟨(exec_encMove h).state_eq, (exec_decMove h).state_eq⟩

/-- Settles O24: `FAULT` is entered by raising alone (`UnitMove.fault_entry`), and outside `FAULT` a legal unit holds no
code. -/
theorem faultEntryWritesErrAndStateOnly : Obligations.FaultEntryWritesErrAndStateOnly := by
  refine ⟨fun e s => ⟨rfl, rfl⟩, fun i s t h => ⟨fun hs ht => ?_, fun hs ht => ?_⟩, fun i s t hs _ => ?_⟩
  · obtain ⟨he, hraise⟩ := (exec_encMove h).fault_entry hs ht
    exact ⟨_, he, hraise⟩
  · obtain ⟨he, hraise⟩ := (exec_decMove h).fault_entry hs ht
    exact ⟨_, he, hraise⟩
  · obtain ⟨henc, hdec⟩ := s.legal_iff.1 hs
    exact ⟨fun hne _ => henc.err_eq_none hne, fun hne _ => hdec.err_eq_none hne⟩

/-- Settles O25: a code that is new is the one the table names (`UnitMove.code_of_new`), and the table names each under
its one condition (`encError_eq_config_iff`, `decError_eq_shape_iff`, `decError_eq_pixel_iff`,
`decError_eq_overflow_iff`). -/
theorem eachErrorHasItsOneCause : Obligations.EachErrorHasItsOneCause := by
  intro i s t h
  have henc := exec_encMove h
  have hdec := exec_decMove h
  refine ⟨fun hs ht => ?_, fun hs ht => ?_, fun hs ht => ?_, fun hs ht => ?_, fun hs ht => ?_⟩
  · obtain ⟨rfl, -, hg⟩ := (encError_eq_config_iff _ _).1 (henc.code_of_new (by decide) hs ht)
    rw [geomOk_dims_iff] at hg
    exact ⟨rfl, by tauto⟩
  · exact decError_ne_config _ _ (hdec.code_of_new (by decide) hs ht)
  · obtain ⟨rows, cols, rfl, -, -, hd⟩ := (decError_eq_shape_iff _ _).1 (hdec.code_of_new (by decide) hs ht)
    exact ⟨rows, cols, rfl, (Dec.shapeDiffers_iff _ _ _).1 hd⟩
  · obtain ⟨v, rfl, -, -, hv⟩ := (decError_eq_pixel_iff _ _).1 (hdec.code_of_new (by decide) hs ht)
    exact ⟨v, rfl, hv⟩
  · obtain ⟨rfl, -, -, hfull⟩ := (decError_eq_overflow_iff _ _).1 (hdec.code_of_new (by decide) hs ht)
    exact ⟨rfl, hfull⟩

/-- Settles O26: a unit outside `FAULT` in a legal state holds no code, so after the command it holds the one its table
names (`UnitMove.err_eq`), which is `ERR_SEQ` in the rows of R167. -/
theorem sequenceErrorTable : Obligations.SequenceErrorTable := by
  intro i s t hs h
  obtain ⟨henc, hdec⟩ := s.legal_iff.1 hs
  refine ⟨fun hne => ?_, fun hne => ?_⟩
  · rw [(exec_encMove h).err_eq (henc.err_eq_none hne), encError_eq_seq_iff]
  · rw [(exec_decMove h).err_eq (hdec.err_eq_none hne), decError_eq_seq_iff]

/-- Settles O27: the dispatch ignores the commands (`exec_of_encFault`, `exec_of_decFault`), and the tables of R180 leave
`FAULT` only in the rows of the unit's abort and of `SYS_RESET` (`encTables_kept`, `decTables_kept`). -/
theorem faultedUnitIgnoresCommands : Obligations.FaultedUnitIgnoresCommands := by
  refine ⟨fun i s => exec_of_encFault, fun i s => exec_of_decFault, fun i s t h hst hne => ?_,
    fun i s t h hst hne => ?_⟩
  · by_contra hi
    obtain ⟨ha, hr⟩ := not_or.1 hi
    have hkept := (encTables_kept hr ha fun _ => hst).2
    exact hne ((exec_encMove h).state_eq.trans (hkept.trans hst))
  · by_contra hi
    obtain ⟨ha, hr⟩ := not_or.1 hi
    have hkept := (decTables_kept hr ha fun _ => hst).2
    exact hne ((exec_decMove h).state_eq.trans (hkept.trans hst))

end Sys2Proof.Machine
end

section
/-! PROOFS. Reset and runs (spec/70_reset_and_hazards.md): every command, word and step goes on from a state of the
invariant (R196, O34), the hardware reset between commands and during one (R190 to R193, O36, O37), the values of reset
(R191, O31), the waiting block (O38), the two units' commands in any interleaving (R208, O43), and a list of commands
against the run over its words (R41, O47). -/

namespace Sys2Proof.Machine

/-! ## Every command goes on (R196)

A command answers no next state only where it performs a stuck action, and only the action of `ENC_END` can be one. -/

/-- The action has a rule: it raises, or it is performed. -/
def Act.Ruled {σ ε : Type} (act : Act σ ε) : Prop := ∀ f, act ≠ .stuck f

theorem Act.Ruled.does {σ ε : Type} {u : σ} {evs : List ε} : (Act.does u evs).Ruled := fun _ => nofun

theorem Act.Ruled.raises {σ ε : Type} {e : ErrCode} : (Act.raises e : Act σ ε).Ruled := fun _ => nofun

/-- The dispatch of R80 answers a next state if the action it performs has a rule. -/
theorem onEnc_goes {accepts : Bool} {act : Act Enc Pix} (hact : accepts = true → act.Ruled) (s : State) :
    ∃ t, onEnc accepts act s = .next t := by
  unfold onEnc
  split_ifs with hf ha
  · exact ⟨_, rfl⟩
  · cases act with
    | does u evs => exact ⟨_, rfl⟩
    | raises e => exact ⟨_, rfl⟩
    | stuck f => exact absurd rfl (hact ha f)
  · exact ⟨_, rfl⟩

/-- The same for a decoder command. -/
theorem onDec_goes {accepts : Bool} {act : Act Dec Byte} (hact : act.Ruled) (s : State) :
    ∃ t, onDec accepts act s = .next t := by
  unfold onDec
  split_ifs
  · exact ⟨_, rfl⟩
  · cases act with
    | does u evs => exact ⟨_, rfl⟩
    | raises e => exact ⟨_, rfl⟩
    | stuck f => exact absurd rfl (hact f)
  · exact ⟨_, rfl⟩

theorem encStartAct_ruled (u : Enc) : (encStartAct u).Ruled := by
  unfold encStartAct
  split_ifs
  · exact .does
  · exact .raises

/-- R95, R207: inside a transaction the padding loop comes back to (0, 0). -/
theorem encEndAct_ruled {u : Enc} (hu : u.Invariants) (hst : u.ctl.state = .active) : (encEndAct u).Ruled := by
  obtain ⟨henc, hat⟩ := hu.encoding hst
  rw [hat, encEndAct_atPix henc]
  exact .does

theorem decRasterAct_ruled (rows cols : Dim) (u : Dec) : (decRasterAct rows cols u).Ruled := by
  obtain h | ⟨-, -, -, h⟩ | ⟨-, h⟩ := decRasterAct_cases rows cols u <;> rw [h]
  · exact .raises
  · exact .does
  · exact .does

theorem decPixAct_ruled (v : Byte) (u : Dec) : (decPixAct v u).Ruled := by
  obtain h | h | ⟨b, -, h⟩ := decPixAct_cases v u <;> rw [h]
  · exact .raises
  · exact .raises
  · exact .does

/-- A term that no word stands for acts as an illegal word (notes/assumptions/8.md). -/
theorem exec_rdsr_of_no_statusReg {idx : BitVec 4} {s : State} (hv : statusReg idx s = none) :
    exec (.rdsr idx) s = .next s.markIllegal := by
  simp only [exec, execRdsr, hv]

/-- From a state of the invariant every command goes on. -/
theorem exec_goes {s : State} (hs : s.legal = true) (i : Instr) : ∃ t, exec i s = .next t := by
  cases i with
  | nop | sysReset | encAbort | decAbort => exact ⟨_, rfl⟩
  | rdsr idx =>
    cases hv : statusReg idx s with
    | some v => exact ⟨_, exec_rdsr_of_statusReg hv⟩
    | none => exact ⟨_, exec_rdsr_of_no_statusReg hv⟩
  | encCfg rows cols => exact onEnc_goes (act := encCfgAct rows cols s.enc) (fun _ => .does) s
  | encStart => exact onEnc_goes (fun _ => encStartAct_ruled s.enc) s
  | encByte b => exact onEnc_goes (act := encByteAct b s.enc) (fun _ => .does) s
  | encEnd => exact onEnc_goes (fun ha => encEndAct_ruled (s.legal_iff.1 hs).1 ((Ctl.isActive_iff _).1 ha)) s
  | decCfg mode => exact onDec_goes (act := decCfgAct mode s.dec) .does s
  | decStart => exact onDec_goes (act := decStartAct s.dec) .does s
  | decRaster rows cols => exact onDec_goes (decRasterAct_ruled rows cols s.dec) s
  | decPix v => exact onDec_goes (decPixAct_ruled v s.dec) s
  | decEnd => exact onDec_goes (act := decEndAct s.dec) .does s

/-- So every list of commands goes on. -/
theorem execAll_goes (is : List Instr) {s : State} (hs : s.legal = true) : ∃ t, execAll is s = .next t := by
  induction is generalizing s with
  | nil => exact ⟨s, rfl⟩
  | cons i is ih =>
    obtain ⟨u, hu⟩ := exec_goes hs i
    obtain ⟨t, ht⟩ := ih (exec_keeps_legal hu hs)
    exact ⟨t, execAll_cons.2 ⟨u, hu, ht⟩⟩

/-! ## Every word, item and step goes on -/

theorem acceptWord_goes {s : State} (hs : s.legal = true) (w : Word) : ∃ t, acceptWord w s = .next t := by
  cases hdec : decode w with
  | ok i => simpa only [acceptWord_of_decode hdec] using exec_goes hs i
  | error e => exact ⟨s.markIllegal, by rw [acceptWord, hdec]⟩

/-- R190: a command that goes on when it is not cut can be cut short. -/
theorem resetDuring_of_acceptWord {w : Word} {s whole : State} (hwhole : acceptWord w s = .next whole) (n : Nat) :
    resetDuring w n s = .next (cutShort n s whole) := by
  rw [resetDuring, hwhole]

theorem present_goes {s : State} (hs : s.legal = true) (item : PortItem) : ∃ t, present item s = .next t := by
  cases item with
  | word w => exact acceptWord_goes hs w
  | rst => exact ⟨_, rfl⟩
  | rstDuring w n =>
    obtain ⟨whole, hwhole⟩ := acceptWord_goes hs w
    exact ⟨_, resetDuring_of_acceptWord hwhole n⟩

/-- The first thing presented is taken off the input and acted on (R41). -/
theorem step_of_item {s : State} {item : PortItem} {rest : List PortItem} (hs : s.legal = true)
    (hin : s.input = item :: rest) : step s = present item (s.setInput rest) := by
  simp only [step, hs, takeInput, hin, if_true]

/-- With nothing presented the block waits. -/
theorem step_of_no_input {s : State} (hs : s.legal = true) (hin : s.input = []) : step s = .next s := by
  simp only [step, hs, takeInput, hin, if_true]

theorem step_goes {s : State} (hs : s.legal = true) : ∃ t, step s = .next t := by
  cases hin : s.input with
  | nil => exact ⟨s, step_of_no_input hs hin⟩
  | cons item rest =>
    rw [step_of_item hs hin]
    exact present_goes (s := s.setInput rest) hs item

/-- A run whose first step goes on is the run from the next state. -/
theorem run_of_step {s u : State} (h : step s = .next u) (k : Nat) :
    Sys2Proof.core.run (k + 1) s = Sys2Proof.core.run k u := by
  have hstep : Sys2Proof.core.step s = .next u := h
  simp only [Host.Core.run, hstep]

/-- Settles O34, by induction on the number of steps: each goes on (`step_goes`) and keeps the invariant
(`stepKeepsLegal`). -/
theorem blockNeverStops : Obligations.BlockNeverStops := by
  intro s hs k
  induction k generalizing s with
  | zero => exact ⟨s, rfl, hs⟩
  | succ k ih =>
    obtain ⟨u, hu⟩ := step_goes hs
    rw [run_of_step hu]
    exact ih u (stepKeepsLegal s u hs hu)

/-- Settles O38 (`step_of_no_input`). -/
theorem idlePortWaits : Obligations.IdlePortWaits := fun _ => step_of_no_input

/-! ## Reset (R190 to R193) -/

/-- Settles O31, by evaluating the reset values and the registers that show them. -/
theorem resetLeavesTheseValues : Obligations.ResetLeavesTheseValues :=
  ⟨rfl, by decide, by decide, rfl, rfl, rfl, rfl⟩

/-- Settles O36: the step takes the reset off the input (`step_of_item`), and what it does is `exec_sysReset`. -/
theorem hardwareResetEqualsSysReset : Obligations.HardwareResetEqualsSysReset :=
  fun s rest hs hin => ⟨step_of_item hs hin, (step_of_item hs hin).trans (exec_sysReset (s.setInput rest)).symm⟩

section
variable {s whole : State} (n : Nat)

/-! A command cut short keeps, on each port, the first `n` of the events of the whole command. -/

theorem cutShort_pixOut {ps : List Pix} (h : whole.pixOut = s.pixOut ++ ps) :
    (cutShort n s whole).pixOut = s.pixOut ++ ps.take n := by
  simp only [cutShort, State.resetRegisters_pixOut, h, List.drop_left]

theorem cutShort_byteOut {bs : List Byte} (h : whole.byteOut = s.byteOut ++ bs) :
    (cutShort n s whole).byteOut = s.byteOut ++ bs.take n := by
  simp only [cutShort, State.resetRegisters_byteOut, h, List.drop_left]

theorem cutShort_rspOut {rs : List Word} (h : whole.rspOut = s.rspOut ++ rs) :
    (cutShort n s whole).rspOut = s.rspOut ++ rs.take n := by
  simp only [cutShort, State.resetRegisters_rspOut, h, List.drop_left]

theorem cutShort_atReset : (cutShort n s whole).atReset := ⟨rfl, rfl, rfl⟩

end

/-- Settles O37: the command goes on when it is not cut (`acceptWord_goes`) and appends its events
(`acceptWord_appends`); of these the cut keeps the first `n`. -/
theorem resetDuringCommandKeepsEmitted : Obligations.ResetDuringCommandKeepsEmitted := by
  intro s w n rest hs hin
  obtain ⟨whole, hwhole⟩ := acceptWord_goes (s := s.setInput rest) hs w
  obtain ⟨ps, bs, rs, hpix, hbyte, hrsp, -⟩ := acceptWord_appends hwhole
  have hstep : step s = .next (cutShort n (s.setInput rest) whole) :=
    (step_of_item hs hin).trans (resetDuring_of_acceptWord hwhole n)
  exact ⟨_, whole, ps, bs, rs, hstep, hwhole, cutShort_atReset n, rfl, hpix, cutShort_pixOut n hpix,
    hbyte, cutShort_byteOut n hbyte, hrsp, cutShort_rspOut n hrsp⟩

/-! ## Commands of the two units commute (R208, R151) -/

/-- Neither view's registers and port are touched through the other. -/
structure UnitView.Apart {σ ε τ δ : Type} (V : UnitView σ ε) (W : UnitView τ δ) : Prop where
  get_left : ∀ v fvs s, V.get (W.put v fvs s) = V.get s
  get_right : ∀ u evs s, W.get (V.put u evs s) = W.get s
  put_comm : ∀ u evs v fvs s, V.put u evs (W.put v fvs s) = W.put v fvs (V.put u evs s)

theorem encView_apart_decView : encView.Apart decView := ⟨fun _ _ _ => rfl, fun _ _ _ => rfl, fun _ _ _ _ _ => rfl⟩

theorem UnitView.Apart.symm {σ ε τ δ : Type} {V : UnitView σ ε} {W : UnitView τ δ} (hVW : V.Apart W) : W.Apart V :=
  ⟨hVW.get_right, hVW.get_left, fun v fvs u evs s => (hVW.put_comm u evs v fvs s).symm⟩

/-- Two command lists confined to views that are apart can change places. -/
theorem UnitView.Apart.execAll_swap {σ ε τ δ : Type} {V : UnitView σ ε} {W : UnitView τ δ} (hVW : V.Apart W)
    {xs ys : List Instr} (hxs : V.Confines (execAll xs)) (hys : W.Confines (execAll ys)) {s t : State}
    (h : execAll (xs ++ ys) s = .next t) : execAll (ys ++ xs) s = .next t := by
  obtain ⟨w, hw, ht⟩ := execAll_append.1 h
  obtain ⟨u, evs, rfl, hu⟩ := hxs s w hw
  obtain ⟨v, fvs, rfl, hv⟩ := hys _ t ht
  rw [← hVW.put_comm]
  exact execAll_append.2 ⟨_, hv s (hVW.get_right u evs s).symm, hu _ (hVW.get_left v fvs s)⟩

theorem confines_execAll_forEnc {is : List Instr} (his : ∀ i ∈ is, forEnc i = true) :
    encView.Confines (execAll is) :=
  UnitView.confines_execAll fun i hi => exec_confined_of_forEnc (his i hi)

theorem confines_execAll_forDec {is : List Instr} (his : ∀ i ∈ is, forDec i = true) :
    decView.Confines (execAll is) :=
  UnitView.confines_execAll fun i hi => exec_confined_of_forDec (his i hi)

/-- No command belongs to both units (R61). -/
theorem not_forDec_of_forEnc {i : Instr} (hi : forEnc i = true) : ¬ forDec i = true := by
  cases i with
  | nop | sysReset | rdsr _ | decCfg _ | decStart | decRaster _ _ | decPix _ | decEnd | decAbort => cases hi
  | encCfg _ _ | encStart | encByte _ | encEnd | encAbort => exact nofun

/-- An interleaving of the two units' commands can be sorted: a decoder command at its head moves past the encoder
commands of the sorted rest. -/
theorem execAll_sorted {is : List Instr} (his : ∀ i ∈ is, forEnc i = true ∨ forDec i = true) {s t : State}
    (h : execAll is s = .next t) : execAll (is.filter forEnc ++ is.filter forDec) s = .next t := by
  induction is generalizing s with
  | nil => exact h
  | cons i is ih =>
    obtain ⟨u, hu, hrest⟩ := execAll_cons.1 h
    have hsorted := execAll_cons.2 ⟨u, hu, ih (fun j hj => his j (List.mem_cons_of_mem i hj)) hrest⟩
    by_cases hi : forEnc i = true
    · rwa [List.filter_cons_of_pos hi, List.filter_cons_of_neg (not_forDec_of_forEnc hi)]
    · have hd : forDec i = true := (his i List.mem_cons_self).resolve_left hi
      rw [List.filter_cons_of_neg hi, List.filter_cons_of_pos hd]
      obtain ⟨v, hv, ht⟩ := execAll_append (xs := i :: is.filter forEnc).1 hsorted
      have hswap := encView_apart_decView.symm.execAll_swap (confines_execAll_forDec (is := [i]) (by simpa using hd))
        (confines_execAll_forEnc fun j hj => (List.mem_filter.1 hj).2) hv
      obtain ⟨w, hw, hi'⟩ := execAll_append.1 hswap
      exact execAll_append.2 ⟨w, hw, execAll_append (xs := [i]).2 ⟨v, hi', ht⟩⟩

/-- Settles O43: the interleaving is sorted (`execAll_sorted`), the two halves change places, and each half run alone
does to its own view what it does after the other (`UnitView.Confines`). -/
theorem unitsCommute : Obligations.UnitsCommute := by
  intro is s his hs
  have henc := confines_execAll_forEnc (is := is.filter forEnc) fun i hi => (List.mem_filter.1 hi).2
  have hdec := confines_execAll_forDec (is := is.filter forDec) fun i hi => (List.mem_filter.1 hi).2
  obtain ⟨t, ht⟩ := execAll_goes is hs
  have hed := execAll_sorted his ht
  have hde := encView_apart_decView.execAll_swap henc hdec hed
  obtain ⟨te, hte, hboth⟩ := execAll_append.1 hed
  obtain ⟨td, htd, -⟩ := execAll_append.1 hde
  obtain ⟨u, evs, rfl, -⟩ := henc s te hte
  obtain ⟨v, fvs, rfl, hv⟩ := hdec s td htd
  obtain rfl := Host.Outcome.next.inj (hboth.symm.trans (hv (encView.put u evs s) rfl))
  exact ⟨_, _, _, ht, hed, hde, hte, htd, rfl⟩

/-! ## A run over words is a run of commands (R196, R41) -/

/-- R41: what is still to be presented is not read by a command, and a command leaves it as it is. -/
theorem exec_setInput {i : Instr} {s t : State} (h : exec i s = .next t) (items : List PortItem) :
    exec i (s.setInput items) = .next (t.setInput items) := by
  cases i with
  | nop | sysReset => cases h; rfl
  | rdsr idx =>
    obtain ⟨v, hv, rfl⟩ | ⟨hv, rfl⟩ := execRdsr_cases h
    · exact exec_rdsr_of_statusReg (s := s.setInput items) hv
    · exact exec_rdsr_of_no_statusReg (s := s.setInput items) hv
  | encCfg _ _ | encStart | encByte _ | encEnd | encAbort =>
    obtain ⟨u, evs, rfl, hu⟩ := exec_confined_of_forEnc rfl s t h
    exact hu (s.setInput items) rfl
  | decCfg _ | decStart | decRaster _ _ | decPix _ | decEnd | decAbort =>
    obtain ⟨u, evs, rfl, hu⟩ := exec_confined_of_forDec rfl s t h
    exact hu (s.setInput items) rfl

theorem exec_input {i : Instr} {s t : State} (h : exec i s = .next t) : t.input = s.input := by
  have hsame : t = t.setInput s.input := Host.Outcome.next.inj (h.symm.trans (exec_setInput h s.input))
  calc t.input = (t.setInput s.input).input := congrArg State.input hsame
    _ = s.input := rfl

theorem execAll_input {is : List Instr} {s t : State} (h : execAll is s = .next t) : t.input = s.input := by
  induction is generalizing s with
  | nil => cases h; rfl
  | cons i is ih =>
    obtain ⟨u, hu, hrest⟩ := execAll_cons.1 h
    exact (ih hrest).trans (exec_input hu)

/-- One step takes the word of a well-formed command, executes the command and leaves what is presented after it. -/
theorem step_of_command {i : Instr} {s t : State} (hi : i.wellFormed = true) (hs : s.legal = true)
    (h : exec i s = .next t) (items : List PortItem) :
    step (s.setInput (.word (encode i) :: items)) = .next (t.setInput items) :=
  calc step (s.setInput (.word (encode i) :: items)) = acceptWord (encode i) (s.setInput items) :=
        step_of_word (s := s.setInput (.word (encode i) :: items)) hs rfl
    _ = exec i (s.setInput items) := acceptWord_of_decode (decode_encode hi) _
    _ = .next (t.setInput items) := exec_setInput h items

/-- With the words of some commands presented, one step for each executes the commands and leaves what is presented
after them. -/
theorem run_of_words {is : List Instr} (his : ∀ i ∈ is, i.wellFormed = true) (rest : List PortItem) {s t : State}
    (hs : s.legal = true) (h : execAll is s = .next t) :
    Sys2Proof.core.run is.length (s.setInput ((is.map encode).map .word ++ rest)) = .next (t.setInput rest) := by
  induction is generalizing s with
  | nil => cases h; rfl
  | cons i is ih =>
    obtain ⟨u, hu, hrest⟩ := execAll_cons.1 h
    have hstep := step_of_command (his i List.mem_cons_self) hs hu ((is.map encode).map .word ++ rest)
    exact (run_of_step hstep is.length).trans
      (ih (fun j hj => his j (List.mem_cons_of_mem i hj)) (exec_keeps_legal hu hs) hrest)

/-- Settles O47: the commands go on (`execAll_goes`), the run over their words does the same (`run_of_words`), and both
end with nothing presented (`execAll_input`). -/
theorem runOfWordsIsRunOfCommands : Obligations.RunOfWordsIsRunOfCommands := by
  intro is s his hs hin
  obtain ⟨t, ht⟩ := execAll_goes is hs
  have hwords : s.presentWords (is.map encode) = s.setInput ((is.map encode).map .word ++ []) := by
    rw [State.presentWords, hin, List.nil_append, List.append_nil]
  have hempty : t.setInput [] = t := by
    rw [← hin, ← execAll_input ht]
    rfl
  refine ⟨t, ht, ?_⟩
  rw [hwords, run_of_words his [] hs ht, hempty]

end Sys2Proof.Machine
end
